-- ==== Sys2Proof/Word.lean ====
section
/-! DEFINITION. The word types of the block: registers and pixels are 32 bits (R24, R66), texture entries 16 bits
(R44), ROM units 8 bits (R60). -/

namespace Sys2Proof

/-- A register value or a pixel (R24, R42). -/
abbrev Word := BitVec 32

/-- A byte of the ROM, a name byte or a channel sample (R60, R66). -/
abbrev Byte := BitVec 8

/-- An entry of the texture memory (R44). -/
abbrev Texel := BitVec 16

end Sys2Proof
end

