-- ==== Sys2Proof/Machine/Operands.lean ====
section
/-! DEFINITION. The operand forms of R91 and R92: how a latched 32-bit value is read, and the value that reads as a
given operand. -/

namespace Sys2Proof.Machine

/-- `s32(a)`: the register value read as two's complement (R92). -/
def s32 (a : Word) : Int := a.toInt

/-- `u32(a)`: the register value read as an unsigned number (R92). -/
def u32 (a : Word) : Nat := a.toNat

/-- Name byte i of a name operand: `a0[8i+7 : 8i]` (R92). -/
def nameByte (a : Word) (i : Nat) : Byte := a.extractLsb' (8 * i) 8

/-- The register value that reads as the signed operand v. -/
def ofS32 (v : Int) : Word := BitVec.ofInt 32 v

/-- The register value that reads as the unsigned operand v. -/
def ofU32 (v : Nat) : Word := BitVec.ofNat 32 v

/-- The name word: n0 in the lowest byte (R92). -/
def nameWord (n0 n1 n2 n3 : Byte) : Word := n3 ++ n2 ++ n1 ++ n0

end Sys2Proof.Machine
end

