-- ==== Sys2Proof/Syntax.lean ====
section
/-! DEFINITION. The commands, one constructor per row of spec/opcode_table.json (R93), and the 128-bit tuple that
encodes one (R90). -/

namespace Sys2Proof

/-- A command as it is latched (R22, R90): the CMD word and the copies of ARG0, ARG1, ARG2. -/
structure Command where
  op : Word
  a0 : Word
  a1 : Word
  a2 : Word
  deriving DecidableEq, Repr

/-- The commands (R93) with their operands as R91 reads them: signed operands are integers, W and H are naturals,
name bytes are bytes, n0 first. -/
inductive Instr where
  /-- NOP, R182. -/
  | nop
  /-- CONFIG w, h, R181. -/
  | config (w h : Nat)
  /-- PIXEL x, y, code, R183. -/
  | pixel (x y code : Int)
  /-- RECT xoff, yoff, R184. -/
  | rect (xoff yoff : Int)
  /-- SWAP, R185. -/
  | swap
  /-- RGB r, g, b, R125. -/
  | rgb (r g b : Int)
  /-- DECODE code, R126. -/
  | decode (code : Int)
  /-- HSV h, s, v, R129. -/
  | hsv (h s v : Int)
  /-- GREY code, R131. -/
  | grey (code : Int)
  /-- ROMLOAD "n0n1n2n3", R164. -/
  | romload (n0 n1 n2 n3 : Byte)
  deriving DecidableEq, Repr

end Sys2Proof
end

