-- ==== Sys2Proof/WellFormed.lean ====
section
/-! DEFINITION. Which commands an encoding exists for: every operand fits its 32-bit form (R92). -/

namespace Sys2Proof

/-- A signed operand is in [-2^31, 2^31-1] (R92). -/
def inS32 (v : Int) : Bool := decide (-2147483648 ≤ v) && decide (v ≤ 2147483647)

/-- An unsigned operand is in [0, 2^32-1] (R92). -/
def inU32 (v : Nat) : Bool := decide (v < 4294967296)

/-- Every operand fits its form (R91, R92). A byte of a name always does. -/
def Instr.wellFormed : Instr → Bool
  | .nop => true
  | .config w h => inU32 w && inU32 h
  | .pixel x y code => inS32 x && inS32 y && inS32 code
  | .rect xoff yoff => inS32 xoff && inS32 yoff
  | .swap => true
  | .rgb r g b => inS32 r && inS32 g && inS32 b
  | .decode code => inS32 code
  | .hsv h s v => inS32 h && inS32 s && inS32 v
  | .grey code => inS32 code
  | .romload _ _ _ _ => true

end Sys2Proof
end

