-- ==== Sys2Proof/Decode.lean ====
section
/-! DEFINITION. The decoder of command words (R90 to R96), total and rejecting by name, and the encoder. -/

namespace Sys2Proof

open Sys2Proof.Machine

/-- Why a command word is illegal (R94). -/
inductive DecodeError where
  /-- v[31:8] is not zero. -/
  | reservedBits
  /-- v[7:0] is no opcode of R93. -/
  | reservedOpcode
  deriving DecidableEq, Repr

/-- The command that a latched tuple stands for, by the opcode map of R93 and the formats of R91; the illegal words
are those of R94. -/
def decodeCommand (c : Command) : Except DecodeError Instr :=
  if c.op.extractLsb' 8 24 ≠ 0#24 then .error .reservedBits
  else match (c.op.extractLsb' 0 8).toNat with
    | 0x00 => .ok .nop
    | 0x01 => .ok (.config (u32 c.a0) (u32 c.a1))
    | 0x02 => .ok (.pixel (s32 c.a0) (s32 c.a1) (s32 c.a2))
    | 0x03 => .ok (.rect (s32 c.a0) (s32 c.a1))
    | 0x04 => .ok .swap
    | 0x10 => .ok (.rgb (s32 c.a0) (s32 c.a1) (s32 c.a2))
    | 0x11 => .ok (.decode (s32 c.a0))
    | 0x12 => .ok (.hsv (s32 c.a0) (s32 c.a1) (s32 c.a2))
    | 0x13 => .ok (.grey (s32 c.a0))
    | 0x20 => .ok (.romload (nameByte c.a0 0) (nameByte c.a0 1) (nameByte c.a0 2) (nameByte c.a0 3))
    | _ => .error .reservedOpcode

/-- The tuple whose bits are v, numbered as spec/opcode_table.json numbers them: the CMD word in bits 31..0, then
ARG0, ARG1 and ARG2 (R90: "128 bits of operand and opcode state"); bits from `nbits` up are zero. -/
def Command.ofBits (nbits v : Nat) : Command :=
  let b := v % 2 ^ nbits
  { op := BitVec.ofNat 32 b, a0 := BitVec.ofNat 32 (b / 2 ^ 32), a1 := BitVec.ofNat 32 (b / 2 ^ 64),
    a2 := BitVec.ofNat 32 (b / 2 ^ 96) }

/-- The command the decoder reads from a row's bits; none where the word is illegal. -/
def decodeTableWord (nbits w : Nat) : Option Instr :=
  match decodeCommand (Command.ofBits nbits w) with
  | .ok i => some i
  | .error _ => none

/-- The opcode of a command (R93). -/
def Instr.opcode : Instr → Word
  | .nop => 0x00#32
  | .config _ _ => 0x01#32
  | .pixel _ _ _ => 0x02#32
  | .rect _ _ => 0x03#32
  | .swap => 0x04#32
  | .rgb _ _ _ => 0x10#32
  | .decode _ => 0x11#32
  | .hsv _ _ _ => 0x12#32
  | .grey _ => 0x13#32
  | .romload _ _ _ _ => 0x20#32

/-- The tuple that encodes a command (R90 to R93); operands a format ignores are written as zero. -/
def encode (i : Instr) : Command :=
  match i with
  | .nop => ⟨i.opcode, 0, 0, 0⟩
  | .config w h => ⟨i.opcode, ofU32 w, ofU32 h, 0⟩
  | .pixel x y code => ⟨i.opcode, ofS32 x, ofS32 y, ofS32 code⟩
  | .rect xoff yoff => ⟨i.opcode, ofS32 xoff, ofS32 yoff, 0⟩
  | .swap => ⟨i.opcode, 0, 0, 0⟩
  | .rgb r g b => ⟨i.opcode, ofS32 r, ofS32 g, ofS32 b⟩
  | .decode code => ⟨i.opcode, ofS32 code, 0, 0⟩
  | .hsv h s v => ⟨i.opcode, ofS32 h, ofS32 s, ofS32 v⟩
  | .grey code => ⟨i.opcode, ofS32 code, 0, 0⟩
  | .romload n0 n1 n2 n3 => ⟨i.opcode, nameWord n0 n1 n2 n3, 0, 0⟩

end Sys2Proof
end

