-- ==== Sys2Proof/Config.lean ====
section
/-! DEFINITION. What an implementation fixes (R9, R73) and the free values the spec leaves open (R44, R46, R250).
Every constant here that the spec leaves open is opaque, without a body: nothing can be proved of its value. -/

namespace Sys2Proof.Config

/-- The source of `wmax`: any number. -/
opaque wmaxDraw : Nat

/-- The source of `hmax`: any number. -/
opaque hmaxDraw : Nat

/-- The source of `texCap`: any number. -/
opaque texCapDraw : Nat

/-- WMAX (R9): some number in 1..65535, and nothing else is known of it. DESIGN CHOICE (log 2). -/
def wmax : Nat := wmaxDraw % 65535 + 1

/-- HMAX (R9): some number in 1..65535. DESIGN CHOICE (log 2). -/
def hmax : Nat := hmaxDraw % 65535 + 1

/-- TEX_CAP (R9): some number in 1..2^32-1. DESIGN CHOICE (log 2). -/
def texCap : Nat := texCapDraw % 4294967295 + 1

/-- REG_BASE (R73): where the platform puts the block; no rule reads it. -/
opaque regBase : Nat

/-- `texPowerUp epoch a`: what the entry `a` of TEX holds from the reset numbered `epoch` until it is written: any
value (R44, R46, R240). -/
opaque texPowerUp : Nat → Nat → Texel

/-- `fbPowerUp epoch bank a`: what pixel `a` of a bank holds from the reset numbered `epoch` until it is written or
zeroed: any value, never observable (R42, R240). -/
opaque fbPowerUp : Nat → Nat → Nat → Word

/-- `romPick draw k`: the free picks by which a ROM that the host changed under a pending ROMLOAD is mixed from its
old and new contents (R250). -/
opaque romPick : Nat → Nat → Nat

end Sys2Proof.Config
end

