-- ==== Sys2Proof/Machine/State.lean ====
section
/-! DEFINITION. The state of the block (R20), of its ROM decoder (R153), of its input the ROM (R10), and of the agents
that step it (R7, R74), as plain data; the state after reset (R46). -/

namespace Sys2Proof.Machine

/-- The error codes of R211: "the only values STATUS.ERRCODE takes". -/
inductive ErrCode where
  /-- 0x00, no error recorded. -/
  | none
  /-- 0x01, raised by RGB and HSV. -/
  | domain
  /-- 0x02, raised by PIXEL, RECT and SWAP. -/
  | notConfigured
  /-- 0x03, raised by CONFIG. -/
  | configInvalid
  /-- 0x04, raised by CONFIG. -/
  | alreadyConfigured
  /-- 0x05, raised by an illegal command word. -/
  | illegalCommand
  /-- 0x06, raised by RECT. -/
  | texRange
  /-- 0x10, raised by ROMLOAD. -/
  | romBadMagic
  /-- 0x11, raised by ROMLOAD. -/
  | romSizeMismatch
  /-- 0x12, raised by ROMLOAD. -/
  | romTooLarge
  /-- 0x13, raised by ROMLOAD. -/
  | romAllocFailed
  /-- 0x14, raised by ROMLOAD. -/
  | romNotFound
  /-- 0x15, raised by ROMLOAD. -/
  | romIoError
  deriving DecidableEq, Repr

/-- The two framebuffer banks (R42). -/
inductive BankId where
  | fb0
  | fb1
  deriving DecidableEq, Repr

/-- The implementation's parameters (R9), which CAP0 and CAP1 show (R27, R28). No step changes them. -/
structure Params where
  wmax : Nat
  hmax : Nat
  texCap : Nat
  deriving DecidableEq, Repr

/-- One framebuffer bank (R42). `cells` lists pixels by rising address; a pixel it does not list reads as zero below
`zeroed` (a CONFIG or a SWAP has cleared it, R181, R185) and as a free value from there up (R240; log 5, log 6). -/
structure Bank where
  zeroed : Nat
  cells : List (Nat × Word)
  deriving DecidableEq, Repr

/-- The memories of the block (R42, R44). `tex` lists the texture entries written since reset, by rising index; an
entry it does not list is a free value (R44, R46; log 5). -/
structure Memory where
  fb0 : Bank
  fb1 : Bank
  tex : List (Nat × Texel)
  deriving DecidableEq, Repr

/-- The ROM the host supplies (R10): ROM[0 .. ROM_LEN-1] and ROM_PRESENT. ROM_LEN is the length of `bytes`. -/
structure Rom where
  bytes : List Byte
  present : Bool
  deriving DecidableEq, Repr

/-- The states of the ROM decoder (the table of R153). -/
inductive RomPhase where
  | idle
  | opening
  | magic
  | count
  | hdr
  | matching
  | skip
  | check
  | copy
  | ok
  | fail (e : ErrCode)
  deriving DecidableEq, Repr

/-- The ROM decoder's registers (R153, R22): the state, the read offset o, the record counter i, the count N, the
current record's header P, name, W_i, H_i, and the copy index k. Invisible to the host. -/
structure RomFsm where
  phase : RomPhase
  o : Nat
  i : Nat
  n : Nat
  p : Nat
  name : Word
  w : Nat
  h : Nat
  k : Nat
  deriving DecidableEq, Repr

/-- The decoder at rest (R46: IDLE). The spec gives its other registers no value there: DESIGN CHOICE zero (log 8). -/
def RomFsm.idle : RomFsm := ⟨.idle, 0, 0, 0, 0, 0, 0, 0, 0⟩

/-- The value a host statement writes (R97): a 32-bit literal, a `$` variable, `$RESULT`, or the texture code m(c) of
one of these (R102). -/
inductive HostVal where
  | lit (v : Word)
  | var (x : Nat)
  | result
  | texel (c : HostVal)
  deriving DecidableEq, Repr

/-- What the host still has to do, in the primitives the statements of R97 to R104 expand into. Each one that makes an
access makes one a step. -/
inductive HostOp where
  /-- WR reg, v (R99). -/
  | wr (slot : Fin 64) (v : HostVal)
  /-- RD reg -> $x (R99), or a read that binds no variable. -/
  | rd (slot : Fin 64) (x : Option Nat)
  /-- WAIT (R100): reads STATUS until BUSY reads 0. -/
  | wait
  /-- CHECK -> $e (R101). -/
  | check (x : Nat)
  /-- The loop of GETTEX -> $t (R103), with $w and $h read, from index i on, for a TEX_CAP of `cap`. -/
  | readTex (cap t w h i : Nat)
  deriving DecidableEq, Repr

/-- The host (R7): its remaining operations, its `$` variables by number, its texture variables, the value it last read
from RESULT (R97), and whether it has refused a GETTEX (R103; log 11). -/
structure HostAgent where
  program : List HostOp
  vars : List (Nat × Word)
  texVars : List (Nat × List Word)
  result : Word
  refused : Bool
  deriving DecidableEq, Repr

/-- Which agent takes a step, and with what input (R74; log 1). -/
inductive Turn where
  /-- The host makes its next register access. -/
  | host
  /-- The engine completes the accepted command (R23). -/
  | engine
  /-- The ROM decoder moves one state (R153). -/
  | decoder
  /-- The display reads SO at an address (R35). -/
  | display (a : Word)
  /-- The host replaces the ROM (R10, R74). -/
  | rom (r : Rom)
  /-- The reset input is asserted (R240). -/
  | reset
  deriving DecidableEq, Repr

/-- The whole state. Field by field: INVENTORY.md, "State". -/
structure State where
  params : Params
  done : Bool
  err : Bool
  ovr : Bool
  errCode : ErrCode
  irqEn : BitVec 3
  fbW : Word
  fbH : Word
  arg0 : Word
  arg1 : Word
  arg2 : Word
  result : Word
  texW : Word
  texH : Word
  texAddr : Word
  fbAddr : Word
  frontSel : BankId
  cfg : Bool
  mem : Memory
  lc : Option Command
  fsm : RomFsm
  rom : Rom
  romSeen : List Rom
  epoch : Nat
  draws : Nat
  hostData : Option Word
  soData : Option Word
  host : HostAgent
  schedule : List Turn
  deriving DecidableEq, Repr

/-- Why a step could stop with a fault. The spec names no such case: "an error never stops the block" (R210), so the
type has no constructor. -/
inductive Fault : Type where
  deriving DecidableEq, Repr

/-- Why a step could be refused. -/
inductive Refusal where
  /-- An instruction without a meaning yet; raised by exec's refused arms only (there is none left). Safe. -/
  | notModelled (mnemonic : String)
  deriving DecidableEq, Repr

/-- The state after reset (R46, R240). The parameters are the free constants of Config (log 2). The spec gives no
reset value for the ROM input, the decoder's counters and the model's own fields: logs 1, 5, 7, 8, 9, 10, 11. -/
def State.reset : State where
  params := ⟨Config.wmax, Config.hmax, Config.texCap⟩
  done := false
  err := false
  ovr := false
  errCode := .none
  irqEn := 0
  fbW := 0
  fbH := 0
  arg0 := 0
  arg1 := 0
  arg2 := 0
  result := 0
  texW := 0
  texH := 0
  texAddr := 0
  fbAddr := 0
  frontSel := .fb0
  cfg := false
  mem := ⟨⟨0, []⟩, ⟨0, []⟩, []⟩
  lc := none
  fsm := .idle
  rom := ⟨[], false⟩
  romSeen := []
  epoch := 0
  draws := 0
  hostData := none
  soData := none
  host := ⟨[], [], [], 0, false⟩
  schedule := []

end Sys2Proof.Machine
end

