-- ==== Sys2Proof/Machine/Ops.lean ====
section
/-! DEFINITION. The named operations over memory and registers, shared by all meanings: sparse memories, the banks
and the texture memory, the loop of the pseudocode, and how a command completes (R212, R213). -/

namespace Sys2Proof.Machine

/-! ### Sparse memories: lists of (address, unit) by rising address -/

/-- The unit listed at an address, if any. -/
def cellsFind {α : Type} (a : Nat) : List (Nat × α) → Option α
  | [] => none
  | (b, v) :: m => if a = b then some v else cellsFind a m

/-- Lists a unit at an address, in the place of the one listed there before. -/
def cellsPut {α : Type} (a : Nat) (v : α) : List (Nat × α) → List (Nat × α)
  | [] => [(a, v)]
  | (b, w) :: m =>
    if a < b then (a, v) :: (b, w) :: m
    else if a = b then (a, v) :: m
    else (b, w) :: cellsPut a v m

/-- Takes an address off the list. -/
def cellsErase {α : Type} (a : Nat) (m : List (Nat × α)) : List (Nat × α) := m.filter (fun c => c.1 != a)

/-- Takes every address below n off the list. -/
def cellsFrom {α : Type} (n : Nat) (m : List (Nat × α)) : List (Nat × α) := m.filter (fun c => decide (n ≤ c.1))

/-- The addresses are strictly rising. -/
def cellsRising {α : Type} (m : List (Nat × α)) : Bool := decide ((m.map Prod.fst).Pairwise (· < ·))

/-! ### Framebuffer banks (R42, R62) -/

/-- The other bank. -/
def BankId.other : BankId → BankId
  | .fb0 => .fb1
  | .fb1 => .fb0

/-- The bank's number (R42): FRONT_SEL = b means that FB<b> is front. -/
def BankId.number : BankId → Nat
  | .fb0 => 0
  | .fb1 => 1

/-- `MemRead(FB, a, 1)`: a listed pixel; else zero where the bank has been zeroed; else the unspecified contents. -/
def Bank.read (epoch number : Nat) (b : Bank) (a : Nat) : Word :=
  match cellsFind a b.cells with
  | some v => v
  | none => if a < b.zeroed then 0 else Config.fbPowerUp epoch number a

/-- `MemWrite(FB, a, 1, v)`, keeping the canonical form: zero where unlisted pixels read zero is not listed. -/
def Bank.write (b : Bank) (a : Nat) (v : Word) : Bank :=
  if a < b.zeroed ∧ v = 0 then { b with cells := cellsErase a b.cells } else { b with cells := cellsPut a v b.cells }

/-- `for a in [0, n): MemWrite(FB, a, 1, 0)`. -/
def Bank.zero (b : Bank) (n : Nat) : Bank := { zeroed := max b.zeroed n, cells := cellsFrom n b.cells }

/-- The canonical form of a bank: rising addresses, and no listed pixel that an unlisted one would read as. -/
def Bank.wf (b : Bank) : Bool := cellsRising b.cells && b.cells.all (fun c => decide (c.1 < b.zeroed → c.2 ≠ 0))

/-- The canonical form of the memories. An unlisted TEX entry reads as no value of its own (it is free), so every
listed entry differs from it. -/
def Memory.wf (m : Memory) : Bool := m.fb0.wf && m.fb1.wf && cellsRising m.tex

/-- The bank of a name. -/
def Memory.bank (m : Memory) : BankId → Bank
  | .fb0 => m.fb0
  | .fb1 => m.fb1

/-- The memories with one bank replaced. -/
def Memory.setBank (m : Memory) (i : BankId) (b : Bank) : Memory :=
  match i with
  | .fb0 => { m with fb0 := b }
  | .fb1 => { m with fb1 := b }

/-- `MemRead(FB<i>, a, 1)`. -/
def State.readPixel (s : State) (i : BankId) (a : Nat) : Word := (s.mem.bank i).read s.epoch i.number a

/-- `MemWrite(FB<i>, a, 1, v)`. -/
def State.writePixel (s : State) (i : BankId) (a : Nat) (v : Word) : State :=
  { s with mem := s.mem.setBank i ((s.mem.bank i).write a v) }

/-- `for a in [0, n): MemWrite(FB<i>, a, 1, 0)`. -/
def State.zeroBank (s : State) (i : BankId) (n : Nat) : State :=
  { s with mem := s.mem.setBank i ((s.mem.bank i).zero n) }

/-- front = FB<FRONT_SEL> (R12, R42). -/
def State.front (s : State) : BankId := s.frontSel

/-- back = FB<1-FRONT_SEL> (R12, R42). -/
def State.back (s : State) : BankId := s.frontSel.other

/-! ### Texture memory (R44) -/

/-- `MemRead(TEX, a, 1)`: an entry not written since reset is any value, the same one until it is written. -/
def State.readTexel (s : State) (a : Nat) : Texel := (cellsFind a s.mem.tex).getD (Config.texPowerUp s.epoch a)

/-- `MemWrite(TEX, a, 1, v)`. -/
def State.writeTexel (s : State) (a : Nat) (v : Texel) : State :=
  { s with mem := { s.mem with tex := cellsPut a v s.mem.tex } }

/-! ### Loops of the pseudocode (R12) -/

/-- `for i in [0, n): body`, in ascending order. -/
def forUpto {σ : Type} (body : Nat → σ → σ) : Nat → σ → σ
  | 0, s => s
  | n + 1, s => body n (forUpto body n s)

/-! ### Engine (R22, R23, R212, R213) -/

/-- BUSY (R22): a command is accepted and not yet complete. -/
def State.busy (s : State) : Bool := s.lc.isSome

/-- A completion (R23): BUSY <- 0, DONE <- 1, and the ROM decoder returns to IDLE (R153). Used alone it is the
successful completion of R213: ERR and ERRCODE are left. -/
def complete (s : State) : State := { s with lc := none, fsm := .idle, romSeen := [], done := true }

/-- The record of an error (R212): the first one since ERR was cleared is kept (R219). -/
def recordError (e : ErrCode) (s : State) : State :=
  if s.err then s else { s with err := true, errCode := e }

/-- Completion with error (R212), the block's form of taking an exception: `raise Error(e)`. -/
def completeError (e : ErrCode) (s : State) : State := complete (recordError e s)

/-- The acknowledgement of R218, the block's "trap return": the host's write of v to STATUS (R30). -/
def ackStatus (v : Word) (s : State) : State :=
  { s with
    done := s.done && !v.getLsbD 1
    err := s.err && !v.getLsbD 2
    errCode := if v.getLsbD 2 then .none else s.errCode
    ovr := s.ovr && !v.getLsbD 3 }

/-- An access refused because BUSY = 1 (R215). -/
def overrun (s : State) : State := { s with ovr := true }

/-- The accept step (R23). -/
def accept (v : Word) (s : State) : State := { s with lc := some ⟨v, s.arg0, s.arg1, s.arg2⟩ }

end Sys2Proof.Machine
end

