-- ==== Sys2Proof/Machine/Codec.lean ====
section
/-! DEFINITION. The palette codec (spec/40_palette_codec.md): the LUT, the code layout, and the commands RGB, DECODE,
HSV and GREY. -/

namespace Sys2Proof.Machine

/-- `LUT[k] = k*36` (R120). -/
def lut (k : Nat) : Nat := k * 36

/-- `valid(c)`: 1 ≤ c ≤ 512 (R121). -/
def validCode (c : Int) : Bool := decide (1 ≤ c) && decide (c ≤ 512)

/-- The channel indices (r, g, b) of a valid code (R121). -/
def codeIndices (c : Int) : Nat × Nat × Nat :=
  let k := (c - 1).toNat
  (k / 64, k / 8 % 8, k % 8)

/-- `encode(r, g, b)` (R122). -/
def paletteEncode (r g b : Int) : Int := 64 * r + 8 * g + b + 1

/-- The samples (R, G, B) of `decode(c)` (R123): opaque black where c is not valid. -/
def paletteDecode (c : Int) : Nat × Nat × Nat :=
  if validCode c then
    let (r, g, b) := codeIndices c
    (lut r, lut g, lut b)
  else (0, 0, 0)

/-- A pixel word (R66): A, B, G, R from the top byte down. -/
def pixelWord (r g b a : Nat) : Word :=
  BitVec.ofNat 8 a ++ BitVec.ofNat 8 b ++ BitVec.ofNat 8 g ++ BitVec.ofNat 8 r

/-- `decodeWord(c)` (R123): the word of `decode(c)`, with alpha 255. -/
def decodeWord (c : Int) : Word :=
  let (r, g, b) := paletteDecode c
  pixelWord r g b 255

/-- `inDomain(v)` (R124). -/
def inDomain (v : Int) : Bool := decide (0 ≤ v) && decide (v ≤ 7)

/-- `clamp(x, 0, 7)`. -/
def clamp7 (x : Int) : Int := max 0 (min x 7)

/-- The nearest integer, halves rounded away from zero (R127). -/
def roundHalfAway (x : Rat) : Int := if 0 ≤ x then (x + 1 / 2).floor else -(-x + 1 / 2).floor

/-- `hsvCode(h, s, v)` in exact rational arithmetic, line by line as R127 has it. The sextant formula is what the spec
supplies from general knowledge, and sextant 0 at h = 7 is its decision D32 (log 13). -/
def hsvCode (h s v : Int) : Int :=
  let hue : Rat := 360 * (h : Rat) / 7
  let sat : Rat := (s : Rat) / 7
  let val : Rat := (v : Rat) / 7
  let hp : Rat := hue / 60
  let f : Rat := hp - (hp.floor : Rat)
  let p : Rat := val * (1 - sat)
  let q : Rat := val * (1 - sat * f)
  let t : Rat := val * (1 - sat * (1 - f))
  let n : Rat → Int := fun c => clamp7 (roundHalfAway (7 * c))
  match (hp.floor % 6).toNat with
  | 0 => paletteEncode (n val) (n t) (n p)
  | 1 => paletteEncode (n q) (n val) (n p)
  | 2 => paletteEncode (n p) (n val) (n t)
  | 3 => paletteEncode (n p) (n q) (n val)
  | 4 => paletteEncode (n t) (n p) (n val)
  | _ => paletteEncode (n val) (n p) (n q)

/-- `grey(c)` (R130). -/
def greyCode (c : Int) : Int :=
  let (r, g, b) := paletteDecode c
  let y := (r + g + b) / 3
  let yp := clamp7 ((y * 7 / 255 : Nat) : Int)
  paletteEncode yp yp yp

/-- `x[RESULT] <- v` (R36). -/
def setResult (v : Word) (s : State) : State := { s with result := v }

/-- RGB r, g, b (R125). -/
def execRgb (r g b : Int) (s : State) : Host.Outcome State Fault Refusal :=
  if inDomain r && inDomain g && inDomain b then .next (complete (setResult (ofS32 (paletteEncode r g b)) s))
  else .next (completeError .domain s)

/-- DECODE code (R126). -/
def execDecode (code : Int) (s : State) : Host.Outcome State Fault Refusal :=
  .next (complete (setResult (decodeWord code) s))

/-- HSV h, s, v (R129). -/
def execHsv (h sat v : Int) (s : State) : Host.Outcome State Fault Refusal :=
  if inDomain h && inDomain sat && inDomain v then .next (complete (setResult (ofS32 (hsvCode h sat v)) s))
  else .next (completeError .domain s)

/-- GREY code (R131). -/
def execGrey (code : Int) (s : State) : Host.Outcome State Fault Refusal :=
  .next (complete (setResult (ofS32 (greyCode code)) s))

end Sys2Proof.Machine
end

