-- ==== Sys2Proof/Machine/Draw.lean ====
section
/-! DEFINITION. The framebuffer and the drawing primitives (spec/42_drawing.md): the plot primitive and the commands
CONFIG, NOP, PIXEL, RECT and SWAP. -/

namespace Sys2Proof.Machine

/-- W = x[FB_W] (R32). -/
def State.width (s : State) : Nat := s.fbW.toNat

/-- H = x[FB_H] (R32). -/
def State.height (s : State) : Nat := s.fbH.toNat

/-- The pixel at column x and row y lies in the buffer (R62, R180). -/
def State.inBuffer (s : State) (x y : Int) : Bool :=
  decide (0 ≤ x) && decide (x < (s.width : Int)) && decide (0 ≤ y) && decide (y < (s.height : Int))

/-- `skip(c)` (R180): the negation of `valid(c)` (R121). -/
def skipCode (c : Int) : Bool := decide (c ≤ 0) || decide (512 < c)

/-- The address of column x and row y: y*W + x (R62). -/
def State.pixelAddr (s : State) (x y : Int) : Nat := (y * (s.width : Int) + x).toNat

/-- `plot(x, y, c)` (R180): clips, skips, and writes the back bank. -/
def plot (x y c : Int) (s : State) : State :=
  if s.inBuffer x y && !skipCode c then s.writePixel s.back (s.pixelAddr x y) (decodeWord c) else s

/-- The body of CONFIG after its checks (R181). -/
def configure (w h : Nat) (s : State) : State :=
  let s1 := { s with fbW := ofU32 w, fbH := ofU32 h }
  let s2 := (s1.zeroBank .fb0 (w * h)).zeroBank .fb1 (w * h)
  { s2 with frontSel := .fb0, cfg := true }

/-- The two loops of RECT (R184). -/
def drawTexture (xoff yoff : Int) (s : State) : State :=
  let wt := s.texW.toNat
  let ht := s.texH.toNat
  forUpto (fun ty row =>
    forUpto (fun tx px => plot (xoff + tx) (yoff + ty) (px.readTexel (ty * wt + tx)).toNat px) wt row) ht s

/-- The body of SWAP after its check (R185): the old back is now front, and the new back is zeroed below W*H. -/
def swapBanks (s : State) : State :=
  let s1 := { s with frontSel := s.frontSel.other }
  s1.zeroBank s1.back (s1.width * s1.height)

/-- NOP (R182). -/
def execNop (s : State) : Host.Outcome State Fault Refusal := .next (complete s)

/-- CONFIG w, h (R181): ALREADY_CONFIGURED, then CONFIG_INVALID (R214). -/
def execConfig (w h : Nat) (s : State) : Host.Outcome State Fault Refusal :=
  if s.cfg then .next (completeError .alreadyConfigured s)
  else if 1 ≤ w ∧ w ≤ s.params.wmax ∧ 1 ≤ h ∧ h ≤ s.params.hmax then .next (complete (configure w h s))
  else .next (completeError .configInvalid s)

/-- PIXEL x, y, code (R183). -/
def execPixel (x y code : Int) (s : State) : Host.Outcome State Fault Refusal :=
  if s.cfg then .next (complete (plot x y code s)) else .next (completeError .notConfigured s)

/-- RECT xoff, yoff (R184): NOT_CONFIGURED, then TEX_RANGE with the exact product (R214). -/
def execRect (xoff yoff : Int) (s : State) : Host.Outcome State Fault Refusal :=
  if s.cfg then
    if s.texW.toNat * s.texH.toNat > s.params.texCap then .next (completeError .texRange s)
    else .next (complete (drawTexture xoff yoff s))
  else .next (completeError .notConfigured s)

/-- SWAP (R185). -/
def execSwap (s : State) : Host.Outcome State Fault Refusal :=
  if s.cfg then .next (complete (swapBanks s)) else .next (completeError .notConfigured s)

end Sys2Proof.Machine
end

