-- ==== Sys2Proof/Machine/Flags.lean ====
section
/-! DEFINITION. The status flags as software and the interrupt controller see them: STATUS (R29), the error codes
(R211), the interrupt enables (R31) and the IRQ level (R217). -/

namespace Sys2Proof.Machine

/-- The code of R211's table. -/
def ErrCode.byte : ErrCode → Byte
  | .none => 0x00#8
  | .domain => 0x01#8
  | .notConfigured => 0x02#8
  | .configInvalid => 0x03#8
  | .alreadyConfigured => 0x04#8
  | .illegalCommand => 0x05#8
  | .texRange => 0x06#8
  | .romBadMagic => 0x10#8
  | .romSizeMismatch => 0x11#8
  | .romTooLarge => 0x12#8
  | .romAllocFailed => 0x13#8
  | .romNotFound => 0x14#8
  | .romIoError => 0x15#8

/-- The FRONT bit: the value of FRONT_SEL (R29, R42). -/
def BankId.bit : BankId → BitVec 1
  | .fb0 => 0#1
  | .fb1 => 1#1

/-- STATUS (R29), bit 31 first: RAZ, ERRCODE, RAZ, CFG, FRONT, OVR, ERR, DONE, BUSY. -/
def State.statusWord (s : State) : Word :=
  0#16 ++ s.errCode.byte ++ 0#2 ++ BitVec.ofBool s.cfg ++ s.frontSel.bit ++ BitVec.ofBool s.ovr ++
    BitVec.ofBool s.err ++ BitVec.ofBool s.done ++ BitVec.ofBool s.busy

/-- IRQ_EN as it reads (R31): bits 31:3 are RAZ. -/
def State.irqEnWord (s : State) : Word := 0#29 ++ s.irqEn

/-- The bits of a write to IRQ_EN that are stored (R31): bits 31:3 are WI. -/
def irqEnOf (v : Word) : BitVec 3 := v.extractLsb' 0 3

/-- The level of the IRQ output (R217). -/
def State.irq (s : State) : Bool :=
  (s.done && s.irqEn.getLsbD 0) || (s.err && s.irqEn.getLsbD 1) || (s.ovr && s.irqEn.getLsbD 2)

end Sys2Proof.Machine
end

