-- ==== Sys2Proof/Machine/Port.lean ====
section
/-! DEFINITION. The host's register port (R24 to R41) and the display's scan-out port (R35). -/

namespace Sys2Proof.Machine

/-- The registers of R24. -/
inductive Reg where
  | id
  | cap0
  | cap1
  | status
  | irqEn
  | fbW
  | fbH
  | arg0
  | arg1
  | arg2
  | cmd
  | result
  | texW
  | texH
  | texAddr
  | texData
  | fbAddr
  | fbData
  deriving DecidableEq, Repr

/-- The register in a word slot (the table of R24); none in the reserved slots 0x48..0xFC. -/
def slotReg (slot : Fin 64) : Option Reg :=
  match slot.val with
  | 0 => some .id
  | 1 => some .cap0
  | 2 => some .cap1
  | 3 => some .status
  | 4 => some .irqEn
  | 5 => some .fbW
  | 6 => some .fbH
  | 7 => some .arg0
  | 8 => some .arg1
  | 9 => some .arg2
  | 10 => some .cmd
  | 11 => some .result
  | 12 => some .texW
  | 13 => some .texH
  | 14 => some .texAddr
  | 15 => some .texData
  | 16 => some .fbAddr
  | 17 => some .fbData
  | _ => none

/-- The slot of a register: its byte offset is four times this (R24). -/
def Reg.slot : Reg → Fin 64
  | .id => 0
  | .cap0 => 1
  | .cap1 => 2
  | .status => 3
  | .irqEn => 4
  | .fbW => 5
  | .fbH => 6
  | .arg0 => 7
  | .arg1 => 8
  | .arg2 => 9
  | .cmd => 10
  | .result => 11
  | .texW => 12
  | .texH => 13
  | .texAddr => 14
  | .texData => 15
  | .fbAddr => 16
  | .fbData => 17

/-- The constant of ID (R26). -/
def idWord : Word := 0x504C4601#32

/-- CAP0 (R27). -/
def Params.cap0 (p : Params) : Word := BitVec.ofNat 16 p.hmax ++ BitVec.ofNat 16 p.wmax

/-- CAP1 (R28). -/
def Params.cap1 (p : Params) : Word := BitVec.ofNat 32 p.texCap

/-- `MemRead(front, a, 1) if CFG = 1 and a < W*H, 0 otherwise`: what SO and FB_DATA return (R35, R41). -/
def State.frontPixel (s : State) (a : Word) : Word :=
  if s.cfg ∧ a.toNat < s.width * s.height then s.readPixel s.front a.toNat else 0

/-- A read of TEX_DATA (R39): the value returned, and the state after. -/
def readTexData (s : State) : Word × State :=
  if s.busy then (0, overrun s)
  else
    (if s.texAddr.toNat < s.params.texCap then (s.readTexel s.texAddr.toNat).setWidth 32 else 0,
      { s with texAddr := s.texAddr + 1 })

/-- A write of TEX_DATA (R39): bits 31:16 are ignored, an entry that does not exist is not written. -/
def writeTexData (v : Word) (s : State) : State :=
  if s.busy then overrun s
  else
    let s1 := if s.texAddr.toNat < s.params.texCap then s.writeTexel s.texAddr.toNat (v.setWidth 16) else s
    { s1 with texAddr := s.texAddr + 1 }

/-- A read of FB_DATA (R41). -/
def readFbData (s : State) : Word × State := (s.frontPixel s.fbAddr, { s with fbAddr := s.fbAddr + 1 })

/-- A host read of a register: the value returned, and the state after (R25 to R41). -/
def readReg (r : Reg) (s : State) : Word × State :=
  match r with
  | .id => (idWord, s)
  | .cap0 => (s.params.cap0, s)
  | .cap1 => (s.params.cap1, s)
  | .status => (s.statusWord, s)
  | .irqEn => (s.irqEnWord, s)
  | .fbW => (s.fbW, s)
  | .fbH => (s.fbH, s)
  | .arg0 => (s.arg0, s)
  | .arg1 => (s.arg1, s)
  | .arg2 => (s.arg2, s)
  | .cmd => (0, s)
  | .result => (s.result, s)
  | .texW => (s.texW, s)
  | .texH => (s.texH, s)
  | .texAddr => (s.texAddr, s)
  | .texData => readTexData s
  | .fbAddr => (s.fbAddr, s)
  | .fbData => readFbData s

/-- A host write of v to a register (R25 to R41). -/
def writeReg (r : Reg) (v : Word) (s : State) : State :=
  match r with
  | .id => s
  | .cap0 => s
  | .cap1 => s
  | .status => ackStatus v s
  | .irqEn => { s with irqEn := irqEnOf v }
  | .fbW => s
  | .fbH => s
  | .arg0 => { s with arg0 := v }
  | .arg1 => { s with arg1 := v }
  | .arg2 => { s with arg2 := v }
  | .cmd => if s.busy then overrun s else accept v s
  | .result => s
  | .texW => if s.busy then overrun s else { s with texW := v }
  | .texH => if s.busy then overrun s else { s with texH := v }
  | .texAddr => if s.busy then overrun s else { s with texAddr := v }
  | .texData => writeTexData v s
  | .fbAddr => { s with fbAddr := v }
  | .fbData => s

/-- A host read of a word slot: a reserved slot reads 0 (R25). -/
def readSlot (slot : Fin 64) (s : State) : Word × State :=
  match slotReg slot with
  | some r => readReg r s
  | none => (0, s)

/-- A host write of a word slot: one to a reserved slot is ignored (R25). -/
def writeSlot (slot : Fin 64) (v : Word) (s : State) : State :=
  match slotReg slot with
  | some r => writeReg r v s
  | none => s

end Sys2Proof.Machine
end

