-- ==== Sys2Proof/Machine/Rom.lean ====
section
/-! DEFINITION. The ROM decoder (spec/41_rom_decoder.md): the algorithm of R154, the command ROMLOAD, and the state
machine of R153, which moves one state at each of its turns while a ROMLOAD is pending. -/

namespace Sys2Proof.Machine

/-- The bytes of the magic (R150): "imag". -/
def romMagic : List Byte := [0x69#8, 0x6D#8, 0x61#8, 0x67#8]

/-- P_MAX (R8, R159). -/
def romPixelMax : Nat := 1000000

/-- ROM_LEN (R10). -/
def Rom.len (r : Rom) : Nat := r.bytes.length

/-- ROM[a]. R154 reads no address that its checks have not shown to be below ROM_LEN (R64). -/
def Rom.byte (r : Rom) (a : Nat) : Byte := r.bytes.getD a 0#8

/-- `MemRead(ROM, a, n)`: the sum of ROM[a+i]*2^(8i), the byte at the lowest address least significant (R65). -/
def Rom.read (r : Rom) (a : Nat) : Nat → Nat
  | 0 => 0
  | n + 1 => (r.byte a).toNat + 256 * Rom.read r (a + 1) n

/-- The name bytes of the record at offset o (R151). -/
def Rom.nameAt (r : Rom) (o : Nat) : Word :=
  nameWord (r.byte (o + 4)) (r.byte (o + 5)) (r.byte (o + 6)) (r.byte (o + 7))

/-- The first four bytes of the ROM (R150). -/
def Rom.head4 (r : Rom) : List Byte := [r.byte 0, r.byte 1, r.byte 2, r.byte 3]

/-- `need(a, n)` of R154 holds: nothing is read past ROM_LEN. -/
def Rom.has (r : Rom) (a n : Nat) : Bool := decide (a + n ≤ r.len)

/-- The record that a ROMLOAD found: its offset o, P, W_i and H_i (R151). -/
structure RomHit where
  o : Nat
  p : Nat
  w : Nat
  h : Nat
  deriving DecidableEq, Repr

/-- The checks on a matched record, in the order of R154: R158 (exact product), R159, R160, R155. -/
def checkRecord (r : Rom) (texCap : Nat) (c : RomHit) : Except ErrCode RomHit :=
  if c.p ≠ c.w * c.h then .error .romSizeMismatch
  else if c.p > romPixelMax then .error .romTooLarge
  else if c.p > texCap then .error .romAllocFailed
  else if r.has (c.o + 16) (2 * c.p) then .ok c
  else .error .romIoError

/-- The scan of R154: `left` records remain, the next one at offset o. A record that does not match is skipped
unread and unchecked (R157); the first match decides (R162). -/
def scanRecords (r : Rom) (texCap : Nat) (name : Word) : Nat → Nat → Except ErrCode RomHit
  | 0, _ => .error .romNotFound
  | left + 1, o =>
    if r.has o 16 then
      if r.nameAt o = name then
        checkRecord r texCap ⟨o, r.read o 4, r.read (o + 8) 4, r.read (o + 12) 4⟩
      else scanRecords r texCap name left (o + 16 + 2 * r.read o 4)
    else .error .romIoError

/-- `romload` of R154 up to its first write: the record found, or the error. -/
def romload (r : Rom) (texCap : Nat) (name : Word) : Except ErrCode RomHit :=
  if !r.present then .error .romIoError
  else if !r.has 0 4 then .error .romIoError
  else if r.head4 ≠ romMagic then .error .romBadMagic
  else if !r.has 4 1 then .error .romIoError
  else scanRecords r texCap name (r.byte 4).toNat 5

/-- `for k in [0, P): TEX[k] <- u16 at o + 16 + 2k; TEX_W <- W_i; TEX_H <- H_i; RESULT <- P` (R154, R162). -/
def loadTexture (r : Rom) (c : RomHit) (s : State) : State :=
  let s1 := forUpto (fun k t => t.writeTexel k (BitVec.ofNat 16 (r.read (c.o + 16 + 2 * k) 2))) c.p s
  { s1 with texW := ofU32 c.w, texH := ofU32 c.h, result := ofU32 c.p }

/-! ### A ROM that changed while a ROMLOAD was pending (R250; log 9) -/

/-- One of a list of ROM contents, by a free pick. -/
def pickRom (versions : List Rom) (pick : Nat) (dflt : Rom) : Rom := versions.getD (pick % versions.length) dflt

/-- A ROM whose presence, length and bytes are each those of some version, by free picks: "any mix of old and new
bytes" (R250). -/
def mixRom (pick : Nat → Nat) (versions : List Rom) (now : Rom) : Rom :=
  let len := (pickRom versions (pick 0) now).len
  { present := (pickRom versions (pick 1) now).present
    bytes := (List.range len).map fun a =>
      (pickRom (versions.filter fun r => decide (a < r.len)) (pick (a + 2)) now).byte a }

/-- The ROM a completing ROMLOAD reads: the ROM as it stands, or a mix where the host changed it meanwhile (R250). -/
def State.romForLoad (s : State) : Rom :=
  if s.romSeen = [] then s.rom else mixRom (Config.romPick s.draws) (s.romSeen ++ [s.rom]) s.rom

/-- ROMLOAD "n0n1n2n3" (R164): R154 computed as one function at the completion step, as R154 allows. -/
def execRomload (n0 n1 n2 n3 : Byte) (s : State) : Host.Outcome State Fault Refusal :=
  match romload s.romForLoad s.params.texCap (nameWord n0 n1 n2 n3) with
  | .ok c => .next (complete (loadTexture s.romForLoad c s))
  | .error e => .next (completeError e s)

/-! ### The state machine (R153; log 8) -/

/-- One state's action (the table of R153), for a decoder that looks for `name`. In OK and FAIL(e) it waits for the
completion step, which applies the outcome and returns it to IDLE. -/
def RomFsm.tick (r : Rom) (texCap : Nat) (name : Word) (f : RomFsm) : RomFsm :=
  match f.phase with
  | .idle => { f with phase := .opening }
  | .opening => if r.present then { f with phase := .magic } else { f with phase := .fail .romIoError }
  | .magic =>
    if !r.has 0 4 then { f with phase := .fail .romIoError }
    else if r.head4 ≠ romMagic then { f with phase := .fail .romBadMagic }
    else { f with phase := .count }
  | .count =>
    if !r.has 4 1 then { f with phase := .fail .romIoError }
    else
      let n := (r.byte 4).toNat
      { f with n := n, o := 5, i := 0, phase := if 0 < n then .hdr else .fail .romNotFound }
  | .hdr =>
    if r.has f.o 16 then
      { f with
        p := r.read f.o 4, name := r.nameAt f.o, w := r.read (f.o + 8) 4, h := r.read (f.o + 12) 4
        phase := .matching }
    else { f with phase := .fail .romIoError }
  | .matching => { f with phase := if f.name = name then .check else .skip }
  | .skip =>
    { f with
      o := f.o + 16 + 2 * f.p, i := f.i + 1
      phase := if f.i + 1 < f.n then .hdr else .fail .romNotFound }
  | .check =>
    match checkRecord r texCap ⟨f.o, f.p, f.w, f.h⟩ with
    | .ok _ => { f with k := 0, phase := .copy }
    | .error e => { f with phase := .fail e }
  | .copy => if f.k < f.p then { f with k := f.k + 1 } else { f with phase := .ok }
  | .ok => f
  | .fail _ => f

/-- The machine after some turns. -/
def RomFsm.ticks (r : Rom) (texCap : Nat) (name : Word) : Nat → RomFsm → RomFsm
  | 0, f => f
  | n + 1, f => RomFsm.tick r texCap name (RomFsm.ticks r texCap name n f)

end Sys2Proof.Machine
end

