-- ==== Sys2Proof/Machine/Agents.lean ====
section
/-! DEFINITION. The turns of the agents other than the engine (R7, R74): the host's register accesses and its
statements in progress (R97 to R103), its changes of the ROM (R10, R250), the display's reads (R35), the ROM decoder's
moves (R153), and reset (R240). -/

namespace Sys2Proof.Machine

/-! ### The host -/

/-- A `$` variable's value. The spec gives none to a variable that nothing has bound: DESIGN CHOICE 0 (log 11). -/
def HostAgent.getVar (h : HostAgent) (x : Nat) : Word := (cellsFind x h.vars).getD 0

/-- Binds a `$` variable (R99). -/
def HostAgent.setVar (h : HostAgent) (x : Nat) (v : Word) : HostAgent := { h with vars := cellsPut x v h.vars }

/-- A texture variable: the row-major list GETTEX has read into it (R103). -/
def HostAgent.getTex (h : HostAgent) (t : Nat) : List Word := (cellsFind t h.texVars).getD []

/-- Binds a texture variable. -/
def HostAgent.setTex (h : HostAgent) (t : Nat) (v : List Word) : HostAgent :=
  { h with texVars := cellsPut t v h.texVars }

/-- `m(c) = c` when 0 ≤ c ≤ 65535, and 0 otherwise (R102, R106). A 32-bit value above 65535, or one that reads as
negative, is such a "otherwise". -/
def texelOf (c : Word) : Word := if c.toNat ≤ 65535 then c else 0

/-- The value of an operand of WR (R97, R99). -/
def HostAgent.eval (h : HostAgent) : HostVal → Word
  | .lit v => v
  | .var x => h.getVar x
  | .result => h.result
  | .texel c => texelOf (h.eval c)

/-- One host read of a slot: the value goes to the host, and one from RESULT is `$RESULT` from then on (R97). -/
def hostRead (slot : Fin 64) (s : State) : Word × State :=
  let (v, t) := readSlot slot s
  (v, { t with
    hostData := some v
    host := if slot = Reg.result.slot then { t.host with result := v } else t.host })

/-- `$s`, the variable that WAIT and CHECK read STATUS into (R100, R101). -/
def statusVar : Nat := 0

/-- The host's next operation is done with. -/
def State.setProgram (s : State) (p : List HostOp) : State := { s with host := { s.host with program := p } }

/-- Binds a `$` variable of the host. -/
def State.bind (s : State) (x : Nat) (v : Word) : State := { s with host := s.host.setVar x v }

/-- RD reg -> $x (R99), and a read that binds no variable. -/
def hostRd (slot : Fin 64) (x : Option Nat) (s : State) : State :=
  let (v, t) := hostRead slot s
  match x with
  | some y => t.bind y v
  | none => t

/-- One access of WAIT (R100): RD STATUS -> $s, again until it reads BUSY = 0. -/
def hostWait (rest : List HostOp) (s : State) : State :=
  let t := hostRd Reg.status.slot (some statusVar) s
  if s.statusWord.getLsbD 0 then t else t.setProgram rest

/-- The read of CHECK -> $x (R101), RD STATUS -> $s, after which the host clears ERR if it was set. -/
def hostCheck (x : Nat) (rest : List HostOp) (s : State) : State :=
  let t := hostRd Reg.status.slot (some statusVar) s
  if s.statusWord.getLsbD 2 then
    (t.bind x ((s.statusWord.extractLsb' 8 8).setWidth 32)).setProgram (.wr Reg.status.slot (.lit 4#32) :: rest)
  else (t.bind x 0).setProgram rest

/-- The number of texels a GETTEX reads: $w*$h (R103). -/
def HostAgent.texels (a : HostAgent) (w h : Nat) : Nat := (a.getVar w).toNat * (a.getVar h).toNat

/-- The host refuses the statement it is at: it makes no access for it and goes no further (log 11). -/
def State.refuse (s : State) : State := { s with host := { s.host with program := [], refused := true } }

/-- One access of the loop `for i in [0, $w*$h): RD TEX_DATA -> $T[i]` (R103); none where i has reached the end. A
GETTEX longer than TEX_CAP is refused (R103). -/
def hostReadTex (cap x w h i : Nat) (rest : List HostOp) (s : State) : State :=
  let n := s.host.texels w h
  if cap < n then s.refuse
  else if i < n then
    let (v, t) := hostRead Reg.texData.slot s
    let seen := if i = 0 then [] else s.host.getTex x
    let t1 := { t with host := t.host.setTex x (seen ++ [v]) }
    t1.setProgram (if i + 1 < n then .readTex cap x w h (i + 1) :: rest else rest)
  else ({ s with host := s.host.setTex x [] }).setProgram rest

/-- The host's turn: at most one register access (R74, R99). A host with no statement left does nothing. -/
def hostTurn (s : State) : State :=
  match s.host.program with
  | [] => s
  | .wr slot v :: rest => (writeSlot slot (s.host.eval v) s).setProgram rest
  | .rd slot x :: rest => (hostRd slot x s).setProgram rest
  | .wait :: rest => hostWait rest s
  | .check x :: rest => hostCheck x rest s
  | .readTex cap x w h i :: rest => hostReadTex cap x w h i rest s

/-! ### The ROM input -/

/-- A ROMLOAD is accepted and not yet complete (R153). -/
def State.romloadPending (s : State) : Bool :=
  match s.lc with
  | some c => decide (c.op = 0x20#32)
  | none => false

/-- The host replaces the ROM (R10, R79). If it breaks its duty of R250, the contents it replaces are kept, and new
free picks are drawn (log 9). -/
def romTurn (r : Rom) (s : State) : State :=
  if s.romloadPending then { s with rom := r, romSeen := s.romSeen ++ [s.rom], draws := s.draws + 1 }
  else { s with rom := r }

/-! ### The ROM decoder -/

/-- The ROM decoder's turn: one state of R153, while a ROMLOAD is pending. -/
def decoderTurn (s : State) : State :=
  match s.lc with
  | some c => if c.op = 0x20#32 then { s with fsm := s.fsm.tick s.rom s.params.texCap c.a0 } else s
  | none => s

/-! ### The display -/

/-- The display reads SO(a) (R35). -/
def displayTurn (a : Word) (s : State) : State := { s with soData := some (s.frontPixel a) }

/-! ### Reset -/

/-- The reset step (R240): every register, flag and selector to its value of R46, any accepted command discarded, the
ROM decoder IDLE, the contents of FB0, FB1 and TEX unspecified anew. The parameters, the ROM, the host, what was read,
and the schedule are not the block's registers and stay (log 5, log 7, log 10, log 11). -/
def resetTurn (s : State) : State :=
  { State.reset with
    params := s.params
    rom := s.rom
    epoch := s.epoch + 1
    draws := s.draws
    hostData := s.hostData
    soData := s.soData
    host := s.host
    schedule := s.schedule }

end Sys2Proof.Machine
end

