-- ==== Sys2Proof/Machine/Dispatch.lean ====
section
/-! DEFINITION. One arm per command: its meaning (R93). -/

namespace Sys2Proof.Machine

def exec (i : Instr) (s : State) : Host.Outcome State Fault Refusal :=
  match i with
  | .nop => Sys2Proof.Machine.execNop s
  | .config w h => Sys2Proof.Machine.execConfig w h s
  | .pixel x y code => Sys2Proof.Machine.execPixel x y code s
  | .rect xoff yoff => Sys2Proof.Machine.execRect xoff yoff s
  | .swap => Sys2Proof.Machine.execSwap s
  | .rgb r g b => Sys2Proof.Machine.execRgb r g b s
  | .decode code => Sys2Proof.Machine.execDecode code s
  | .hsv h sat v => Sys2Proof.Machine.execHsv h sat v s
  | .grey code => Sys2Proof.Machine.execGrey code s
  | .romload n0 n1 n2 n3 => Sys2Proof.Machine.execRomload n0 n1 n2 n3 s

end Sys2Proof.Machine
end

