-- ==== Sys2Proof/Machine/Engine.lean ====
section
/-! DEFINITION. The engine's completion step (R23) and whose turn is next (R74; log 1). -/

namespace Sys2Proof.Machine

/-- The completion of an illegal command word (R94, R216). -/
def illegalCommand (s : State) : Host.Outcome State Fault Refusal := .next (completeError .illegalCommand s)

/-- The engine's turn (R23): enabled exactly when BUSY = 1, it completes the latched command; else nothing happens. -/
def engineTurn (s : State) : Host.Outcome State Fault Refusal :=
  match s.lc with
  | none => .next s
  | some c =>
    match decodeCommand c with
    | .ok i => exec i s
    | .error _ => illegalCommand s

/-- An agent takes its turn. -/
def takeTurn (t : Turn) (s : State) : Host.Outcome State Fault Refusal :=
  match t with
  | .host => .next (hostTurn s)
  | .engine => engineTurn s
  | .decoder => .next (decoderTurn s)
  | .display a => .next (displayTurn a s)
  | .rom r => .next (romTurn r s)
  | .reset => .next (resetTurn s)

/-- Whose turn is next: the schedule says. Where it says nothing more, an accepted command completes (the weak
fairness of R253), else the host goes on with its statements; a host without any waits (R241). -/
def nextTurn (s : State) : Turn × State :=
  match s.schedule with
  | t :: rest => (t, { s with schedule := rest })
  | [] => (if s.busy then .engine else .host, s)

/-- The state in which the engine's turn is next and completes the command c. -/
def placeCommand (c : Command) (s : State) : State := { s with lc := some c, schedule := .engine :: s.schedule }

end Sys2Proof.Machine
end

