-- ==== Sys2Proof/Machine/Step.lean ====
section
/-! DEFINITION. One step of the machine (R74): the agent whose turn it is takes it. -/

namespace Sys2Proof.Machine

/-- One step: the next turn is taken. -/
def step (s : State) : Host.Outcome State Fault Refusal := takeTurn (nextTurn s).1 (nextTurn s).2

/-- The state with the command whose bits are w accepted and the engine next, so that the next step runs exactly it
(log 12). -/
def State.withFetchWord (s : State) (nbits w : Nat) : State := placeCommand (Command.ofBits nbits w) s

end Sys2Proof.Machine
end

