-- ==== Sys2Proof/Machine/HostLang.lean ====
section
/-! DEFINITION. The host's command language (R97 to R104), its encoding as accesses (R107), and the driver's mapping of
the document's calls onto it (R105, R106, R242, R243). This is the host's side of the block; the operations a
statement expands into are what the host's turns then make (Machine/Agents.lean). -/

namespace Sys2Proof.Machine

/-- An operand of a statement (R97): an integer, a `$` variable, or `$RESULT`. -/
inductive Operand where
  | int (v : Int)
  | var (x : Nat)
  | result
  deriving DecidableEq, Repr

/-- The statements (R97 to R104). A variable is named by a number, `$s` by `statusVar`; GETTEX also names the variables
it reads the texture's width and height into. The w and h of SETTEX and FILL are numbers and no variables, which the
spec leaves open: DESIGN CHOICE (log 11). -/
inductive Stmt where
  | nop
  | config (w h : Operand)
  | pixel (x y code : Operand)
  | rect (xoff yoff : Operand)
  | swap
  | rgb (r g b : Operand)
  | decode (code : Operand)
  | hsv (h s v : Operand)
  | grey (code : Operand)
  | romload (n0 n1 n2 n3 : Byte)
  | wr (r : Reg) (v : HostVal)
  | rd (r : Reg) (x : Option Nat)
  | wait
  | check (x : Nat)
  | settex (w h : Nat) (codes : List Operand)
  | gettex (t w h : Nat)
  | fill (x y : Operand) (w h : Nat) (code : Operand)
  deriving DecidableEq, Repr

/-- Why the assembler refuses a statement. -/
inductive AsmError where
  /-- An integer does not fit its operand's 32-bit form (R97). -/
  | doesNotFit
  /-- SETTEX or FILL with w*h > TEX_CAP (R102). -/
  | tooManyTexels
  /-- SETTEX with a list that is not w*h codes long (R102). -/
  | wrongLength
  /-- A line of text that is no statement (R97). -/
  | notAStatement
  deriving DecidableEq, Repr

/-- A signed operand (R92, R97). -/
def Operand.signed : Operand → Except AsmError HostVal
  | .int v => if inS32 v then .ok (.lit (ofS32 v)) else .error .doesNotFit
  | .var x => .ok (.var x)
  | .result => .ok .result

/-- An unsigned operand (R92, R97). -/
def Operand.unsigned : Operand → Except AsmError HostVal
  | .int v => if 0 ≤ v ∧ inU32 v.toNat then .ok (.lit (ofU32 v.toNat)) else .error .doesNotFit
  | .var x => .ok (.var x)
  | .result => .ok .result

/-- A texture code m(c) (R102). -/
def Operand.texel : Operand → HostVal
  | .int v => .lit (if 0 ≤ v ∧ v ≤ 65535 then ofU32 v.toNat else 0)
  | .var x => .texel (.var x)
  | .result => .texel .result

/-- The expansion of a command statement (R98): the ARGn the format reads, in order, then CMD, then WAIT. -/
def commandOps (op : Word) (args : List HostVal) : List HostOp :=
  (([Reg.arg0, Reg.arg1, Reg.arg2].zip args).map fun a => HostOp.wr a.1.slot a.2) ++
    [.wr Reg.cmd.slot (.lit op), .wait]

/-- The expansion of SETTEX (R102). -/
def settexOps (texCap w h : Nat) (codes : List Operand) : Except AsmError (List HostOp) :=
  if texCap < w * h then .error .tooManyTexels
  else if codes.length ≠ w * h then .error .wrongLength
  else if inU32 w && inU32 h then
    .ok ([.wait, .wr Reg.texW.slot (.lit (ofU32 w)), .wr Reg.texH.slot (.lit (ofU32 h)),
      .wr Reg.texAddr.slot (.lit 0)] ++ codes.map fun c => .wr Reg.texData.slot c.texel)
  else .error .doesNotFit

/-- The expansion of a statement into the host's operations (R98 to R104), by an assembler that knows TEX_CAP. -/
def Stmt.expand (texCap : Nat) (st : Stmt) : Except AsmError (List HostOp) :=
  match st with
  | .nop => .ok (commandOps 0x00#32 [])
  | .config w h => do
    let w' ← w.unsigned
    let h' ← h.unsigned
    .ok (commandOps 0x01#32 [w', h'])
  | .pixel x y code => do
    let x' ← x.signed
    let y' ← y.signed
    let c' ← code.signed
    .ok (commandOps 0x02#32 [x', y', c'])
  | .rect xoff yoff => do
    let x' ← xoff.signed
    let y' ← yoff.signed
    .ok (commandOps 0x03#32 [x', y'])
  | .swap => .ok (commandOps 0x04#32 [])
  | .rgb r g b => do
    let r' ← r.signed
    let g' ← g.signed
    let b' ← b.signed
    .ok (commandOps 0x10#32 [r', g', b'])
  | .decode code => do
    let c' ← code.signed
    .ok (commandOps 0x11#32 [c'])
  | .hsv h s v => do
    let h' ← h.signed
    let s' ← s.signed
    let v' ← v.signed
    .ok (commandOps 0x12#32 [h', s', v'])
  | .grey code => do
    let c' ← code.signed
    .ok (commandOps 0x13#32 [c'])
  | .romload n0 n1 n2 n3 => .ok (commandOps 0x20#32 [.lit (nameWord n0 n1 n2 n3)])
  | .wr r v => .ok [.wr r.slot v]
  | .rd r x => .ok [.rd r.slot x]
  | .wait => .ok [.wait]
  | .check x => .ok [.check x]
  | .settex w h codes => settexOps texCap w h codes
  | .gettex t w h =>
    .ok [.wait, .rd Reg.texW.slot (some w), .rd Reg.texH.slot (some h), .wr Reg.texAddr.slot (.lit 0),
      .readTex texCap t w h 0]
  | .fill x y w h code => do
    let tex ← settexOps texCap w h (List.replicate (w * h) code)
    let x' ← x.signed
    let y' ← y.signed
    .ok (tex ++ commandOps 0x03#32 [x', y'])

/-! ### `$RESULT` (R97): "the value the host read from RESULT after the previous command completed" -/

/-- Where a program stands with that value. -/
inductive ResultView where
  /-- No command is under way, and the host has not read RESULT since. -/
  | unread
  /-- The host has read RESULT since the previous command completed. -/
  | read
  /-- A command was written to CMD, and no WAIT has seen it complete. -/
  | running
  deriving DecidableEq, Repr

/-- Where it stands after an operation. -/
def ResultView.after (v : ResultView) (op : HostOp) : ResultView :=
  match op with
  | .wr slot _ => if slot = Reg.cmd.slot then .running else v
  | .rd slot _ => if slot = Reg.result.slot ∧ v = .unread then .read else v
  | .wait => if v = .running then .unread else v
  | .check _ => v
  | .readTex _ _ _ _ _ => v

/-- The accesses that bring the value of `$RESULT` to the host. -/
def ResultView.fetch (v : ResultView) : List HostOp :=
  match v with
  | .unread => [.rd Reg.result.slot none]
  | .read => []
  | .running => [.wait, .rd Reg.result.slot none]

/-- The value is, or is made from, `$RESULT`. -/
def HostVal.usesResult : HostVal → Bool
  | .lit _ => false
  | .var _ => false
  | .result => true
  | .texel c => c.usesResult

/-- The operation writes a value that uses `$RESULT`. -/
def HostOp.usesResult : HostOp → Bool
  | .wr _ v => v.usesResult
  | .rd _ _ => false
  | .wait => false
  | .check _ => false
  | .readTex _ _ _ _ _ => false

/-- The expansion of a program's statements in order (R97), the host standing at `v`. A statement that uses `$RESULT`
has the host read RESULT right before it, unless it has read it since the previous command completed (log 11). -/
def expandFrom (texCap : Nat) : ResultView → List Stmt → Except AsmError (List HostOp)
  | _, [] => .ok []
  | v, st :: rest => do
    let own ← st.expand texCap
    let ops := (if own.any HostOp.usesResult then v.fetch else []) ++ own
    let more ← expandFrom texCap (ops.foldl ResultView.after v) rest
    .ok (ops ++ more)

/-- The expansion of a program (R97). -/
def expandProgram (texCap : Nat) (sts : List Stmt) : Except AsmError (List HostOp) := expandFrom texCap .unread sts

/-- A primitive access in the encoding of R107: `W off v` or `R off`, off the byte offset in REG. -/
inductive Access where
  | w (off : Nat) (v : Word)
  | r (off : Nat)
  deriving DecidableEq, Repr

/-- The byte offset of a slot (R24). -/
def slotOffset (slot : Fin 64) : Nat := 4 * slot.val

/-- The access the host's next turn makes (R107); none where it has nothing left to do, or a GETTEX loop that is at
its end or refused. -/
def HostAgent.nextAccess (h : HostAgent) : Option Access :=
  match h.program with
  | [] => none
  | .wr slot v :: _ => some (.w (slotOffset slot) (h.eval v))
  | .rd slot _ :: _ => some (.r (slotOffset slot))
  | .wait :: _ => some (.r (slotOffset Reg.status.slot))
  | .check _ :: _ => some (.r (slotOffset Reg.status.slot))
  | .readTex cap _ w h' i :: _ =>
    if h.texels w h' ≤ cap ∧ i < h.texels w h' then some (.r (slotOffset Reg.texData.slot)) else none

/-! ### The driver (R105, R106) -/

/-- The document's calls and frame-loop steps that a driver maps (R105). -/
inductive ApiCall where
  | startup (width height : Int)
  | rgb (r g b : Int)
  | hsv (h s v : Int)
  | greyscale (c : Int)
  | pixel (x y c : Int)
  | rect (w h : Nat) (codes : List Int) (x y : Int)
  | fromRom (name : List Byte)
  | frameSwap
  deriving DecidableEq, Repr

/-- Why the driver fails a call without issuing a command. -/
inductive DriverError where
  /-- A RECT offset outside s32 (R106). -/
  | rectOffset
  /-- A ROM image name whose length is not four bytes (R105): NotFound. -/
  | notFound
  deriving DecidableEq, Repr

/-- A value a signed register holds, or its stand-in (R106). -/
def mapSigned (standIn v : Int) : Operand := .int (if inS32 v then v else standIn)

/-- A startup size as the register holds it (R181: a negative value "passed as a 32-bit pattern"). One outside 32 bits
is passed as 0, which fails the same check: DESIGN CHOICE (log 11). -/
def mapSize (v : Int) : Operand :=
  .int (if 0 ≤ v ∧ v ≤ 4294967295 then v else if -2147483648 ≤ v ∧ v < 0 then v + 4294967296 else 0)

/-- `PIXEL x, y, code` with the stand-ins of R106. -/
def pixelStmt (x y c : Int) : Stmt := .pixel (mapSigned (-1) x) (mapSigned (-1) y) (mapSigned 0 c)

/-- The command sequence of a call (R105), with the stand-ins of R106. Variable 1 is `$e`, variable 2 the result that
is returned, variables 3 and 4 a texture's size, texture variable 0 the texture. `$RESULT` is read after CHECK: DESIGN
CHOICE (log 11). -/
def driver (c : ApiCall) : Except DriverError (List Stmt) :=
  match c with
  | .startup width height => .ok [.config (mapSize width) (mapSize height), .check 1]
  | .rgb r g b => .ok [.rgb (mapSigned (-1) r) (mapSigned (-1) g) (mapSigned (-1) b), .check 1, .rd .result (some 2)]
  | .hsv h s v => .ok [.hsv (mapSigned (-1) h) (mapSigned (-1) s) (mapSigned (-1) v), .check 1, .rd .result (some 2)]
  | .greyscale c => .ok [.grey (mapSigned 0 c), .check 1, .rd .result (some 2)]
  | .pixel x y c => .ok [pixelStmt x y c]
  | .rect w h codes x y =>
    if inS32 x && inS32 y then .ok [.settex w h (codes.map .int), .rect (.int x) (.int y)]
    else .error .rectOffset
  | .fromRom name =>
    match name with
    | [n0, n1, n2, n3] => .ok [.romload n0 n1 n2 n3, .check 1, .gettex 0 3 4]
    | _ => .error .notFound
  | .frameSwap => .ok [.swap]

/-- The boot sequence a host must run before drawing (R242, step 2). -/
def bootSequence (width height : Int) : Except DriverError (List Stmt) := driver (.startup width height)

/-- A tick (R243): the drawing statements of `update`, then exactly one SWAP. -/
def tickSequence (update : List Stmt) : List Stmt := update ++ [.swap]

/-- What a host issues for the drawing calls it computes in software, and for a shader (R108): one PIXEL a pixel, with
code 1 where the shader failed, and the stand-ins of R106. -/
def emulatedDrawing (points : List (Int × Int × Option Int)) : List Stmt :=
  points.map fun p => pixelStmt p.1 p.2.1 (p.2.2.getD 1)

/-- What a host issues for `texture.fromShader` (R108): the codes it computed, code 1 where the shader failed. -/
def emulatedTexture (w h : Nat) (codes : List (Option Int)) : Stmt := .settex w h (codes.map fun c => .int (c.getD 1))

/-- The display's turns that present a frame (R105, R243): SO at the addresses 0..W*H-1. -/
def presentTurns (s : State) : List Turn := (List.range (s.width * s.height)).map fun a => .display (BitVec.ofNat 32 a)

/-- The host is given a program to run. -/
def State.withProgram (s : State) (p : List HostOp) : State := { s with host := { s.host with program := p } }

end Sys2Proof.Machine
end

