-- ==== Sys2Proof/Machine/EndOfRun.lean ====
section
/-! DEFINITION. Where the run of a host program ends, and what is observed there (R256). -/

namespace Sys2Proof.Machine

/-- The turn reads SO. -/
def Turn.isDisplay : Turn → Bool
  | .host => false
  | .engine => false
  | .decoder => false
  | .display _ => true
  | .rom _ => false
  | .reset => false

/-- "the host has no statement left, `BUSY = 0`, and no display read is in progress" (R256). A display read is in
progress while the schedule still names one (log 14); a host that refused a statement has not come to its end. -/
def State.runEnded (s : State) : Bool :=
  s.host.program.isEmpty && !s.host.refused && !s.busy && !s.schedule.any Turn.isDisplay

/-- The end of the run from a state, "the first state in which" `runEnded` holds, if it comes within n steps. -/
def runToEnd : Nat → State → Option State
  | 0, s => if s.runEnded then some s else none
  | n + 1, s =>
    if s.runEnded then some s
    else
      match step s with
      | .next t => runToEnd n t
      | .fault _ => none
      | .refused _ => none

/-- "The observation of a run is the block's state there" (R256). -/
structure Observation where
  id : Word
  cap0 : Word
  cap1 : Word
  status : Word
  irqEn : Word
  fbW : Word
  fbH : Word
  arg0 : Word
  arg1 : Word
  arg2 : Word
  result : Word
  texW : Word
  texH : Word
  texAddr : Word
  fbAddr : Word
  frontSel : BankId
  fb0 : List Word
  fb1 : List Word
  tex : List (Nat × Texel)
  deriving DecidableEq, Repr

/-- The pixels of a bank that exist for the host: none before CONFIG (R42, R62). -/
def State.pixels (s : State) (b : BankId) : List Word := (List.range (s.width * s.height)).map (s.readPixel b)

/-- What is observed of a state (R256): the registers, STATUS among them, both banks and FRONT_SEL, and the entries of
TEX written since reset, "not ... what FB or TEX held before CONFIG or before any write since reset". -/
def State.observe (s : State) : Observation where
  id := idWord
  cap0 := s.params.cap0
  cap1 := s.params.cap1
  status := s.statusWord
  irqEn := s.irqEnWord
  fbW := s.fbW
  fbH := s.fbH
  arg0 := s.arg0
  arg1 := s.arg1
  arg2 := s.arg2
  result := s.result
  texW := s.texW
  texH := s.texH
  texAddr := s.texAddr
  fbAddr := s.fbAddr
  frontSel := s.frontSel
  fb0 := s.pixels .fb0
  fb1 := s.pixels .fb1
  tex := s.mem.tex

end Sys2Proof.Machine
end

