-- ==== Sys2Proof/Safety.lean ====
section
/-! DEFINITION. What claims say of states: the invariants of R47, the words a drawing command writes, the legal
parameters (R9), and the values of operands. -/

namespace Sys2Proof.Machine

/-- A word that the palette decoder produces for a valid code (R123): opaque. -/
def PaletteWord (v : Word) : Prop := ∃ c : Int, validCode c = true ∧ v = decodeWord c

/-- Legal parameters (R9). -/
def Params.Legal (p : Params) : Prop :=
  1 ≤ p.wmax ∧ p.wmax ≤ 65535 ∧ 1 ≤ p.hmax ∧ p.hmax ≤ 65535 ∧ 1 ≤ p.texCap ∧ p.texCap < 2 ^ 32

/-- A bank whose first n pixels have been zeroed since reset, and then written by PIXEL or RECT only below n. -/
def Bank.Drawn (n : Nat) (b : Bank) : Prop :=
  b.zeroed = n ∧ ∀ c ∈ b.cells, c.1 < n ∧ PaletteWord c.2

/-- The states of R153 in which the record numbered i is being read, so that i < N. -/
def RomPhase.inRecord : RomPhase → Bool
  | .hdr => true
  | .matching => true
  | .skip => true
  | .check => true
  | .idle => false
  | .opening => false
  | .magic => false
  | .count => false
  | .copy => false
  | .ok => false
  | .fail _ => false

/-- The registers of the ROM decoder hold what R153 gives them room for: N and i fit 8 bits, P, W_i and H_i 32 bits,
k counts up to P, and o is at most where i records of the longest kind end ("5 + 255*(16 + 2*(2^32-1)), so 41 bits"). -/
def RomFsm.Fits (f : RomFsm) : Prop :=
  f.n ≤ 255 ∧ f.i ≤ f.n ∧ (f.phase.inRecord = true → f.i < f.n) ∧ f.o ≤ 5 + f.i * (16 + 2 * 4294967295) ∧
    f.p < 2 ^ 32 ∧ f.w < 2 ^ 32 ∧ f.h < 2 ^ 32 ∧ f.k ≤ f.p ∧ (f.phase ≠ .copy → f.phase ≠ .ok → f.k = 0)

/-- The framebuffer's size is set exactly when CFG = 1 (R47 a). -/
def State.SizeInv (s : State) : Prop :=
  if s.cfg then 1 ≤ s.width ∧ s.width ≤ s.params.wmax ∧ 1 ≤ s.height ∧ s.height ≤ s.params.hmax
  else s.width = 0 ∧ s.height = 0

/-- The memories keep their canonical form, and list nothing that does not exist: no pixel at or beyond W*H, no
texture entry at or beyond TEX_CAP (R47 b, R60, R62, R186 a). -/
def State.MemInv (s : State) : Prop :=
  s.mem.wf = true ∧ s.mem.fb0.Drawn (s.width * s.height) ∧ s.mem.fb1.Drawn (s.width * s.height) ∧
    ∀ c ∈ s.mem.tex, c.1 < s.params.texCap

/-- ERRCODE holds a code exactly while ERR = 1 (R29, R30, R212). -/
def State.ErrInv (s : State) : Prop := s.err = true ↔ s.errCode ≠ .none

/-- The ROM decoder is away from IDLE, and a breach of R250 is on record, only while a ROMLOAD is pending (R153); its
registers fit their widths. -/
def State.DecoderInv (s : State) : Prop :=
  (s.romloadPending = false → s.fsm = .idle ∧ s.romSeen = []) ∧ s.fsm.Fits

/-- The invariant that every step keeps. -/
def State.Inv (s : State) : Prop := s.params.Legal ∧ s.SizeInv ∧ s.MemInv ∧ s.ErrInv ∧ s.DecoderInv

/-! ### The container format (R150, R151) -/

/-- A u16 as the ROM holds it (R65). -/
def le16 (v : Nat) : List Byte := [BitVec.ofNat 8 v, BitVec.ofNat 8 (v / 256)]

/-- A u32 as the ROM holds it (R65). -/
def le32 (v : Nat) : List Byte :=
  [BitVec.ofNat 8 v, BitVec.ofNat 8 (v / 256), BitVec.ofNat 8 (v / 65536), BitVec.ofNat 8 (v / 16777216)]

/-- An image record (R151): P, the name, W_i, H_i, and the bytes that follow its header. -/
structure RomRecord where
  p : Nat
  n0 : Byte
  n1 : Byte
  n2 : Byte
  n3 : Byte
  w : Nat
  h : Nat
  pixels : List Byte
  deriving DecidableEq, Repr

/-- The bytes of a record (R151). -/
def RomRecord.bytes (r : RomRecord) : List Byte :=
  le32 r.p ++ [r.n0, r.n1, r.n2, r.n3] ++ le32 r.w ++ le32 r.h ++ r.pixels

/-- The header's three numbers are u32 (R151). -/
def RomRecord.headerFits (r : RomRecord) : Prop := r.p < 2 ^ 32 ∧ r.w < 2 ^ 32 ∧ r.h < 2 ^ 32

/-- The record is as long as its P says (R151). -/
def RomRecord.complete (r : RomRecord) : Prop := r.headerFits ∧ r.pixels.length = 2 * r.p

/-- The record bears another record's name (R152). -/
def RomRecord.sameName (r q : RomRecord) : Prop := r.n0 = q.n0 ∧ r.n1 = q.n1 ∧ r.n2 = q.n2 ∧ r.n3 = q.n3

/-- A ROM (R150): the magic, the count, the records. -/
def romImage (count : Nat) (records : List RomRecord) : Rom :=
  ⟨[0x69#8, 0x6D#8, 0x61#8, 0x67#8] ++ [BitVec.ofNat 8 count] ++ records.flatMap RomRecord.bytes, true⟩

/-- The sextant formula of R127 over the common denominator 49: f counts sevenths, and a channel n/49 is rounded to
the nearest integer. -/
def hsvByIntegers (h s v : Nat) : Nat :=
  let f := 6 * h % 7
  let near : Nat → Nat := fun n => (2 * n + 49) / 98
  let p := near (7 * (v * (7 - s)))
  let q := near (v * (49 - s * f))
  let t := near (v * (49 - s * (7 - f)))
  let code : Nat → Nat → Nat → Nat := fun r g b => 64 * r + 8 * g + b + 1
  match 6 * h / 7 % 6 with
  | 0 => code v t p
  | 1 => code q v p
  | 2 => code p v t
  | 3 => code p q v
  | 4 => code t p v
  | _ => code v p q

/-- An integer where a signed register can hold it, else its stand-in (R106). -/
def heldOr (standIn v : Int) : Int := if -2147483648 ≤ v ∧ v ≤ 2147483647 then v else standIn

/-- The value that an operand of a FILL has which begins in an idle block (R97, R100, R104): an integer, a variable as it
stands, `$s` as FILL's WAIT reads it, or `$RESULT` as the host reads it. -/
def Operand.inFill (s : State) : Operand → Int
  | .int v => v
  | .var x => if x = statusVar then s.statusWord.toInt else (s.host.getVar x).toInt
  | .result => s.result.toInt

end Sys2Proof.Machine
end

