-- ==== Sys2Proof/Certificates/Slice0/Obligations.lean ====
section
/-! DEFINITION. The statements for the provers. Every completion of a command is written out: the command is no longer
held (BUSY <- 0), DONE is set, the ROM decoder is back in IDLE (its other registers at rest are the model's, log 8, and
so is the record `romSeen`, log 9). -/

open Sys2Proof Sys2Proof.Machine

/-! ### The commands: decoding, result, errors and frame -/

/-- R182: NOP only completes; it sets BUSY and then clears it; 0x00000100 is no NOP. -/
def Obligations.NopOnlyCompletes : Prop :=
  (∀ a0 a1 a2 : Word, decodeCommand ⟨0x00000000#32, a0, a1, a2⟩ = .ok .nop) ∧
  (∀ (a0 a1 a2 : Word) (s : State) (rest : List Turn), s.schedule = .engine :: rest →
    s.lc = some ⟨0x00000100#32, a0, a1, a2⟩ →
    step s = .next { s with
      schedule := rest
      err := true, errCode := if s.err then s.errCode else .illegalCommand
      lc := none, fsm := .idle, romSeen := [], done := true }) ∧
  (∀ s : State, s.busy = false → (writeSlot 10 0x00000000#32 s).busy = true) ∧
  ∀ s : State, exec .nop s = .next { s with lc := none, fsm := .idle, romSeen := [], done := true }

/-- R125, with the domain check of R124 and the encoding of R122: RGB. -/
def Obligations.RgbEncodesOrRaisesDomain : Prop :=
  (∀ a0 a1 a2 : Word, decodeCommand ⟨0x00000010#32, a0, a1, a2⟩ = .ok (.rgb a0.toInt a1.toInt a2.toInt)) ∧
  (∀ (r g b : Int) (s : State), 0 ≤ r → r ≤ 7 → 0 ≤ g → g ≤ 7 → 0 ≤ b → b ≤ 7 →
    exec (.rgb r g b) s = .next { s with
      result := BitVec.ofNat 32 (64 * r.toNat + 8 * g.toNat + b.toNat + 1)
      lc := none, fsm := .idle, romSeen := [], done := true }) ∧
  ∀ (r g b : Int) (s : State), (r < 0 ∨ 7 < r ∨ g < 0 ∨ 7 < g ∨ b < 0 ∨ 7 < b) →
    exec (.rgb r g b) s = .next { s with
      err := true, errCode := if s.err then s.errCode else .domain
      lc := none, fsm := .idle, romSeen := [], done := true }

/-- R126 with the decoding of R123: DECODE. -/
def Obligations.DecodeGivesPixelWord : Prop :=
  (∀ a0 a1 a2 : Word, decodeCommand ⟨0x00000011#32, a0, a1, a2⟩ = .ok (.decode a0.toInt)) ∧
  ∀ (c : Int) (s : State), ∃ v : Word,
    exec (.decode c) s = .next { s with result := v, lc := none, fsm := .idle, romSeen := [], done := true } ∧
    (1 ≤ c ∧ c ≤ 512 → v.toNat = 0xFF000000 + 65536 * (36 * ((c.toNat - 1) % 8)) +
      256 * (36 * ((c.toNat - 1) / 8 % 8)) + 36 * ((c.toNat - 1) / 64)) ∧
    (¬ (1 ≤ c ∧ c ≤ 512) → v = 0xFF000000#32)

/-- HSV: the domain error of R129, and the sextant formula. The formula is what the spec supplies "from general
knowledge, not in source" (R127), and hue 7 as sextant 0 its decision D32: log 13. -/
def Obligations.HsvFollowsSextantFormula : Prop :=
  (∀ a0 a1 a2 : Word, decodeCommand ⟨0x00000012#32, a0, a1, a2⟩ = .ok (.hsv a0.toInt a1.toInt a2.toInt)) ∧
  (∀ (h sat v : Nat) (s : State), h ≤ 7 → sat ≤ 7 → v ≤ 7 →
    exec (.hsv h sat v) s = .next { s with
      result := BitVec.ofNat 32 (hsvByIntegers h sat v)
      lc := none, fsm := .idle, romSeen := [], done := true }) ∧
  ∀ (h sat v : Int) (s : State), (h < 0 ∨ 7 < h ∨ sat < 0 ∨ 7 < sat ∨ v < 0 ∨ 7 < v) →
    exec (.hsv h sat v) s = .next { s with
      err := true, errCode := if s.err then s.errCode else .domain
      lc := none, fsm := .idle, romSeen := [], done := true }

/-- GREY by the table of R130, which the spec derives: the level is the floor of 84 times the sum of the channel
indices over 255. -/
def Obligations.GreyGivesLevelOfChannelSum : Prop :=
  (∀ a0 a1 a2 : Word, decodeCommand ⟨0x00000013#32, a0, a1, a2⟩ = .ok (.grey a0.toInt)) ∧
  (∀ (c : Int) (s : State), 1 ≤ c → c ≤ 512 →
    exec (.grey c) s = .next { s with
      result := BitVec.ofNat 32
        (73 * (84 * ((c.toNat - 1) / 64 + (c.toNat - 1) / 8 % 8 + (c.toNat - 1) % 8) / 255) + 1)
      lc := none, fsm := .idle, romSeen := [], done := true }) ∧
  ∀ (c : Int) (s : State), ¬ (1 ≤ c ∧ c ≤ 512) →
    exec (.grey c) s = .next { s with result := 1#32, lc := none, fsm := .idle, romSeen := [], done := true }

/-- The laws of the codec (R132, which the spec derives). -/
def Obligations.CodecLaws : Prop :=
  (∀ r g b : Nat, r ≤ 7 → g ≤ 7 → b ≤ 7 →
    paletteDecode (paletteEncode r g b) = (36 * r, 36 * g, 36 * b) ∧
    1 ≤ paletteEncode r g b ∧ paletteEncode r g b ≤ 512) ∧
  (∀ r g b r' g' b' : Nat, r ≤ 7 → g ≤ 7 → b ≤ 7 → r' ≤ 7 → g' ≤ 7 → b' ≤ 7 →
    paletteEncode r g b = paletteEncode r' g' b' → r = r' ∧ g = g' ∧ b = b') ∧
  (∀ c : Int, 1 ≤ c → c ≤ 512 → ∃ r g b : Nat, r ≤ 7 ∧ g ≤ 7 ∧ b ≤ 7 ∧ paletteEncode r g b = c) ∧
  (∀ c : Int, ∃ k : Nat, k ≤ 6 ∧ greyCode c = paletteEncode k k k) ∧
  (∀ c d : Int, 1 ≤ c → c ≤ 512 → 1 ≤ d → d ≤ 512 → decodeWord c = decodeWord d → c = d) ∧
  ∀ c : Int, ¬ (1 ≤ c ∧ c ≤ 512) → decodeWord c = decodeWord 1

/-- R181: CONFIG. -/
def Obligations.ConfigSetsSizeAndClearsBothBanks : Prop :=
  (∀ a0 a1 a2 : Word, decodeCommand ⟨0x00000001#32, a0, a1, a2⟩ = .ok (.config a0.toNat a1.toNat)) ∧
  (∀ (w h : Nat) (s : State), s.cfg = true →
    exec (.config w h) s = .next { s with
      err := true, errCode := if s.err then s.errCode else .alreadyConfigured
      lc := none, fsm := .idle, romSeen := [], done := true }) ∧
  (∀ (w h : Nat) (s : State), s.cfg = false → (w < 1 ∨ s.params.wmax < w ∨ h < 1 ∨ s.params.hmax < h) →
    exec (.config w h) s = .next { s with
      err := true, errCode := if s.err then s.errCode else .configInvalid
      lc := none, fsm := .idle, romSeen := [], done := true }) ∧
  ∀ (w h : Nat) (s : State), s.cfg = false → 1 ≤ w → w ≤ s.params.wmax → 1 ≤ h → h ≤ s.params.hmax →
    ∃ t, exec (.config w h) s = .next t ∧
      t = { s with
        fbW := BitVec.ofNat 32 w, fbH := BitVec.ofNat 32 h, frontSel := .fb0, cfg := true, mem := t.mem
        lc := none, fsm := .idle, romSeen := [], done := true } ∧
      t.mem.tex = s.mem.tex ∧
      ∀ (b : BankId) (a : Nat), t.readPixel b a = if a < w * h then 0x00000000#32 else s.readPixel b a

/-- R183, with the plot of R180: PIXEL. -/
def Obligations.PixelPlotsOnePixelOfTheBackBank : Prop :=
  (∀ a0 a1 a2 : Word, decodeCommand ⟨0x00000002#32, a0, a1, a2⟩ = .ok (.pixel a0.toInt a1.toInt a2.toInt)) ∧
  (∀ (x y c : Int) (s : State), s.cfg = false →
    exec (.pixel x y c) s = .next { s with
      err := true, errCode := if s.err then s.errCode else .notConfigured
      lc := none, fsm := .idle, romSeen := [], done := true }) ∧
  ∀ (x y c : Int) (s : State), s.cfg = true →
    ∃ t, exec (.pixel x y c) s = .next t ∧
      t = { s with mem := t.mem, lc := none, fsm := .idle, romSeen := [], done := true } ∧
      t.mem.tex = s.mem.tex ∧
      (∀ a : Nat, t.readPixel s.frontSel a = s.readPixel s.frontSel a) ∧
      ∀ a : Nat, t.readPixel s.frontSel.other a =
        if (0 ≤ x ∧ x < (s.fbW.toNat : Int)) ∧ (0 ≤ y ∧ y < (s.fbH.toNat : Int)) ∧ (1 ≤ c ∧ c ≤ 512) ∧
            a = y.toNat * s.fbW.toNat + x.toNat
        then decodeWord c else s.readPixel s.frontSel.other a

/-- R184: RECT. A texture entry not written since reset is read as the free value it holds. -/
def Obligations.RectDrawsTheTextureClippedAndSkipped : Prop :=
  (∀ a0 a1 a2 : Word, decodeCommand ⟨0x00000003#32, a0, a1, a2⟩ = .ok (.rect a0.toInt a1.toInt)) ∧
  (∀ (xoff yoff : Int) (s : State), s.cfg = false →
    exec (.rect xoff yoff) s = .next { s with
      err := true, errCode := if s.err then s.errCode else .notConfigured
      lc := none, fsm := .idle, romSeen := [], done := true }) ∧
  (∀ (xoff yoff : Int) (s : State), s.cfg = true → s.params.texCap < s.texW.toNat * s.texH.toNat →
    exec (.rect xoff yoff) s = .next { s with
      err := true, errCode := if s.err then s.errCode else .texRange
      lc := none, fsm := .idle, romSeen := [], done := true }) ∧
  ∀ (xoff yoff : Int) (s : State), s.cfg = true → s.texW.toNat * s.texH.toNat ≤ s.params.texCap →
    ∃ t, exec (.rect xoff yoff) s = .next t ∧
      t = { s with mem := t.mem, lc := none, fsm := .idle, romSeen := [], done := true } ∧
      t.mem.tex = s.mem.tex ∧
      (∀ a : Nat, t.readPixel s.frontSel a = s.readPixel s.frontSel a) ∧
      (∀ a : Nat, s.fbW.toNat * s.fbH.toNat ≤ a →
        t.readPixel s.frontSel.other a = s.readPixel s.frontSel.other a) ∧
      ∀ px py : Nat, px < s.fbW.toNat → py < s.fbH.toNat →
        t.readPixel s.frontSel.other (py * s.fbW.toNat + px) =
          if xoff ≤ (px : Int) ∧ (px : Int) < xoff + (s.texW.toNat : Int) ∧
              yoff ≤ (py : Int) ∧ (py : Int) < yoff + (s.texH.toNat : Int) ∧
              1 ≤ (s.readTexel (((py : Int) - yoff).toNat * s.texW.toNat + ((px : Int) - xoff).toNat)).toNat ∧
              (s.readTexel (((py : Int) - yoff).toNat * s.texW.toNat + ((px : Int) - xoff).toNat)).toNat ≤ 512
          then decodeWord
            ((s.readTexel (((py : Int) - yoff).toNat * s.texW.toNat + ((px : Int) - xoff).toNat)).toNat : Int)
          else s.readPixel s.frontSel.other (py * s.fbW.toNat + px)

/-- R185: SWAP. -/
def Obligations.SwapExchangesBanksAndClearsTheNewBack : Prop :=
  (∀ a0 a1 a2 : Word, decodeCommand ⟨0x00000004#32, a0, a1, a2⟩ = .ok .swap) ∧
  (∀ s : State, s.cfg = false →
    exec .swap s = .next { s with
      err := true, errCode := if s.err then s.errCode else .notConfigured
      lc := none, fsm := .idle, romSeen := [], done := true }) ∧
  ∀ s : State, s.cfg = true →
    ∃ t, exec .swap s = .next t ∧
      t = { s with
        frontSel := s.frontSel.other, mem := t.mem
        lc := none, fsm := .idle, romSeen := [], done := true } ∧
      t.mem.tex = s.mem.tex ∧
      (∀ a : Nat, t.readPixel s.frontSel.other a = s.readPixel s.frontSel.other a) ∧
      ∀ a : Nat, t.readPixel s.frontSel a =
        if a < s.fbW.toNat * s.fbH.toNat then 0x00000000#32 else s.readPixel s.frontSel a

/-- ROMLOAD where the algorithm of R154 finds a record, over a ROM the host has left alone: the texture memory, the
texture's size and RESULT (R162), and nothing else. -/
def Obligations.RomloadWritesTheTextureItFound : Prop :=
  (∀ a0 a1 a2 : Word, decodeCommand ⟨0x00000020#32, a0, a1, a2⟩ =
    .ok (.romload (a0.extractLsb' 0 8) (a0.extractLsb' 8 8) (a0.extractLsb' 16 8) (a0.extractLsb' 24 8))) ∧
  ∀ (n0 n1 n2 n3 : Byte) (c : RomHit) (s : State), s.romSeen = [] →
    romload s.rom s.params.texCap (n3 ++ n2 ++ n1 ++ n0) = .ok c →
    ∃ t, exec (.romload n0 n1 n2 n3) s = .next t ∧
      t = { s with
        texW := BitVec.ofNat 32 c.w, texH := BitVec.ofNat 32 c.h, result := BitVec.ofNat 32 c.p
        mem := { s.mem with tex := t.mem.tex }
        lc := none, fsm := .idle, romSeen := [], done := true } ∧
      ∀ k : Nat, t.readTexel k =
        if k < c.p then
          BitVec.ofNat 16 ((s.rom.byte (c.o + 16 + 2 * k)).toNat + 256 * (s.rom.byte (c.o + 17 + 2 * k)).toNat)
        else s.readTexel k

/-! ### The ROM decoder -/

/-- R156, and the other outcomes of ROMLOAD that the ROM's first five bytes and the first header decide (R155, R161). -/
def Obligations.RomHeaderOutcomes : Prop :=
  ∀ (n0 n1 n2 n3 : Byte) (s : State), s.romSeen = [] →
    (s.rom.present = false →
      exec (.romload n0 n1 n2 n3) s = .next { s with
        err := true, errCode := if s.err then s.errCode else .romIoError
        lc := none, fsm := .idle, romSeen := [], done := true }) ∧
    (s.rom.present = true → s.rom.bytes.length < 4 →
      exec (.romload n0 n1 n2 n3) s = .next { s with
        err := true, errCode := if s.err then s.errCode else .romIoError
        lc := none, fsm := .idle, romSeen := [], done := true }) ∧
    (s.rom.present = true → 4 ≤ s.rom.bytes.length → s.rom.bytes.take 4 ≠ [0x69#8, 0x6D#8, 0x61#8, 0x67#8] →
      exec (.romload n0 n1 n2 n3) s = .next { s with
        err := true, errCode := if s.err then s.errCode else .romBadMagic
        lc := none, fsm := .idle, romSeen := [], done := true }) ∧
    (s.rom.present = true → s.rom.bytes = [0x69#8, 0x6D#8, 0x61#8, 0x67#8] →
      exec (.romload n0 n1 n2 n3) s = .next { s with
        err := true, errCode := if s.err then s.errCode else .romIoError
        lc := none, fsm := .idle, romSeen := [], done := true }) ∧
    (∀ rest : List Byte, s.rom.present = true → s.rom.bytes = [0x69#8, 0x6D#8, 0x61#8, 0x67#8, 0x00#8] ++ rest →
      exec (.romload n0 n1 n2 n3) s = .next { s with
        err := true, errCode := if s.err then s.errCode else .romNotFound
        lc := none, fsm := .idle, romSeen := [], done := true }) ∧
    ∀ (n : Byte) (rest : List Byte), s.rom.present = true → n ≠ 0#8 → rest.length < 16 →
      s.rom.bytes = [0x69#8, 0x6D#8, 0x61#8, 0x67#8, n] ++ rest →
      exec (.romload n0 n1 n2 n3) s = .next { s with
        err := true, errCode := if s.err then s.errCode else .romIoError
        lc := none, fsm := .idle, romSeen := [], done := true }

/-- R158, R159, R160, in the order of R154: the checks on the first record that bears the name, wherever it stands
among records of other names, and the pixel check of R155 after them. -/
def Obligations.MatchedRecordIsCheckedInOrder : Prop :=
  ∀ (before : List RomRecord) (hit : RomRecord) (count : Nat) (s : State),
    (∀ r ∈ before, r.complete ∧ ¬ r.sameName hit) → hit.headerFits → before.length < count → count ≤ 255 →
    s.rom = romImage count (before ++ [hit]) → s.romSeen = [] →
    (hit.p ≠ hit.w * hit.h →
      exec (.romload hit.n0 hit.n1 hit.n2 hit.n3) s = .next { s with
        err := true, errCode := if s.err then s.errCode else .romSizeMismatch
        lc := none, fsm := .idle, romSeen := [], done := true }) ∧
    (hit.p = hit.w * hit.h → 1000000 < hit.p →
      exec (.romload hit.n0 hit.n1 hit.n2 hit.n3) s = .next { s with
        err := true, errCode := if s.err then s.errCode else .romTooLarge
        lc := none, fsm := .idle, romSeen := [], done := true }) ∧
    (hit.p = hit.w * hit.h → hit.p ≤ 1000000 → s.params.texCap < hit.p →
      exec (.romload hit.n0 hit.n1 hit.n2 hit.n3) s = .next { s with
        err := true, errCode := if s.err then s.errCode else .romAllocFailed
        lc := none, fsm := .idle, romSeen := [], done := true }) ∧
    (hit.p = hit.w * hit.h → hit.p ≤ 1000000 → hit.p ≤ s.params.texCap → hit.pixels.length < 2 * hit.p →
      exec (.romload hit.n0 hit.n1 hit.n2 hit.n3) s = .next { s with
        err := true, errCode := if s.err then s.errCode else .romIoError
        lc := none, fsm := .idle, romSeen := [], done := true })

/-- R157: a record of another name is skipped unread and unchecked; if it was the last, the name is not found, and if
another was to come, the read of that one's header fails where the ROM has ended. -/
def Obligations.OtherRecordsAreSkippedUnread : Prop :=
  ∀ (n0 n1 n2 n3 : Byte) (before : List RomRecord) (last : RomRecord) (count : Nat) (s : State),
    (∀ r ∈ before, r.complete) → last.headerFits →
    (∀ r ∈ before ++ [last], ¬ (r.n0 = n0 ∧ r.n1 = n1 ∧ r.n2 = n2 ∧ r.n3 = n3)) → count ≤ 255 →
    s.rom = romImage count (before ++ [last]) → s.romSeen = [] →
    (count = before.length + 1 →
      exec (.romload n0 n1 n2 n3) s = .next { s with
        err := true, errCode := if s.err then s.errCode else .romNotFound
        lc := none, fsm := .idle, romSeen := [], done := true }) ∧
    (before.length + 1 < count → last.pixels.length < 2 * last.p + 16 →
      exec (.romload n0 n1 n2 n3) s = .next { s with
        err := true, errCode := if s.err then s.errCode else .romIoError
        lc := none, fsm := .idle, romSeen := [], done := true })

/-- The ROM round trip (R165 a, which the spec derives): an image written in the container's layout under a name that
no earlier record uses is loaded as it was written. -/
def Obligations.RomRoundTrip : Prop :=
  ∀ (before : List RomRecord) (hit : RomRecord) (codes : List Texel) (tail : List Byte) (count : Nat) (s : State),
    (∀ r ∈ before, r.complete ∧ ¬ r.sameName hit) → before.length < count → count ≤ 255 →
    hit.w < 2 ^ 32 → hit.h < 2 ^ 32 → hit.p = hit.w * hit.h → codes.length = hit.p →
    hit.pixels = codes.flatMap (fun v => le16 v.toNat) ++ tail →
    hit.p ≤ 1000000 → hit.p ≤ s.params.texCap →
    s.rom = romImage count (before ++ [hit]) → s.romSeen = [] →
    ∃ t, exec (.romload hit.n0 hit.n1 hit.n2 hit.n3) s = .next t ∧
      t = { s with
        texW := BitVec.ofNat 32 hit.w, texH := BitVec.ofNat 32 hit.h, result := BitVec.ofNat 32 hit.p
        mem := { s.mem with tex := t.mem.tex }
        lc := none, fsm := .idle, romSeen := [], done := true } ∧
      (∀ (k : Nat) (hk : k < codes.length), t.readTexel k = codes[k]) ∧
      ∀ k : Nat, codes.length ≤ k → t.readTexel k = s.readTexel k

/-- The state machine of R153 answers what the algorithm of R154 answers, from IDLE on, over any ROM, and it does come
to an answer. -/
def Obligations.RomDecoderRefinesTheAlgorithm : Prop :=
  ∀ (r : Rom) (texCap : Nat) (name : Word),
    (∀ n : Nat, (RomFsm.ticks r texCap name n .idle).phase = .ok →
      romload r texCap name = .ok ⟨(RomFsm.ticks r texCap name n .idle).o, (RomFsm.ticks r texCap name n .idle).p,
        (RomFsm.ticks r texCap name n .idle).w, (RomFsm.ticks r texCap name n .idle).h⟩) ∧
    (∀ (n : Nat) (e : ErrCode), (RomFsm.ticks r texCap name n .idle).phase = .fail e →
      romload r texCap name = .error e) ∧
    ∃ n : Nat, (RomFsm.ticks r texCap name n .idle).phase = .ok ∨
      ∃ e : ErrCode, (RomFsm.ticks r texCap name n .idle).phase = .fail e

/-- The decoder's turn moves the state machine of R153 by one state while a ROMLOAD is pending, and changes nothing
else; and in every state that meets the invariant, the offset register's 41 bits hold the offset (R153). -/
def Obligations.DecoderTurnMovesOneState : Prop :=
  (∀ (s : State) (c : Command) (rest : List Turn), s.schedule = .decoder :: rest → s.lc = some c →
    c.op = 0x00000020#32 →
    step s = .next { s with schedule := rest, fsm := s.fsm.tick s.rom s.params.texCap c.a0 }) ∧
  (∀ (s : State) (rest : List Turn), s.schedule = .decoder :: rest →
    (∀ c : Command, s.lc = some c → c.op ≠ 0x00000020#32) → step s = .next { s with schedule := rest }) ∧
  ∀ s : State, s.Inv → s.fsm.o < 2 ^ 41

/-- The registers of the ROM decoder are invisible (R153): no command's completion and no register access depends on
them. -/
def Obligations.RomDecoderIsInvisible : Prop :=
  (∀ (i : Instr) (s : State) (f : RomFsm), exec i { s with fsm := f } = exec i s) ∧
  (∀ (slot : Fin 64) (s : State) (f : RomFsm),
    readSlot slot { s with fsm := f } = ((readSlot slot s).1, { (readSlot slot s).2 with fsm := f })) ∧
  ∀ (slot : Fin 64) (v : Word) (s : State) (f : RomFsm),
    writeSlot slot v { s with fsm := f } = { writeSlot slot v s with fsm := f }

/-- A ROM the host changes while no ROMLOAD is pending is simply replaced (R79). One it changes under a pending ROMLOAD
is kept on record, and the completing ROMLOAD reads a ROM whose presence, length and bytes are each those of some
contents since the accept: "any mix of old and new bytes" (R250; log 9). ROMLOAD does over the changed ROM what it does
over that one unchanged. -/
def Obligations.ChangedRomIsReadAsAMix : Prop :=
  (∀ (s : State) (r : Rom) (rest : List Turn), s.schedule = .rom r :: rest →
    (∀ c : Command, s.lc = some c → c.op ≠ 0x00000020#32) → step s = .next { s with schedule := rest, rom := r }) ∧
  (∀ (s : State) (r : Rom) (rest : List Turn) (c : Command), s.schedule = .rom r :: rest →
    s.lc = some c → c.op = 0x00000020#32 →
    ∃ t, step s = .next t ∧ t.rom = r ∧ t.romSeen = s.romSeen ++ [s.rom] ∧
      t = { s with schedule := rest, rom := r, romSeen := t.romSeen, draws := t.draws }) ∧
  (∀ (n0 n1 n2 n3 : Byte) (s : State),
    ∃ t, exec (.romload n0 n1 n2 n3) s = .next t ∧
      exec (.romload n0 n1 n2 n3) { s with rom := s.romForLoad, romSeen := [] } =
        .next { t with rom := s.romForLoad } ∧
      t.rom = s.rom ∧ t.romSeen = []) ∧
  ∀ s : State,
    (∃ v ∈ s.romSeen ++ [s.rom], s.romForLoad.bytes.length = v.bytes.length) ∧
    (∃ v ∈ s.romSeen ++ [s.rom], s.romForLoad.present = v.present) ∧
    ∀ a : Nat, a < s.romForLoad.bytes.length →
      ∃ v ∈ s.romSeen ++ [s.rom], a < v.bytes.length ∧ s.romForLoad.bytes[a]? = v.bytes[a]?

/-! ### Completion, errors, illegal words -/

/-- Every command completes, with success or with exactly one error, and an error is all-or-nothing (R210, R212, R213,
R219). Where ERR = 1 already, the command does what it does where ERR = 0, but for ERR and ERRCODE, which stay. -/
def Obligations.EveryCommandCompletesAndErrorsAreAllOrNothing : Prop :=
  (∀ (i : Instr) (s : State), ∃ t, exec i s = .next t ∧ t.lc = none ∧ t.done = true ∧
    ((t.err = s.err ∧ t.errCode = s.errCode) ∨
      ∃ e : ErrCode, e ≠ .none ∧ t = { s with
        err := true, errCode := if s.err then s.errCode else e
        lc := none, fsm := .idle, romSeen := [], done := true })) ∧
  ∀ (i : Instr) (s : State), s.err = true →
    ∃ u, exec i { s with err := false, errCode := .none } = .next u ∧
      exec i s = .next { u with err := true, errCode := s.errCode }

/-- R216 and R94: an illegal command word is accepted, and completes with ILLEGAL_COMMAND and nothing else. -/
def Obligations.IllegalWordsCompleteWithIllegalCommand : Prop :=
  (∀ (v : Word) (s : State), s.lc = none →
    writeSlot 10 v s = { s with lc := some ⟨v, s.arg0, s.arg1, s.arg2⟩ }) ∧
  ∀ (s : State) (c : Command) (rest : List Turn), s.schedule = .engine :: rest → s.lc = some c →
    (c.op.toNat / 256 ≠ 0 ∨ c.op.toNat % 256 ∉ [0x00, 0x01, 0x02, 0x03, 0x04, 0x10, 0x11, 0x12, 0x13, 0x20]) →
    step s = .next { s with
      schedule := rest
      err := true, errCode := if s.err then s.errCode else .illegalCommand
      lc := none, fsm := .idle, romSeen := [], done := true }

/-- No step stops, in any state (R210: "an error never stops the block"). -/
def Obligations.NoStepStops : Prop := ∀ s : State, ∃ t, step s = .next t

/-- Every accepted command is completed (or discarded by reset) after finitely many steps, whatever the schedule: the
weak fairness of R253, by the model's default turn (log 1). -/
def Obligations.AcceptedCommandIsCompleted : Prop :=
  ∀ s : State, s.busy = true →
    ∃ (n : Nat) (t : State), n ≤ s.schedule.length + 1 ∧ core.run n s = .next t ∧ State.busy t = false

/-! ### Encoding -/

/-- Decoding the encoding of a command gives it back, every operand at every value its form holds. -/
def Obligations.DecodeInvertsEncode : Prop :=
  ∀ i : Instr, i.wellFormed = true → decodeCommand (encode i) = .ok i

/-- A command word that decodes is the encoding of what it decodes to, but for the operands its format ignores: those
may hold any value (R95). -/
def Obligations.EncodeInvertsDecodeButForIgnoredOperands : Prop :=
  (∀ (c : Command) (i : Instr), decodeCommand c = .ok i →
    i.wellFormed = true ∧ (encode i).op = c.op ∧
    ((encode i).a0 = c.a0 ∨ c.op = 0x00000000#32 ∨ c.op = 0x00000004#32) ∧
    ((encode i).a1 = c.a1 ∨ c.op ∈ [0x00000000#32, 0x00000004#32, 0x00000011#32, 0x00000013#32, 0x00000020#32]) ∧
    ((encode i).a2 = c.a2 ∨ c.op ∈ [0x00000000#32, 0x00000001#32, 0x00000003#32, 0x00000004#32, 0x00000011#32,
      0x00000013#32, 0x00000020#32])) ∧
  ∀ op a0 a1 a2 b0 b1 b2 : Word,
    (op ∈ [0x00000000#32, 0x00000004#32] → decodeCommand ⟨op, a0, a1, a2⟩ = decodeCommand ⟨op, b0, b1, b2⟩) ∧
    (op ∈ [0x00000011#32, 0x00000013#32, 0x00000020#32] →
      decodeCommand ⟨op, a0, a1, a2⟩ = decodeCommand ⟨op, a0, b1, b2⟩) ∧
    (op ∈ [0x00000001#32, 0x00000003#32] → decodeCommand ⟨op, a0, a1, a2⟩ = decodeCommand ⟨op, a0, a1, b2⟩)

/-- Some words of each family, written out from R90 to R93, decode to the command they stand for. -/
def Obligations.SpecimenWordsDecode : Prop :=
  decodeCommand ⟨0x00000001#32, 0x00000004#32, 0x00000002#32, 0x00000000#32⟩ = .ok (.config 4 2) ∧
  decodeCommand ⟨0x00000002#32, 0xFFFFFFFF#32, 0x80000000#32, 0x000001C1#32⟩ =
    .ok (.pixel (-1) (-2147483648) 449) ∧
  decodeCommand ⟨0x00000003#32, 0x7FFFFFFF#32, 0xFFFFFFFE#32, 0x12345678#32⟩ = .ok (.rect 2147483647 (-2)) ∧
  decodeCommand ⟨0x00000010#32, 0x00000007#32, 0x00000000#32, 0x00000107#32⟩ = .ok (.rgb 7 0 263) ∧
  decodeCommand ⟨0x00000013#32, 0x00000200#32, 0x00000001#32, 0x00000002#32⟩ = .ok (.grey 512) ∧
  decodeCommand ⟨0x00000020#32, 0x74736574#32, 0x00000000#32, 0x00000000#32⟩ =
    .ok (.romload 0x74#8 0x65#8 0x73#8 0x74#8) ∧
  decodeCommand ⟨0x80000010#32, 0x00000000#32, 0x00000000#32, 0x00000000#32⟩ = .error .reservedBits ∧
  decodeCommand ⟨0x00000005#32, 0x00000000#32, 0x00000000#32, 0x00000000#32⟩ = .error .reservedOpcode

/-- A step of the engine runs the command that the latched tuple decodes to, whether the schedule names the engine or
names no one (R23; log 1). -/
def Obligations.StepRunsTheLatchedCommand : Prop :=
  (∀ (s : State) (c : Command) (i : Instr) (rest : List Turn), s.schedule = .engine :: rest → s.lc = some c →
    decodeCommand c = .ok i → step s = exec i { s with schedule := rest }) ∧
  ∀ (s : State) (c : Command) (i : Instr), s.schedule = [] → s.lc = some c → decodeCommand c = .ok i →
    step s = exec i s

/-- A command placed for the next step is the one the next step runs. -/
def Obligations.PlacedWordRunsNext : Prop :=
  ∀ (s : State) (nbits w : Nat) (i : Instr), decodeTableWord nbits w = some i →
    step (s.withFetchWord nbits w) = exec i { s with lc := some (Command.ofBits nbits w) }

/-! ### The register port -/

/-- R26, R27, R28: the identification registers, and that they are constant. -/
def Obligations.IdentificationRegistersAreConstant : Prop :=
  (∀ s : State, readSlot 0 s = (0x504C4601#32, s)) ∧
  (∀ s : State, (readSlot 1 s).2 = s ∧ ((readSlot 1 s).1.extractLsb' 0 16).toNat = s.params.wmax % 65536 ∧
    ((readSlot 1 s).1.extractLsb' 16 16).toNat = s.params.hmax % 65536) ∧
  (∀ s : State, readSlot 2 s = (BitVec.ofNat 32 s.params.texCap, s)) ∧
  (∀ (slot : Fin 64) (v : Word) (s : State), slot.val ≤ 2 → writeSlot slot v s = s) ∧
  ∀ s t : State, step s = .next t → t.params = s.params

/-- R25: reserved slots, read-only registers, RAZ bits, and that no access raises an error code. -/
def Obligations.PortIgnoresWhatItMustIgnore : Prop :=
  (∀ (slot : Fin 64) (v : Word) (s : State), 0x48 ≤ 4 * slot.val →
    readSlot slot s = (0x00000000#32, s) ∧ writeSlot slot v s = s) ∧
  (∀ (slot : Fin 64) (v : Word) (s : State), 4 * slot.val ∈ [0x00, 0x04, 0x08, 0x14, 0x18, 0x2C, 0x44] →
    writeSlot slot v s = s) ∧
  (∀ (v : Word) (s : State), (readSlot 4 (writeSlot 4 v s)).1 = v &&& 0x00000007#32) ∧
  (∀ (s : State) (k : Nat), k = 6 ∨ k = 7 ∨ 16 ≤ k → (readSlot 3 s).1.getLsbD k = false) ∧
  (∀ (v : Word) (s : State) (k : Nat), k = 0 ∨ 4 ≤ k → (readSlot 3 (writeSlot 3 v s)).1.getLsbD k =
    if 8 ≤ k ∧ v.getLsbD 2 = true then false else (readSlot 3 s).1.getLsbD k) ∧
  ∀ (slot : Fin 64) (v : Word) (s : State),
    ((readSlot slot s).2.err = s.err ∧ (readSlot slot s).2.errCode = s.errCode) ∧
    ((writeSlot slot v s).err = true → s.err = true) ∧
    ((writeSlot slot v s).errCode = s.errCode ∨ (writeSlot slot v s).errCode = .none)

/-- STATUS as R29 lays it out, with the codes of R211. -/
def Obligations.StatusWordShowsTheFlags : Prop :=
  ∀ s : State, (readSlot 3 s).2 = s ∧
    (readSlot 3 s).1.getLsbD 0 = s.lc.isSome ∧ (readSlot 3 s).1.getLsbD 1 = s.done ∧
    (readSlot 3 s).1.getLsbD 2 = s.err ∧ (readSlot 3 s).1.getLsbD 3 = s.ovr ∧
    (readSlot 3 s).1.getLsbD 4 = decide (s.frontSel = .fb1) ∧ (readSlot 3 s).1.getLsbD 5 = s.cfg ∧
    ((readSlot 3 s).1.extractLsb' 8 8).toNat =
      (match s.errCode with
        | .none => 0x00
        | .domain => 0x01
        | .notConfigured => 0x02
        | .configInvalid => 0x03
        | .alreadyConfigured => 0x04
        | .illegalCommand => 0x05
        | .texRange => 0x06
        | .romBadMagic => 0x10
        | .romSizeMismatch => 0x11
        | .romTooLarge => 0x12
        | .romAllocFailed => 0x13
        | .romNotFound => 0x14
        | .romIoError => 0x15)

/-- R30: a write of STATUS clears what it writes 1 to, and nothing else. -/
def Obligations.StatusWriteOnesClear : Prop :=
  ∀ (v : Word) (s : State), writeSlot 3 v s = { s with
    done := if v.getLsbD 1 then false else s.done
    err := if v.getLsbD 2 then false else s.err
    errCode := if v.getLsbD 2 then .none else s.errCode
    ovr := if v.getLsbD 3 then false else s.ovr }

/-- The IRQ level of R217, in terms of the two registers as they read. -/
def Obligations.IrqLevelFollowsFlagsAndEnables : Prop :=
  (∀ s : State, s.irq =
    (((readSlot 3 s).1.getLsbD 1 && (readSlot 4 s).1.getLsbD 0) ||
      ((readSlot 3 s).1.getLsbD 2 && (readSlot 4 s).1.getLsbD 1) ||
      ((readSlot 3 s).1.getLsbD 3 && (readSlot 4 s).1.getLsbD 2))) ∧
  (∀ s : State, (writeSlot 4 0x00000000#32 s).irq = false ∧ (writeSlot 3 0x0000000E#32 s).irq = false) ∧
  State.reset.irq = false

/-- R33: the operand registers. The host writes and reads them at any time, they are 0 from reset and hold what the host
wrote last, no command writes them, the accept step copies them, and no command's completion depends on them. -/
def Obligations.OperandRegistersHoldTheLastWrite : Prop :=
  (∀ (v : Word) (s : State), writeSlot 7 v s = { s with arg0 := v } ∧ writeSlot 8 v s = { s with arg1 := v } ∧
    writeSlot 9 v s = { s with arg2 := v }) ∧
  (∀ s : State, readSlot 7 s = (s.arg0, s) ∧ readSlot 8 s = (s.arg1, s) ∧ readSlot 9 s = (s.arg2, s)) ∧
  (State.reset.arg0 = 0x00000000#32 ∧ State.reset.arg1 = 0x00000000#32 ∧ State.reset.arg2 = 0x00000000#32) ∧
  (∀ s t : State, step s = .next t → (nextTurn s).1 ≠ .reset →
    (t.arg0 ≠ s.arg0 → (nextTurn s).1 = .host ∧ s.host.nextAccess = some (.w 0x1C t.arg0)) ∧
    (t.arg1 ≠ s.arg1 → (nextTurn s).1 = .host ∧ s.host.nextAccess = some (.w 0x20 t.arg1)) ∧
    (t.arg2 ≠ s.arg2 → (nextTurn s).1 = .host ∧ s.host.nextAccess = some (.w 0x24 t.arg2))) ∧
  (∀ (v : Word) (s : State), s.lc = none → (writeSlot 10 v s).lc = some ⟨v, s.arg0, s.arg1, s.arg2⟩) ∧
  ∀ (i : Instr) (s t : State) (a b c : Word), exec i s = .next t →
    t.arg0 = s.arg0 ∧ t.arg1 = s.arg1 ∧ t.arg2 = s.arg2 ∧
    exec i { s with arg0 := a, arg1 := b, arg2 := c } = .next { t with arg0 := a, arg1 := b, arg2 := c }

/-- R34: CMD. -/
def Obligations.CommandWriteIsAcceptedOrDropped : Prop :=
  (∀ (v : Word) (s : State), s.busy = false →
    writeSlot 10 v s = { s with lc := some ⟨v, s.arg0, s.arg1, s.arg2⟩ }) ∧
  (∀ (v : Word) (s : State), s.busy = true → writeSlot 10 v s = { s with ovr := true }) ∧
  ∀ s : State, readSlot 10 s = (0x00000000#32, s)

/-- R215: what happens to the accesses made while BUSY = 1; every other access does what it does at BUSY = 0. -/
def Obligations.BusyAccessesOverrun : Prop :=
  ∀ s : State, s.busy = true →
    (∀ (slot : Fin 64) (v : Word), 4 * slot.val ∈ [0x28, 0x30, 0x34, 0x38, 0x3C] →
      writeSlot slot v s = { s with ovr := true }) ∧
    readSlot 15 s = (0x00000000#32, { s with ovr := true }) ∧
    (∀ (slot : Fin 64) (v : Word), 4 * slot.val ∉ [0x28, 0x30, 0x34, 0x38, 0x3C] →
      writeSlot slot v s = { writeSlot slot v { s with lc := none } with lc := s.lc }) ∧
    (∀ slot : Fin 64, 4 * slot.val ∉ [0x0C, 0x3C] →
      readSlot slot s =
        ((readSlot slot { s with lc := none }).1, { (readSlot slot { s with lc := none }).2 with lc := s.lc })) ∧
    ∃ v : Word, readSlot 3 s = (v, s) ∧ v.getLsbD 0 = true ∧
      ∀ k : Nat, k ≠ 0 → v.getLsbD k = (readSlot 3 { s with lc := none }).1.getLsbD k

/-- R39: the window onto the texture memory. -/
def Obligations.TexDataWindow : Prop :=
  (∀ (v : Word) (s : State), s.busy = false →
    ∃ t, writeSlot 15 v s = t ∧
      t = { s with texAddr := BitVec.ofNat 32 (s.texAddr.toNat + 1), mem := { s.mem with tex := t.mem.tex } } ∧
      ∀ a : Nat, t.readTexel a =
        if a = s.texAddr.toNat ∧ a < s.params.texCap then v.extractLsb' 0 16 else s.readTexel a) ∧
  (∀ s : State, s.busy = false →
    readSlot 15 s =
      (if s.texAddr.toNat < s.params.texCap then BitVec.ofNat 32 (s.readTexel s.texAddr.toNat).toNat else 0x00000000#32,
        { s with texAddr := BitVec.ofNat 32 (s.texAddr.toNat + 1) })) ∧
  ∀ (v : Word) (s : State), s.busy = true →
    writeSlot 15 v s = { s with ovr := true } ∧ readSlot 15 s = (0x00000000#32, { s with ovr := true })

/-- R37, R38: TEX_W, TEX_H and TEX_ADDR hold what the host writes while BUSY = 0; R40: FB_ADDR what it writes at any
time, 0 from reset, and the FB_DATA read uses it. -/
def Obligations.SizeAndAddressRegistersHoldTheLastWrite : Prop :=
  (∀ (v : Word) (s : State), s.busy = false →
    writeSlot 12 v s = { s with texW := v } ∧ writeSlot 13 v s = { s with texH := v } ∧
    writeSlot 14 v s = { s with texAddr := v }) ∧
  (∀ (v : Word) (s : State), s.busy = true →
    writeSlot 12 v s = { s with ovr := true } ∧ writeSlot 13 v s = { s with ovr := true } ∧
    writeSlot 14 v s = { s with ovr := true }) ∧
  (∀ (v : Word) (s : State), writeSlot 16 v s = { s with fbAddr := v }) ∧
  State.reset.fbAddr = 0x00000000#32 ∧ (∀ s : State, (readSlot 17 s).1 = s.frontPixel s.fbAddr) ∧
  ∀ s : State, readSlot 12 s = (s.texW, s) ∧ readSlot 13 s = (s.texH, s) ∧ readSlot 14 s = (s.texAddr, s) ∧
    readSlot 16 s = (s.fbAddr, s)

/-- R35: the display's read of SO; and the host's read of FB_DATA, which returns the same and moves FB_ADDR (R41). -/
def Obligations.FrontBankIsReadThroughBothPorts : Prop :=
  (∀ (s : State) (a : Word) (rest : List Turn), s.schedule = .display a :: rest →
    step s = .next { s with
      schedule := rest
      soData := some (if s.cfg = true ∧ a.toNat < s.fbW.toNat * s.fbH.toNat then s.readPixel s.frontSel a.toNat
        else 0x00000000#32) }) ∧
  ∀ s : State, readSlot 17 s =
    (if s.cfg = true ∧ s.fbAddr.toNat < s.fbW.toNat * s.fbH.toNat then s.readPixel s.frontSel s.fbAddr.toNat
      else 0x00000000#32,
      { s with fbAddr := BitVec.ofNat 32 (s.fbAddr.toNat + 1) })

/-! ### Whole-machine rules -/

/-- The front bank, and which bank it is, change only when a SWAP or a CONFIG completes, or at reset (R41, R42). -/
def Obligations.FrontBankChangesOnlyBySwapOrConfig : Prop :=
  ∀ s t : State, step s = .next t → (nextTurn s).1 ≠ .reset →
    (∀ c : Command, (nextTurn s).1 = .engine → s.lc = some c → c.op ≠ 0x00000004#32 ∧ c.op ≠ 0x00000001#32) →
    t.frontSel = s.frontSel ∧ ∀ a : Nat, t.readPixel s.frontSel a = s.readPixel s.frontSel a

/-- R43: CFG is set by a successful CONFIG and then stays set, with the size it set, until reset; while it is 0, the
drawing commands fail. -/
def Obligations.ConfiguredOnceUntilReset : Prop :=
  State.reset.cfg = false ∧ (∀ s : State, (readSlot 3 s).1.getLsbD 5 = s.cfg) ∧
  (∀ s t : State, step s = .next t → (nextTurn s).1 ≠ .reset → s.cfg = true →
    t.cfg = true ∧ t.fbW = s.fbW ∧ t.fbH = s.fbH) ∧
  (∀ s t : State, step s = .next t → (nextTurn s).1 = .reset → t.cfg = false) ∧
  (∀ s t : State, step s = .next t → s.cfg = false →
    (t.cfg = true ↔ (nextTurn s).1 = .engine ∧ ∃ c : Command, s.lc = some c ∧ c.op = 0x00000001#32 ∧
      1 ≤ c.a0.toNat ∧ c.a0.toNat ≤ s.params.wmax ∧ 1 ≤ c.a1.toNat ∧ c.a1.toNat ≤ s.params.hmax)) ∧
  ∀ (i : Instr) (s : State), s.cfg = false → i.opcode ∈ [0x00000002#32, 0x00000003#32, 0x00000004#32] →
    exec i s = .next { s with
      err := true, errCode := if s.err then s.errCode else .notConfigured
      lc := none, fsm := .idle, romSeen := [], done := true }

/-- DONE, ERR and OVR are sticky (R29): no step clears one but the host's write of a 1 to it, or reset. -/
def Obligations.FlagsAreSticky : Prop :=
  ∀ s t : State, step s = .next t → (nextTurn s).1 ≠ .reset →
    (s.done = true → t.done = false →
      (nextTurn s).1 = .host ∧ ∃ v : Word, s.host.nextAccess = some (.w 0x0C v) ∧ v.getLsbD 1 = true) ∧
    (s.err = true → t.err = false →
      (nextTurn s).1 = .host ∧ ∃ v : Word, s.host.nextAccess = some (.w 0x0C v) ∧ v.getLsbD 2 = true) ∧
    (s.ovr = true → t.ovr = false →
      (nextTurn s).1 = .host ∧ ∃ v : Word, s.host.nextAccess = some (.w 0x0C v) ∧ v.getLsbD 3 = true)

/-- RESULT changes only in the completion of RGB, DECODE, HSV, GREY or ROMLOAD, or at reset, and not where the command
records an error (R36, R245). -/
def Obligations.ResultChangesOnlyByValueCommands : Prop :=
  ∀ s t : State, step s = .next t → (nextTurn s).1 ≠ .reset → t.result ≠ s.result →
    (nextTurn s).1 = .engine ∧ t.err = s.err ∧ t.errCode = s.errCode ∧
    ∃ c : Command, s.lc = some c ∧
      c.op ∈ [0x00000010#32, 0x00000011#32, 0x00000012#32, 0x00000013#32, 0x00000020#32]

/-- The texture memory changes only by the host's TEX_DATA write, by ROMLOAD, or at reset (R44, R186 f). -/
def Obligations.TextureChangesOnlyByTexDataOrRomload : Prop :=
  ∀ (s t : State) (a : Nat), step s = .next t → (nextTurn s).1 ≠ .reset → t.readTexel a ≠ s.readTexel a →
    ((nextTurn s).1 = .host ∧ s.busy = false ∧ a = s.texAddr.toNat ∧ a < s.params.texCap ∧
      ∃ v : Word, s.host.nextAccess = some (.w 0x3C v)) ∨
    ((nextTurn s).1 = .engine ∧ ∃ c : Command, s.lc = some c ∧ c.op = 0x00000020#32)

/-- Between accept and complete nothing a command changes is changed (R23). -/
def Obligations.NothingChangesWhileBusy : Prop :=
  ∀ s t : State, s.busy = true → step s = .next t → (nextTurn s).1 ≠ .reset → (nextTurn s).1 ≠ .engine →
    t.lc = s.lc ∧ t.mem = s.mem ∧ t.epoch = s.epoch ∧ t.result = s.result ∧ t.fbW = s.fbW ∧ t.fbH = s.fbH ∧
    t.texW = s.texW ∧ t.texH = s.texH ∧ t.texAddr = s.texAddr ∧ t.frontSel = s.frontSel ∧ t.cfg = s.cfg

/-- No command writes a pixel outside the buffer of either bank (R186 a). -/
def Obligations.NoCommandWritesOutsideTheBuffer : Prop :=
  ∀ (i : Instr) (s t : State), s.params.Legal → exec i s = .next t →
    ∀ (b : BankId) (a : Nat), t.fbW.toNat * t.fbH.toNat ≤ a → t.readPixel b a = s.readPixel b a

/-! ### Reset and the invariant -/

/-- What reset leaves (R46), at the start and from any state. What FB0, FB1 and TEX hold is then free, and after a
reset step it is free anew (R240): how the model holds that, by epochs, is log 5; that the ROM, the parameters and the
host outlive the step is logs 2, 7 and 11. -/
def Obligations.ResetLeavesTheSpecifiedState : Prop :=
  (∀ t : State, (t = State.reset ∨ ∃ (s : State) (rest : List Turn), s.schedule = .reset :: rest ∧ step s = .next t) →
    (readSlot 0 t).1 = 0x504C4601#32 ∧ (readSlot 1 t).1 = BitVec.ofNat 16 t.params.hmax ++ BitVec.ofNat 16 t.params.wmax ∧
    (readSlot 2 t).1 = BitVec.ofNat 32 t.params.texCap ∧
    (∀ slot : Fin 64, 3 ≤ slot.val → slot.val ≠ 15 → (readSlot slot t).1 = 0x00000000#32) ∧
    t.frontSel = .fb0 ∧ t.cfg = false ∧ t.lc = none ∧ t.fsm.phase = .idle ∧ t.irq = false ∧
    (∀ a : Word, t.frontPixel a = 0x00000000#32) ∧
    (∀ (b : BankId) (a : Nat), t.readPixel b a = Config.fbPowerUp t.epoch b.number a) ∧
    ∀ a : Nat, t.readTexel a = Config.texPowerUp t.epoch a) ∧
  ∀ (s : State) (rest : List Turn), s.schedule = .reset :: rest →
    ∃ t, step s = .next t ∧ t.epoch = s.epoch + 1 ∧ t.schedule = rest ∧ t.params = s.params ∧ t.rom = s.rom ∧
      t.host = s.host

/-- The invariant holds after reset. -/
def Obligations.InvariantHoldsAtReset : Prop := State.reset.Inv

/-- Every step keeps the invariant: the size is set exactly when CFG = 1 and within WMAX and HMAX (R47 a); the
memories stay canonical, with no pixel written outside the buffer, every pixel either zero or the opaque word of a
valid code (R47 b, R186 e); ERRCODE is NONE exactly while ERR = 0; the ROM decoder rests unless a ROMLOAD is pending,
and its registers fit. -/
def Obligations.EveryStepKeepsTheInvariant : Prop :=
  ∀ s t : State, s.Inv → step s = .next t → t.Inv

/-- What the invariant says to a reader of pixels (R47 b, R186 e): in the buffer of either bank every pixel is the zero
word or an opaque palette word. -/
def Obligations.PixelsAreZeroOrPaletteWords : Prop :=
  ∀ (s : State) (b : BankId) (a : Nat), s.Inv → a < s.fbW.toNat * s.fbH.toNat →
    s.readPixel b a = 0x00000000#32 ∨
      ((s.readPixel b a).extractLsb' 24 8 = 0xFF#8 ∧
        ∃ c : Int, 1 ≤ c ∧ c ≤ 512 ∧ s.readPixel b a = decodeWord c)

/-! ### The host's statements -/

/-- R98: how a command statement expands: the ARGn that its format reads, in order, then CMD, then WAIT. An operand is
written as what it is (R97): an integer that fits its 32-bit form, a variable, or `$RESULT`; one that does not fit is
refused. -/
def Obligations.CommandStatementsExpand : Prop :=
  (∀ v : Int, (-2147483648 ≤ v → v ≤ 2147483647 → Operand.signed (.int v) = .ok (.lit (BitVec.ofInt 32 v))) ∧
    (v < -2147483648 ∨ 2147483647 < v → Operand.signed (.int v) = .error .doesNotFit) ∧
    (0 ≤ v → v ≤ 4294967295 → Operand.unsigned (.int v) = .ok (.lit (BitVec.ofNat 32 v.toNat))) ∧
    (v < 0 ∨ 4294967295 < v → Operand.unsigned (.int v) = .error .doesNotFit)) ∧
  (∀ x : Nat, Operand.signed (.var x) = .ok (.var x) ∧ Operand.unsigned (.var x) = .ok (.var x)) ∧
  Operand.signed .result = .ok .result ∧ Operand.unsigned .result = .ok .result ∧
  ∀ texCap : Nat,
    Stmt.expand texCap .nop = .ok [.wr 10 (.lit 0x00#32), .wait] ∧
    Stmt.expand texCap .swap = .ok [.wr 10 (.lit 0x04#32), .wait] ∧
    (∀ (w h : Operand) (w' h' : HostVal), w.unsigned = .ok w' → h.unsigned = .ok h' →
      Stmt.expand texCap (.config w h) = .ok [.wr 7 w', .wr 8 h', .wr 10 (.lit 0x01#32), .wait]) ∧
    (∀ (a b c : Operand) (a' b' c' : HostVal), a.signed = .ok a' → b.signed = .ok b' → c.signed = .ok c' →
      Stmt.expand texCap (.pixel a b c) = .ok [.wr 7 a', .wr 8 b', .wr 9 c', .wr 10 (.lit 0x02#32), .wait] ∧
      Stmt.expand texCap (.rect a b) = .ok [.wr 7 a', .wr 8 b', .wr 10 (.lit 0x03#32), .wait] ∧
      Stmt.expand texCap (.rgb a b c) = .ok [.wr 7 a', .wr 8 b', .wr 9 c', .wr 10 (.lit 0x10#32), .wait] ∧
      Stmt.expand texCap (.decode a) = .ok [.wr 7 a', .wr 10 (.lit 0x11#32), .wait] ∧
      Stmt.expand texCap (.hsv a b c) = .ok [.wr 7 a', .wr 8 b', .wr 9 c', .wr 10 (.lit 0x12#32), .wait] ∧
      Stmt.expand texCap (.grey a) = .ok [.wr 7 a', .wr 10 (.lit 0x13#32), .wait]) ∧
    ∀ n0 n1 n2 n3 : Byte,
      Stmt.expand texCap (.romload n0 n1 n2 n3) = .ok [.wr 7 (.lit (n3 ++ n2 ++ n1 ++ n0)), .wr 10 (.lit 0x20#32), .wait]

/-- WAIT and CHECK (R100, R101), as the host's turns carry them out: each reads STATUS into `$s`. That the host keeps
the value read is log 10, that its variables are held by number, `$s` as `statusVar`, log 11. -/
def Obligations.WaitPollsAndCheckReadsAndClears : Prop :=
  (∀ (s : State) (rest : List HostOp), s.host.program = .wait :: rest →
    ∃ t, hostTurn s = t ∧ t.host.program = (if s.busy then .wait :: rest else rest) ∧
      t.host.getVar statusVar = (readSlot 3 s).1 ∧ (∀ y, y ≠ statusVar → t.host.getVar y = s.host.getVar y) ∧
      t = { s with
        hostData := some (readSlot 3 s).1
        host := { s.host with program := t.host.program, vars := t.host.vars } }) ∧
  (∀ (s : State) (x : Nat) (rest : List HostOp), s.host.program = .check x :: rest → s.err = false →
    ∃ t, hostTurn s = t ∧ t.host.getVar x = 0x00000000#32 ∧ t.host.program = rest ∧
      (x ≠ statusVar → t.host.getVar statusVar = (readSlot 3 s).1) ∧
      (∀ y, y ≠ statusVar → y ≠ x → t.host.getVar y = s.host.getVar y) ∧
      t = { s with
        hostData := some (readSlot 3 s).1
        host := { s.host with program := rest, vars := t.host.vars } }) ∧
  ∀ (s : State) (x : Nat) (rest : List HostOp), s.host.program = .check x :: rest → s.err = true →
    ∃ t u, hostTurn s = t ∧ hostTurn t = u ∧
      u.host.getVar x = BitVec.ofNat 32 ((readSlot 3 s).1.extractLsb' 8 8).toNat ∧
      (x ≠ statusVar → u.host.getVar statusVar = (readSlot 3 s).1) ∧
      (∀ y, y ≠ statusVar → y ≠ x → u.host.getVar y = s.host.getVar y) ∧
      t = { s with hostData := some (readSlot 3 s).1, host := t.host } ∧
      u = { s with
        hostData := some (readSlot 3 s).1, err := false, errCode := .none
        host := { s.host with program := rest, vars := u.host.vars } }

/-- The host's turn makes the access that its encoding names (R107), and no other: a read leaves its value with the
host, a write goes to the slot. -/
def Obligations.HostTurnMakesTheAccessItsEncodingNames : Prop :=
  (∀ s : State, s.host.nextAccess = none → hostTurn s = { s with host := (hostTurn s).host }) ∧
  (∀ (s : State) (off : Nat) (v : Word), s.host.nextAccess = some (.w off v) →
    ∃ slot : Fin 64, off = 4 * slot.val ∧ hostTurn s = { writeSlot slot v s with host := (hostTurn s).host }) ∧
  ∀ (s : State) (off : Nat), s.host.nextAccess = some (.r off) →
    ∃ slot : Fin 64, off = 4 * slot.val ∧
      hostTurn s = { (readSlot slot s).2 with hostData := some (readSlot slot s).1, host := (hostTurn s).host }

/-- FILL (R187, which the spec derives), with integers, variables or `$RESULT` for its operands: run by the host and
the engine alone, from an idle, configured block. That host and engine alternate so is the model's default turn (log 1),
where `$RESULT` is read is log 11. -/
def Obligations.FillPaintsTheClippedRectangle : Prop :=
  ∀ (s : State) (x y c : Operand) (w h : Nat) (ops : List HostOp),
    expandProgram s.params.texCap [.fill x y w h c] = .ok ops →
    s.params.Legal → s.schedule = [] → s.lc = none → s.cfg = true → s.host.program = ops →
    ∃ (n : Nat) (t : State), core.run n s = .next t ∧ t.host.program = [] ∧ t.lc = none ∧
      t.texW = BitVec.ofNat 32 w ∧ t.texH = BitVec.ofNat 32 h ∧ t.texAddr = BitVec.ofNat 32 (w * h) ∧
      (∀ k : Nat, t.readTexel k =
        if k < w * h then (if 0 ≤ c.inFill s ∧ c.inFill s ≤ 65535 then BitVec.ofNat 16 (c.inFill s).toNat else 0#16)
        else s.readTexel k) ∧
      t.fbW = s.fbW ∧ t.fbH = s.fbH ∧ t.frontSel = s.frontSel ∧ t.cfg = true ∧ t.result = s.result ∧
      t.err = s.err ∧ t.errCode = s.errCode ∧
      (∀ a : Nat, t.readPixel s.frontSel a = s.readPixel s.frontSel a) ∧
      (∀ a : Nat, s.fbW.toNat * s.fbH.toNat ≤ a →
        t.readPixel s.frontSel.other a = s.readPixel s.frontSel.other a) ∧
      ∀ px py : Nat, px < s.fbW.toNat → py < s.fbH.toNat →
        t.readPixel s.frontSel.other (py * s.fbW.toNat + px) =
          if x.inFill s ≤ (px : Int) ∧ (px : Int) < x.inFill s + (w : Int) ∧
              y.inFill s ≤ (py : Int) ∧ (py : Int) < y.inFill s + (h : Int) ∧ 1 ≤ c.inFill s ∧ c.inFill s ≤ 512
          then decodeWord (c.inFill s) else s.readPixel s.frontSel.other (py * s.fbW.toNat + px)

/-- `$RESULT` is the value of RESULT after the previous command (R97): RGB and then PIXEL with the code `$RESULT`, as in
the second scenario of spec/95_test_vectors.md, run by the host and the engine alone (log 1). That the host's read of
RESULT stands right before the statement that uses it is log 11. -/
def Obligations.ResultOperandIsThePreviousResult : Prop :=
  ∀ (s : State) (r g b x y : Int) (ops : List HostOp),
    expandProgram s.params.texCap [.rgb (.int r) (.int g) (.int b), .pixel (.int x) (.int y) .result] = .ok ops →
    0 ≤ r → r ≤ 7 → 0 ≤ g → g ≤ 7 → 0 ≤ b → b ≤ 7 →
    s.schedule = [] → s.lc = none → s.cfg = true → s.host.program = ops →
    ∃ (n : Nat) (t : State), core.run n s = .next t ∧ t.host.program = [] ∧ t.lc = none ∧
      t.host.result = BitVec.ofNat 32 (64 * r.toNat + 8 * g.toNat + b.toNat + 1) ∧ t.mem.tex = s.mem.tex ∧
      (∀ a : Nat, t.readPixel s.frontSel a = s.readPixel s.frontSel a) ∧
      ∀ a : Nat, t.readPixel s.frontSel.other a =
        if (0 ≤ x ∧ x < (s.fbW.toNat : Int)) ∧ (0 ≤ y ∧ y < (s.fbH.toNat : Int)) ∧
            a = y.toNat * s.fbW.toNat + x.toNat
        then decodeWord (64 * r + 8 * g + b + 1) else s.readPixel s.frontSel.other a

/-- GETTEX (R103): run by the host alone, from an idle block (log 1), it reads the texture row by row. One longer than
TEX_CAP is refused, as "valid only when `$w*$h <= TEX_CAP`" asks: no access is made for the texels, and the host goes
no further (log 11). -/
def Obligations.GettexReadsTheTextureBack : Prop :=
  ∀ (s : State) (tv wv hv : Nat) (ops rest : List HostOp),
    Stmt.expand s.params.texCap (.gettex tv wv hv) = .ok ops → wv ≠ hv → s.params.Legal →
    s.schedule = [] → s.lc = none → s.host.program = ops ++ rest → s.host.refused = false →
    (s.texW.toNat * s.texH.toNat ≤ s.params.texCap →
      ∃ (n : Nat) (t : State), core.run n s = .next t ∧ t.host.program = rest ∧ t.host.refused = false ∧
        t.mem = s.mem ∧ t.host.getVar wv = s.texW ∧ t.host.getVar hv = s.texH ∧
        t.host.getTex tv =
          (List.range (s.texW.toNat * s.texH.toNat)).map (fun k => BitVec.ofNat 32 (s.readTexel k).toNat)) ∧
    (s.params.texCap < s.texW.toNat * s.texH.toNat →
      ∃ (n : Nat) (t : State), core.run n s = .next t ∧ t.host.program = [] ∧ t.host.refused = true ∧
        t.mem = s.mem ∧ t.texAddr = 0x00000000#32 ∧ t.host.texVars = s.host.texVars)

/-- The driver's stand-ins for integers that a register cannot hold, and why each keeps the document's result; a RECT
offset that has none is refused (R106). The host's own drawing (R108) uses the same ones, so that its statements are
never refused. That the driver reads RESULT after CHECK, and the numbers of its variables, are log 11. -/
def Obligations.DriverStandInsKeepTheResult : Prop :=
  (∀ x y c : Int, driver (.pixel x y c) =
    .ok [.pixel (.int (heldOr (-1) x)) (.int (heldOr (-1) y)) (.int (heldOr 0 c))]) ∧
  (∀ c : Int, driver (.greyscale c) = .ok [.grey (.int (heldOr 0 c)), .check 1, .rd .result (some 2)]) ∧
  (∀ r g b : Int,
    driver (.rgb r g b) =
      .ok [.rgb (.int (heldOr (-1) r)) (.int (heldOr (-1) g)) (.int (heldOr (-1) b)), .check 1, .rd .result (some 2)] ∧
    driver (.hsv r g b) =
      .ok [.hsv (.int (heldOr (-1) r)) (.int (heldOr (-1) g)) (.int (heldOr (-1) b)), .check 1, .rd .result (some 2)]) ∧
  (∀ (w h : Nat) (codes : List Int) (x y : Int), driver (.rect w h codes x y) =
    if heldOr (-1) x = x ∧ heldOr (-1) y = y then .ok [.settex w h (codes.map .int), .rect (.int x) (.int y)]
    else .error .rectOffset) ∧
  (∀ points : List (Int × Int × Option Int),
    emulatedDrawing points = points.map (fun p =>
      .pixel (.int (heldOr (-1) p.1)) (.int (heldOr (-1) p.2.1)) (.int (heldOr 0 (p.2.2.getD 1)))) ∧
    ∀ texCap : Nat, ∃ ops, expandProgram texCap (emulatedDrawing points) = .ok ops) ∧
  (∀ c : Int, Operand.texel (.int c) = .lit (if 0 ≤ c ∧ c ≤ 65535 then BitVec.ofNat 32 c.toNat else 0x00000000#32)) ∧
  (∀ c : Int, heldOr 0 c ≠ c →
    skipCode c = true ∧ skipCode 0 = true ∧ decodeWord c = decodeWord 0 ∧ greyCode c = greyCode 0) ∧
  (∀ c : Int, ¬ (0 ≤ c ∧ c ≤ 65535) → skipCode c = true ∧ skipCode 0 = true) ∧
  (∀ (x y : Int) (s : State), s.fbW.toNat ≤ 65535 → s.fbH.toNat ≤ 65535 →
    (heldOr (-1) x ≠ x → s.inBuffer x y = false ∧ s.inBuffer (-1) y = false) ∧
    (heldOr (-1) y ≠ y → s.inBuffer x y = false ∧ s.inBuffer x (-1) = false)) ∧
  ∀ r : Int, heldOr (-1) r ≠ r → inDomain r = false ∧ inDomain (-1) = false

/-- R256: the run of a host program ends at the first state that is an end, and goes on being one where nothing is
scheduled. That a display read is in progress while the schedule names one is log 14. -/
def Obligations.RunEndsAtTheFirstEndState : Prop :=
  (∀ (n : Nat) (s t : State), runToEnd n s = some t ↔
    ∃ m, m ≤ n ∧ core.run m s = .next t ∧ t.runEnded = true ∧
      ∀ k, k < m → ∀ u, core.run k s = .next u → State.runEnded u = false) ∧
  (∀ s : State, s.runEnded = true ↔
    s.host.program = [] ∧ s.host.refused = false ∧ s.lc = none ∧ ∀ a, Turn.display a ∉ s.schedule) ∧
  ∀ s : State, s.runEnded = true → s.schedule = [] → step s = .next s
end

