-- ==== Sys2Proof/Laws/Decode.lean ====
section
/-! SUPPORT. The operand forms read back what they were assembled from. -/

namespace Sys2Proof

open Sys2Proof.Machine

@[simp] theorem inS32_iff (v : Int) : inS32 v = true ↔ -2147483648 ≤ v ∧ v ≤ 2147483647 := by
  simp [inS32]

@[simp] theorem inU32_iff (v : Nat) : inU32 v = true ↔ v < 4294967296 := by
  simp [inU32]

theorem s32_ofS32 {v : Int} (h : inS32 v = true) : s32 (ofS32 v) = v := by
  rw [inS32_iff] at h
  simp only [s32, ofS32, BitVec.toInt_ofInt]
  rw [Int.bmod_eq_of_le] <;> omega

theorem u32_ofU32 {v : Nat} (h : inU32 v = true) : u32 (ofU32 v) = v := by
  rw [inU32_iff] at h
  simp [u32, ofU32, Nat.mod_eq_of_lt h]

theorem s32_range (a : Word) : inS32 (s32 a) = true := by
  rw [inS32_iff]
  have h1 := BitVec.le_toInt a
  have h2 := BitVec.toInt_lt (x := a)
  simp only [s32]
  omega

theorem u32_range (a : Word) : inU32 (u32 a) = true := by
  rw [inU32_iff]
  exact a.isLt

@[simp] theorem ofS32_s32 (a : Word) : ofS32 (s32 a) = a := by simp [ofS32, s32]

@[simp] theorem ofU32_u32 (a : Word) : ofU32 (u32 a) = a := by simp [ofU32, u32]

/-- The bits of four bytes put together, the first argument in the top byte. -/
theorem getLsbD_bytes (b3 b2 b1 b0 : Byte) (i : Nat) :
    BitVec.getLsbD (w := 32) (b3 ++ b2 ++ b1 ++ b0) i =
      if i < 8 then b0.getLsbD i else if i < 16 then b1.getLsbD (i - 8)
      else if i < 24 then b2.getLsbD (i - 16) else b3.getLsbD (i - 24) := by
  have h : BitVec.getLsbD (w := 32) (b3 ++ b2 ++ b1 ++ b0) i = BitVec.getLsbD (w := 8 + 8 + 8 + 8) (b3 ++ b2 ++ b1 ++ b0) i :=
    rfl
  rw [h]
  simp only [BitVec.getLsbD_append]
  have e1 : i - 8 - 8 = i - 16 := by omega
  have e2 : i - 16 - 8 = i - 24 := by omega
  rw [e1, e2]
  by_cases h1 : i < 8
  · simp [h1]
  by_cases h2 : i < 16
  · have : i - 8 < 8 := by omega
    simp [h1, h2, this]
  by_cases h3 : i < 24
  · have h4 : ¬ i - 8 < 8 := by omega
    have h5 : i - 16 < 8 := by omega
    simp [h1, h2, h3, h4, h5]
  · have h4 : ¬ i - 8 < 8 := by omega
    have h5 : ¬ i - 16 < 8 := by omega
    simp [h1, h2, h3, h4, h5]

/-- The four bytes of four bytes put together. -/
theorem extract_bytes (b3 b2 b1 b0 : Byte) :
    BitVec.extractLsb' (n := 32) 0 8 (b3 ++ b2 ++ b1 ++ b0) = b0 ∧
      BitVec.extractLsb' (n := 32) 8 8 (b3 ++ b2 ++ b1 ++ b0) = b1 ∧
      BitVec.extractLsb' (n := 32) 16 8 (b3 ++ b2 ++ b1 ++ b0) = b2 ∧
      BitVec.extractLsb' (n := 32) 24 8 (b3 ++ b2 ++ b1 ++ b0) = b3 := by
  refine ⟨?_, ?_, ?_, ?_⟩ <;>
    (apply BitVec.eq_of_getLsbD_eq
     intro i hi
     rw [BitVec.getLsbD_extractLsb', getLsbD_bytes]
     simp only [hi, decide_true, Bool.true_and])
  · simp only [Nat.zero_add, hi, if_true]
  · have h1 : ¬ 8 + i < 8 := by omega
    have h2 : 8 + i < 16 := by omega
    simp [h1, h2]
  · have h1 : ¬ 16 + i < 8 := by omega
    have h2 : ¬ 16 + i < 16 := by omega
    have h3 : 16 + i < 24 := by omega
    simp [h1, h2, h3]
  · have h1 : ¬ 24 + i < 8 := by omega
    have h2 : ¬ 24 + i < 16 := by omega
    have h3 : ¬ 24 + i < 24 := by omega
    simp [h1, h2, h3]

@[simp] theorem nameByte_nameWord_0 (n0 n1 n2 n3 : Byte) : nameByte (nameWord n0 n1 n2 n3) 0 = n0 :=
  (extract_bytes n3 n2 n1 n0).1

@[simp] theorem nameByte_nameWord_1 (n0 n1 n2 n3 : Byte) : nameByte (nameWord n0 n1 n2 n3) 1 = n1 :=
  (extract_bytes n3 n2 n1 n0).2.1

@[simp] theorem nameByte_nameWord_2 (n0 n1 n2 n3 : Byte) : nameByte (nameWord n0 n1 n2 n3) 2 = n2 :=
  (extract_bytes n3 n2 n1 n0).2.2.1

@[simp] theorem nameByte_nameWord_3 (n0 n1 n2 n3 : Byte) : nameByte (nameWord n0 n1 n2 n3) 3 = n3 :=
  (extract_bytes n3 n2 n1 n0).2.2.2

/-- A name word is the word of its four name bytes. -/
theorem nameWord_nameByte (a : Word) : nameWord (nameByte a 0) (nameByte a 1) (nameByte a 2) (nameByte a 3) = a := by
  apply BitVec.eq_of_getLsbD_eq
  intro i hi
  rw [nameWord, getLsbD_bytes]
  simp only [nameByte, BitVec.getLsbD_extractLsb']
  split
  · rename_i h
    simp [h]
  split
  · rename_i h h'
    have h1 : i - 8 < 8 := by omega
    have h2 : 8 + (i - 8) = i := by omega
    simp [h1, h2]
  split
  · rename_i h h' h''
    have h1 : i - 16 < 8 := by omega
    have h2 : 16 + (i - 16) = i := by omega
    simp [h1, h2]
  · have h1 : i - 24 < 8 := by omega
    have h2 : 24 + (i - 24) = i := by omega
    simp [h1, h2]

end Sys2Proof
end

