-- ==== Sys2Proof/Laws/State.lean ====
section
/-! SUPPORT. What each named update of the state does to each field, one lemma a field, so that no proof unfolds a
record update. -/

namespace Sys2Proof.Machine


/-! ### complete -/

@[simp] theorem complete_params (s : State) : (complete s).params = s.params := rfl
@[simp] theorem complete_done (s : State) : (complete s).done = true := rfl
@[simp] theorem complete_err (s : State) : (complete s).err = s.err := rfl
@[simp] theorem complete_ovr (s : State) : (complete s).ovr = s.ovr := rfl
@[simp] theorem complete_errCode (s : State) : (complete s).errCode = s.errCode := rfl
@[simp] theorem complete_irqEn (s : State) : (complete s).irqEn = s.irqEn := rfl
@[simp] theorem complete_fbW (s : State) : (complete s).fbW = s.fbW := rfl
@[simp] theorem complete_fbH (s : State) : (complete s).fbH = s.fbH := rfl
@[simp] theorem complete_arg0 (s : State) : (complete s).arg0 = s.arg0 := rfl
@[simp] theorem complete_arg1 (s : State) : (complete s).arg1 = s.arg1 := rfl
@[simp] theorem complete_arg2 (s : State) : (complete s).arg2 = s.arg2 := rfl
@[simp] theorem complete_result (s : State) : (complete s).result = s.result := rfl
@[simp] theorem complete_texW (s : State) : (complete s).texW = s.texW := rfl
@[simp] theorem complete_texH (s : State) : (complete s).texH = s.texH := rfl
@[simp] theorem complete_texAddr (s : State) : (complete s).texAddr = s.texAddr := rfl
@[simp] theorem complete_fbAddr (s : State) : (complete s).fbAddr = s.fbAddr := rfl
@[simp] theorem complete_frontSel (s : State) : (complete s).frontSel = s.frontSel := rfl
@[simp] theorem complete_cfg (s : State) : (complete s).cfg = s.cfg := rfl
@[simp] theorem complete_mem (s : State) : (complete s).mem = s.mem := rfl
@[simp] theorem complete_lc (s : State) : (complete s).lc = none := rfl
@[simp] theorem complete_fsm (s : State) : (complete s).fsm = .idle := rfl
@[simp] theorem complete_rom (s : State) : (complete s).rom = s.rom := rfl
@[simp] theorem complete_romSeen (s : State) : (complete s).romSeen = [] := rfl
@[simp] theorem complete_epoch (s : State) : (complete s).epoch = s.epoch := rfl
@[simp] theorem complete_draws (s : State) : (complete s).draws = s.draws := rfl
@[simp] theorem complete_hostData (s : State) : (complete s).hostData = s.hostData := rfl
@[simp] theorem complete_soData (s : State) : (complete s).soData = s.soData := rfl
@[simp] theorem complete_host (s : State) : (complete s).host = s.host := rfl
@[simp] theorem complete_schedule (s : State) : (complete s).schedule = s.schedule := rfl

/-! ### recordError -/

@[simp] theorem recordError_params (e : ErrCode) (s : State) : (recordError e s).params = s.params := by
  unfold recordError; split <;> rfl
@[simp] theorem recordError_done (e : ErrCode) (s : State) : (recordError e s).done = s.done := by
  unfold recordError; split <;> rfl
@[simp] theorem recordError_err (e : ErrCode) (s : State) : (recordError e s).err = true := by
  unfold recordError; split <;> simp_all
@[simp] theorem recordError_ovr (e : ErrCode) (s : State) : (recordError e s).ovr = s.ovr := by
  unfold recordError; split <;> rfl
@[simp] theorem recordError_errCode (e : ErrCode) (s : State) :
    (recordError e s).errCode = if s.err then s.errCode else e := by
  unfold recordError; split <;> rfl
@[simp] theorem recordError_irqEn (e : ErrCode) (s : State) : (recordError e s).irqEn = s.irqEn := by
  unfold recordError; split <;> rfl
@[simp] theorem recordError_fbW (e : ErrCode) (s : State) : (recordError e s).fbW = s.fbW := by
  unfold recordError; split <;> rfl
@[simp] theorem recordError_fbH (e : ErrCode) (s : State) : (recordError e s).fbH = s.fbH := by
  unfold recordError; split <;> rfl
@[simp] theorem recordError_arg0 (e : ErrCode) (s : State) : (recordError e s).arg0 = s.arg0 := by
  unfold recordError; split <;> rfl
@[simp] theorem recordError_arg1 (e : ErrCode) (s : State) : (recordError e s).arg1 = s.arg1 := by
  unfold recordError; split <;> rfl
@[simp] theorem recordError_arg2 (e : ErrCode) (s : State) : (recordError e s).arg2 = s.arg2 := by
  unfold recordError; split <;> rfl
@[simp] theorem recordError_result (e : ErrCode) (s : State) : (recordError e s).result = s.result := by
  unfold recordError; split <;> rfl
@[simp] theorem recordError_texW (e : ErrCode) (s : State) : (recordError e s).texW = s.texW := by
  unfold recordError; split <;> rfl
@[simp] theorem recordError_texH (e : ErrCode) (s : State) : (recordError e s).texH = s.texH := by
  unfold recordError; split <;> rfl
@[simp] theorem recordError_texAddr (e : ErrCode) (s : State) : (recordError e s).texAddr = s.texAddr := by
  unfold recordError; split <;> rfl
@[simp] theorem recordError_fbAddr (e : ErrCode) (s : State) : (recordError e s).fbAddr = s.fbAddr := by
  unfold recordError; split <;> rfl
@[simp] theorem recordError_frontSel (e : ErrCode) (s : State) : (recordError e s).frontSel = s.frontSel := by
  unfold recordError; split <;> rfl
@[simp] theorem recordError_cfg (e : ErrCode) (s : State) : (recordError e s).cfg = s.cfg := by
  unfold recordError; split <;> rfl
@[simp] theorem recordError_mem (e : ErrCode) (s : State) : (recordError e s).mem = s.mem := by
  unfold recordError; split <;> rfl
@[simp] theorem recordError_lc (e : ErrCode) (s : State) : (recordError e s).lc = s.lc := by
  unfold recordError; split <;> rfl
@[simp] theorem recordError_fsm (e : ErrCode) (s : State) : (recordError e s).fsm = s.fsm := by
  unfold recordError; split <;> rfl
@[simp] theorem recordError_rom (e : ErrCode) (s : State) : (recordError e s).rom = s.rom := by
  unfold recordError; split <;> rfl
@[simp] theorem recordError_romSeen (e : ErrCode) (s : State) : (recordError e s).romSeen = s.romSeen := by
  unfold recordError; split <;> rfl
@[simp] theorem recordError_epoch (e : ErrCode) (s : State) : (recordError e s).epoch = s.epoch := by
  unfold recordError; split <;> rfl
@[simp] theorem recordError_draws (e : ErrCode) (s : State) : (recordError e s).draws = s.draws := by
  unfold recordError; split <;> rfl
@[simp] theorem recordError_hostData (e : ErrCode) (s : State) : (recordError e s).hostData = s.hostData := by
  unfold recordError; split <;> rfl
@[simp] theorem recordError_soData (e : ErrCode) (s : State) : (recordError e s).soData = s.soData := by
  unfold recordError; split <;> rfl
@[simp] theorem recordError_host (e : ErrCode) (s : State) : (recordError e s).host = s.host := by
  unfold recordError; split <;> rfl
@[simp] theorem recordError_schedule (e : ErrCode) (s : State) : (recordError e s).schedule = s.schedule := by
  unfold recordError; split <;> rfl

/-! ### overrun -/

@[simp] theorem overrun_params (s : State) : (overrun s).params = s.params := rfl
@[simp] theorem overrun_done (s : State) : (overrun s).done = s.done := rfl
@[simp] theorem overrun_err (s : State) : (overrun s).err = s.err := rfl
@[simp] theorem overrun_ovr (s : State) : (overrun s).ovr = true := rfl
@[simp] theorem overrun_errCode (s : State) : (overrun s).errCode = s.errCode := rfl
@[simp] theorem overrun_irqEn (s : State) : (overrun s).irqEn = s.irqEn := rfl
@[simp] theorem overrun_fbW (s : State) : (overrun s).fbW = s.fbW := rfl
@[simp] theorem overrun_fbH (s : State) : (overrun s).fbH = s.fbH := rfl
@[simp] theorem overrun_arg0 (s : State) : (overrun s).arg0 = s.arg0 := rfl
@[simp] theorem overrun_arg1 (s : State) : (overrun s).arg1 = s.arg1 := rfl
@[simp] theorem overrun_arg2 (s : State) : (overrun s).arg2 = s.arg2 := rfl
@[simp] theorem overrun_result (s : State) : (overrun s).result = s.result := rfl
@[simp] theorem overrun_texW (s : State) : (overrun s).texW = s.texW := rfl
@[simp] theorem overrun_texH (s : State) : (overrun s).texH = s.texH := rfl
@[simp] theorem overrun_texAddr (s : State) : (overrun s).texAddr = s.texAddr := rfl
@[simp] theorem overrun_fbAddr (s : State) : (overrun s).fbAddr = s.fbAddr := rfl
@[simp] theorem overrun_frontSel (s : State) : (overrun s).frontSel = s.frontSel := rfl
@[simp] theorem overrun_cfg (s : State) : (overrun s).cfg = s.cfg := rfl
@[simp] theorem overrun_mem (s : State) : (overrun s).mem = s.mem := rfl
@[simp] theorem overrun_lc (s : State) : (overrun s).lc = s.lc := rfl
@[simp] theorem overrun_fsm (s : State) : (overrun s).fsm = s.fsm := rfl
@[simp] theorem overrun_rom (s : State) : (overrun s).rom = s.rom := rfl
@[simp] theorem overrun_romSeen (s : State) : (overrun s).romSeen = s.romSeen := rfl
@[simp] theorem overrun_epoch (s : State) : (overrun s).epoch = s.epoch := rfl
@[simp] theorem overrun_draws (s : State) : (overrun s).draws = s.draws := rfl
@[simp] theorem overrun_hostData (s : State) : (overrun s).hostData = s.hostData := rfl
@[simp] theorem overrun_soData (s : State) : (overrun s).soData = s.soData := rfl
@[simp] theorem overrun_host (s : State) : (overrun s).host = s.host := rfl
@[simp] theorem overrun_schedule (s : State) : (overrun s).schedule = s.schedule := rfl

/-! ### accept -/

@[simp] theorem accept_params (v : Word) (s : State) : (accept v s).params = s.params := rfl
@[simp] theorem accept_done (v : Word) (s : State) : (accept v s).done = s.done := rfl
@[simp] theorem accept_err (v : Word) (s : State) : (accept v s).err = s.err := rfl
@[simp] theorem accept_ovr (v : Word) (s : State) : (accept v s).ovr = s.ovr := rfl
@[simp] theorem accept_errCode (v : Word) (s : State) : (accept v s).errCode = s.errCode := rfl
@[simp] theorem accept_irqEn (v : Word) (s : State) : (accept v s).irqEn = s.irqEn := rfl
@[simp] theorem accept_fbW (v : Word) (s : State) : (accept v s).fbW = s.fbW := rfl
@[simp] theorem accept_fbH (v : Word) (s : State) : (accept v s).fbH = s.fbH := rfl
@[simp] theorem accept_arg0 (v : Word) (s : State) : (accept v s).arg0 = s.arg0 := rfl
@[simp] theorem accept_arg1 (v : Word) (s : State) : (accept v s).arg1 = s.arg1 := rfl
@[simp] theorem accept_arg2 (v : Word) (s : State) : (accept v s).arg2 = s.arg2 := rfl
@[simp] theorem accept_result (v : Word) (s : State) : (accept v s).result = s.result := rfl
@[simp] theorem accept_texW (v : Word) (s : State) : (accept v s).texW = s.texW := rfl
@[simp] theorem accept_texH (v : Word) (s : State) : (accept v s).texH = s.texH := rfl
@[simp] theorem accept_texAddr (v : Word) (s : State) : (accept v s).texAddr = s.texAddr := rfl
@[simp] theorem accept_fbAddr (v : Word) (s : State) : (accept v s).fbAddr = s.fbAddr := rfl
@[simp] theorem accept_frontSel (v : Word) (s : State) : (accept v s).frontSel = s.frontSel := rfl
@[simp] theorem accept_cfg (v : Word) (s : State) : (accept v s).cfg = s.cfg := rfl
@[simp] theorem accept_mem (v : Word) (s : State) : (accept v s).mem = s.mem := rfl
@[simp] theorem accept_lc (v : Word) (s : State) : (accept v s).lc = some ⟨v, s.arg0, s.arg1, s.arg2⟩ := rfl
@[simp] theorem accept_fsm (v : Word) (s : State) : (accept v s).fsm = s.fsm := rfl
@[simp] theorem accept_rom (v : Word) (s : State) : (accept v s).rom = s.rom := rfl
@[simp] theorem accept_romSeen (v : Word) (s : State) : (accept v s).romSeen = s.romSeen := rfl
@[simp] theorem accept_epoch (v : Word) (s : State) : (accept v s).epoch = s.epoch := rfl
@[simp] theorem accept_draws (v : Word) (s : State) : (accept v s).draws = s.draws := rfl
@[simp] theorem accept_hostData (v : Word) (s : State) : (accept v s).hostData = s.hostData := rfl
@[simp] theorem accept_soData (v : Word) (s : State) : (accept v s).soData = s.soData := rfl
@[simp] theorem accept_host (v : Word) (s : State) : (accept v s).host = s.host := rfl
@[simp] theorem accept_schedule (v : Word) (s : State) : (accept v s).schedule = s.schedule := rfl

/-! ### setResult -/

@[simp] theorem setResult_params (v : Word) (s : State) : (setResult v s).params = s.params := rfl
@[simp] theorem setResult_done (v : Word) (s : State) : (setResult v s).done = s.done := rfl
@[simp] theorem setResult_err (v : Word) (s : State) : (setResult v s).err = s.err := rfl
@[simp] theorem setResult_ovr (v : Word) (s : State) : (setResult v s).ovr = s.ovr := rfl
@[simp] theorem setResult_errCode (v : Word) (s : State) : (setResult v s).errCode = s.errCode := rfl
@[simp] theorem setResult_irqEn (v : Word) (s : State) : (setResult v s).irqEn = s.irqEn := rfl
@[simp] theorem setResult_fbW (v : Word) (s : State) : (setResult v s).fbW = s.fbW := rfl
@[simp] theorem setResult_fbH (v : Word) (s : State) : (setResult v s).fbH = s.fbH := rfl
@[simp] theorem setResult_arg0 (v : Word) (s : State) : (setResult v s).arg0 = s.arg0 := rfl
@[simp] theorem setResult_arg1 (v : Word) (s : State) : (setResult v s).arg1 = s.arg1 := rfl
@[simp] theorem setResult_arg2 (v : Word) (s : State) : (setResult v s).arg2 = s.arg2 := rfl
@[simp] theorem setResult_result (v : Word) (s : State) : (setResult v s).result = v := rfl
@[simp] theorem setResult_texW (v : Word) (s : State) : (setResult v s).texW = s.texW := rfl
@[simp] theorem setResult_texH (v : Word) (s : State) : (setResult v s).texH = s.texH := rfl
@[simp] theorem setResult_texAddr (v : Word) (s : State) : (setResult v s).texAddr = s.texAddr := rfl
@[simp] theorem setResult_fbAddr (v : Word) (s : State) : (setResult v s).fbAddr = s.fbAddr := rfl
@[simp] theorem setResult_frontSel (v : Word) (s : State) : (setResult v s).frontSel = s.frontSel := rfl
@[simp] theorem setResult_cfg (v : Word) (s : State) : (setResult v s).cfg = s.cfg := rfl
@[simp] theorem setResult_mem (v : Word) (s : State) : (setResult v s).mem = s.mem := rfl
@[simp] theorem setResult_lc (v : Word) (s : State) : (setResult v s).lc = s.lc := rfl
@[simp] theorem setResult_fsm (v : Word) (s : State) : (setResult v s).fsm = s.fsm := rfl
@[simp] theorem setResult_rom (v : Word) (s : State) : (setResult v s).rom = s.rom := rfl
@[simp] theorem setResult_romSeen (v : Word) (s : State) : (setResult v s).romSeen = s.romSeen := rfl
@[simp] theorem setResult_epoch (v : Word) (s : State) : (setResult v s).epoch = s.epoch := rfl
@[simp] theorem setResult_draws (v : Word) (s : State) : (setResult v s).draws = s.draws := rfl
@[simp] theorem setResult_hostData (v : Word) (s : State) : (setResult v s).hostData = s.hostData := rfl
@[simp] theorem setResult_soData (v : Word) (s : State) : (setResult v s).soData = s.soData := rfl
@[simp] theorem setResult_host (v : Word) (s : State) : (setResult v s).host = s.host := rfl
@[simp] theorem setResult_schedule (v : Word) (s : State) : (setResult v s).schedule = s.schedule := rfl

/-! ### writePixel -/

@[simp] theorem writePixel_params (i : BankId) (a : Nat) (v : Word) (s : State) : (s.writePixel i a v).params = s.params := rfl
@[simp] theorem writePixel_done (i : BankId) (a : Nat) (v : Word) (s : State) : (s.writePixel i a v).done = s.done := rfl
@[simp] theorem writePixel_err (i : BankId) (a : Nat) (v : Word) (s : State) : (s.writePixel i a v).err = s.err := rfl
@[simp] theorem writePixel_ovr (i : BankId) (a : Nat) (v : Word) (s : State) : (s.writePixel i a v).ovr = s.ovr := rfl
@[simp] theorem writePixel_errCode (i : BankId) (a : Nat) (v : Word) (s : State) : (s.writePixel i a v).errCode = s.errCode := rfl
@[simp] theorem writePixel_irqEn (i : BankId) (a : Nat) (v : Word) (s : State) : (s.writePixel i a v).irqEn = s.irqEn := rfl
@[simp] theorem writePixel_fbW (i : BankId) (a : Nat) (v : Word) (s : State) : (s.writePixel i a v).fbW = s.fbW := rfl
@[simp] theorem writePixel_fbH (i : BankId) (a : Nat) (v : Word) (s : State) : (s.writePixel i a v).fbH = s.fbH := rfl
@[simp] theorem writePixel_arg0 (i : BankId) (a : Nat) (v : Word) (s : State) : (s.writePixel i a v).arg0 = s.arg0 := rfl
@[simp] theorem writePixel_arg1 (i : BankId) (a : Nat) (v : Word) (s : State) : (s.writePixel i a v).arg1 = s.arg1 := rfl
@[simp] theorem writePixel_arg2 (i : BankId) (a : Nat) (v : Word) (s : State) : (s.writePixel i a v).arg2 = s.arg2 := rfl
@[simp] theorem writePixel_result (i : BankId) (a : Nat) (v : Word) (s : State) : (s.writePixel i a v).result = s.result := rfl
@[simp] theorem writePixel_texW (i : BankId) (a : Nat) (v : Word) (s : State) : (s.writePixel i a v).texW = s.texW := rfl
@[simp] theorem writePixel_texH (i : BankId) (a : Nat) (v : Word) (s : State) : (s.writePixel i a v).texH = s.texH := rfl
@[simp] theorem writePixel_texAddr (i : BankId) (a : Nat) (v : Word) (s : State) : (s.writePixel i a v).texAddr = s.texAddr := rfl
@[simp] theorem writePixel_fbAddr (i : BankId) (a : Nat) (v : Word) (s : State) : (s.writePixel i a v).fbAddr = s.fbAddr := rfl
@[simp] theorem writePixel_frontSel (i : BankId) (a : Nat) (v : Word) (s : State) : (s.writePixel i a v).frontSel = s.frontSel := rfl
@[simp] theorem writePixel_cfg (i : BankId) (a : Nat) (v : Word) (s : State) : (s.writePixel i a v).cfg = s.cfg := rfl
@[simp] theorem writePixel_mem (i : BankId) (a : Nat) (v : Word) (s : State) : (s.writePixel i a v).mem = s.mem.setBank i ((s.mem.bank i).write a v) := rfl
@[simp] theorem writePixel_lc (i : BankId) (a : Nat) (v : Word) (s : State) : (s.writePixel i a v).lc = s.lc := rfl
@[simp] theorem writePixel_fsm (i : BankId) (a : Nat) (v : Word) (s : State) : (s.writePixel i a v).fsm = s.fsm := rfl
@[simp] theorem writePixel_rom (i : BankId) (a : Nat) (v : Word) (s : State) : (s.writePixel i a v).rom = s.rom := rfl
@[simp] theorem writePixel_romSeen (i : BankId) (a : Nat) (v : Word) (s : State) : (s.writePixel i a v).romSeen = s.romSeen := rfl
@[simp] theorem writePixel_epoch (i : BankId) (a : Nat) (v : Word) (s : State) : (s.writePixel i a v).epoch = s.epoch := rfl
@[simp] theorem writePixel_draws (i : BankId) (a : Nat) (v : Word) (s : State) : (s.writePixel i a v).draws = s.draws := rfl
@[simp] theorem writePixel_hostData (i : BankId) (a : Nat) (v : Word) (s : State) : (s.writePixel i a v).hostData = s.hostData := rfl
@[simp] theorem writePixel_soData (i : BankId) (a : Nat) (v : Word) (s : State) : (s.writePixel i a v).soData = s.soData := rfl
@[simp] theorem writePixel_host (i : BankId) (a : Nat) (v : Word) (s : State) : (s.writePixel i a v).host = s.host := rfl
@[simp] theorem writePixel_schedule (i : BankId) (a : Nat) (v : Word) (s : State) : (s.writePixel i a v).schedule = s.schedule := rfl

/-! ### zeroBank -/

@[simp] theorem zeroBank_params (i : BankId) (n : Nat) (s : State) : (s.zeroBank i n).params = s.params := rfl
@[simp] theorem zeroBank_done (i : BankId) (n : Nat) (s : State) : (s.zeroBank i n).done = s.done := rfl
@[simp] theorem zeroBank_err (i : BankId) (n : Nat) (s : State) : (s.zeroBank i n).err = s.err := rfl
@[simp] theorem zeroBank_ovr (i : BankId) (n : Nat) (s : State) : (s.zeroBank i n).ovr = s.ovr := rfl
@[simp] theorem zeroBank_errCode (i : BankId) (n : Nat) (s : State) : (s.zeroBank i n).errCode = s.errCode := rfl
@[simp] theorem zeroBank_irqEn (i : BankId) (n : Nat) (s : State) : (s.zeroBank i n).irqEn = s.irqEn := rfl
@[simp] theorem zeroBank_fbW (i : BankId) (n : Nat) (s : State) : (s.zeroBank i n).fbW = s.fbW := rfl
@[simp] theorem zeroBank_fbH (i : BankId) (n : Nat) (s : State) : (s.zeroBank i n).fbH = s.fbH := rfl
@[simp] theorem zeroBank_arg0 (i : BankId) (n : Nat) (s : State) : (s.zeroBank i n).arg0 = s.arg0 := rfl
@[simp] theorem zeroBank_arg1 (i : BankId) (n : Nat) (s : State) : (s.zeroBank i n).arg1 = s.arg1 := rfl
@[simp] theorem zeroBank_arg2 (i : BankId) (n : Nat) (s : State) : (s.zeroBank i n).arg2 = s.arg2 := rfl
@[simp] theorem zeroBank_result (i : BankId) (n : Nat) (s : State) : (s.zeroBank i n).result = s.result := rfl
@[simp] theorem zeroBank_texW (i : BankId) (n : Nat) (s : State) : (s.zeroBank i n).texW = s.texW := rfl
@[simp] theorem zeroBank_texH (i : BankId) (n : Nat) (s : State) : (s.zeroBank i n).texH = s.texH := rfl
@[simp] theorem zeroBank_texAddr (i : BankId) (n : Nat) (s : State) : (s.zeroBank i n).texAddr = s.texAddr := rfl
@[simp] theorem zeroBank_fbAddr (i : BankId) (n : Nat) (s : State) : (s.zeroBank i n).fbAddr = s.fbAddr := rfl
@[simp] theorem zeroBank_frontSel (i : BankId) (n : Nat) (s : State) : (s.zeroBank i n).frontSel = s.frontSel := rfl
@[simp] theorem zeroBank_cfg (i : BankId) (n : Nat) (s : State) : (s.zeroBank i n).cfg = s.cfg := rfl
@[simp] theorem zeroBank_mem (i : BankId) (n : Nat) (s : State) : (s.zeroBank i n).mem = s.mem.setBank i ((s.mem.bank i).zero n) := rfl
@[simp] theorem zeroBank_lc (i : BankId) (n : Nat) (s : State) : (s.zeroBank i n).lc = s.lc := rfl
@[simp] theorem zeroBank_fsm (i : BankId) (n : Nat) (s : State) : (s.zeroBank i n).fsm = s.fsm := rfl
@[simp] theorem zeroBank_rom (i : BankId) (n : Nat) (s : State) : (s.zeroBank i n).rom = s.rom := rfl
@[simp] theorem zeroBank_romSeen (i : BankId) (n : Nat) (s : State) : (s.zeroBank i n).romSeen = s.romSeen := rfl
@[simp] theorem zeroBank_epoch (i : BankId) (n : Nat) (s : State) : (s.zeroBank i n).epoch = s.epoch := rfl
@[simp] theorem zeroBank_draws (i : BankId) (n : Nat) (s : State) : (s.zeroBank i n).draws = s.draws := rfl
@[simp] theorem zeroBank_hostData (i : BankId) (n : Nat) (s : State) : (s.zeroBank i n).hostData = s.hostData := rfl
@[simp] theorem zeroBank_soData (i : BankId) (n : Nat) (s : State) : (s.zeroBank i n).soData = s.soData := rfl
@[simp] theorem zeroBank_host (i : BankId) (n : Nat) (s : State) : (s.zeroBank i n).host = s.host := rfl
@[simp] theorem zeroBank_schedule (i : BankId) (n : Nat) (s : State) : (s.zeroBank i n).schedule = s.schedule := rfl

/-! ### writeTexel -/

@[simp] theorem writeTexel_params (a : Nat) (v : Texel) (s : State) : (s.writeTexel a v).params = s.params := rfl
@[simp] theorem writeTexel_done (a : Nat) (v : Texel) (s : State) : (s.writeTexel a v).done = s.done := rfl
@[simp] theorem writeTexel_err (a : Nat) (v : Texel) (s : State) : (s.writeTexel a v).err = s.err := rfl
@[simp] theorem writeTexel_ovr (a : Nat) (v : Texel) (s : State) : (s.writeTexel a v).ovr = s.ovr := rfl
@[simp] theorem writeTexel_errCode (a : Nat) (v : Texel) (s : State) : (s.writeTexel a v).errCode = s.errCode := rfl
@[simp] theorem writeTexel_irqEn (a : Nat) (v : Texel) (s : State) : (s.writeTexel a v).irqEn = s.irqEn := rfl
@[simp] theorem writeTexel_fbW (a : Nat) (v : Texel) (s : State) : (s.writeTexel a v).fbW = s.fbW := rfl
@[simp] theorem writeTexel_fbH (a : Nat) (v : Texel) (s : State) : (s.writeTexel a v).fbH = s.fbH := rfl
@[simp] theorem writeTexel_arg0 (a : Nat) (v : Texel) (s : State) : (s.writeTexel a v).arg0 = s.arg0 := rfl
@[simp] theorem writeTexel_arg1 (a : Nat) (v : Texel) (s : State) : (s.writeTexel a v).arg1 = s.arg1 := rfl
@[simp] theorem writeTexel_arg2 (a : Nat) (v : Texel) (s : State) : (s.writeTexel a v).arg2 = s.arg2 := rfl
@[simp] theorem writeTexel_result (a : Nat) (v : Texel) (s : State) : (s.writeTexel a v).result = s.result := rfl
@[simp] theorem writeTexel_texW (a : Nat) (v : Texel) (s : State) : (s.writeTexel a v).texW = s.texW := rfl
@[simp] theorem writeTexel_texH (a : Nat) (v : Texel) (s : State) : (s.writeTexel a v).texH = s.texH := rfl
@[simp] theorem writeTexel_texAddr (a : Nat) (v : Texel) (s : State) : (s.writeTexel a v).texAddr = s.texAddr := rfl
@[simp] theorem writeTexel_fbAddr (a : Nat) (v : Texel) (s : State) : (s.writeTexel a v).fbAddr = s.fbAddr := rfl
@[simp] theorem writeTexel_frontSel (a : Nat) (v : Texel) (s : State) : (s.writeTexel a v).frontSel = s.frontSel := rfl
@[simp] theorem writeTexel_cfg (a : Nat) (v : Texel) (s : State) : (s.writeTexel a v).cfg = s.cfg := rfl
@[simp] theorem writeTexel_mem (a : Nat) (v : Texel) (s : State) : (s.writeTexel a v).mem = { s.mem with tex := cellsPut a v s.mem.tex } := rfl
@[simp] theorem writeTexel_lc (a : Nat) (v : Texel) (s : State) : (s.writeTexel a v).lc = s.lc := rfl
@[simp] theorem writeTexel_fsm (a : Nat) (v : Texel) (s : State) : (s.writeTexel a v).fsm = s.fsm := rfl
@[simp] theorem writeTexel_rom (a : Nat) (v : Texel) (s : State) : (s.writeTexel a v).rom = s.rom := rfl
@[simp] theorem writeTexel_romSeen (a : Nat) (v : Texel) (s : State) : (s.writeTexel a v).romSeen = s.romSeen := rfl
@[simp] theorem writeTexel_epoch (a : Nat) (v : Texel) (s : State) : (s.writeTexel a v).epoch = s.epoch := rfl
@[simp] theorem writeTexel_draws (a : Nat) (v : Texel) (s : State) : (s.writeTexel a v).draws = s.draws := rfl
@[simp] theorem writeTexel_hostData (a : Nat) (v : Texel) (s : State) : (s.writeTexel a v).hostData = s.hostData := rfl
@[simp] theorem writeTexel_soData (a : Nat) (v : Texel) (s : State) : (s.writeTexel a v).soData = s.soData := rfl
@[simp] theorem writeTexel_host (a : Nat) (v : Texel) (s : State) : (s.writeTexel a v).host = s.host := rfl
@[simp] theorem writeTexel_schedule (a : Nat) (v : Texel) (s : State) : (s.writeTexel a v).schedule = s.schedule := rfl

/-! ### setProgram -/

@[simp] theorem setProgram_params (p : List HostOp) (s : State) : (s.setProgram p).params = s.params := rfl
@[simp] theorem setProgram_done (p : List HostOp) (s : State) : (s.setProgram p).done = s.done := rfl
@[simp] theorem setProgram_err (p : List HostOp) (s : State) : (s.setProgram p).err = s.err := rfl
@[simp] theorem setProgram_ovr (p : List HostOp) (s : State) : (s.setProgram p).ovr = s.ovr := rfl
@[simp] theorem setProgram_errCode (p : List HostOp) (s : State) : (s.setProgram p).errCode = s.errCode := rfl
@[simp] theorem setProgram_irqEn (p : List HostOp) (s : State) : (s.setProgram p).irqEn = s.irqEn := rfl
@[simp] theorem setProgram_fbW (p : List HostOp) (s : State) : (s.setProgram p).fbW = s.fbW := rfl
@[simp] theorem setProgram_fbH (p : List HostOp) (s : State) : (s.setProgram p).fbH = s.fbH := rfl
@[simp] theorem setProgram_arg0 (p : List HostOp) (s : State) : (s.setProgram p).arg0 = s.arg0 := rfl
@[simp] theorem setProgram_arg1 (p : List HostOp) (s : State) : (s.setProgram p).arg1 = s.arg1 := rfl
@[simp] theorem setProgram_arg2 (p : List HostOp) (s : State) : (s.setProgram p).arg2 = s.arg2 := rfl
@[simp] theorem setProgram_result (p : List HostOp) (s : State) : (s.setProgram p).result = s.result := rfl
@[simp] theorem setProgram_texW (p : List HostOp) (s : State) : (s.setProgram p).texW = s.texW := rfl
@[simp] theorem setProgram_texH (p : List HostOp) (s : State) : (s.setProgram p).texH = s.texH := rfl
@[simp] theorem setProgram_texAddr (p : List HostOp) (s : State) : (s.setProgram p).texAddr = s.texAddr := rfl
@[simp] theorem setProgram_fbAddr (p : List HostOp) (s : State) : (s.setProgram p).fbAddr = s.fbAddr := rfl
@[simp] theorem setProgram_frontSel (p : List HostOp) (s : State) : (s.setProgram p).frontSel = s.frontSel := rfl
@[simp] theorem setProgram_cfg (p : List HostOp) (s : State) : (s.setProgram p).cfg = s.cfg := rfl
@[simp] theorem setProgram_mem (p : List HostOp) (s : State) : (s.setProgram p).mem = s.mem := rfl
@[simp] theorem setProgram_lc (p : List HostOp) (s : State) : (s.setProgram p).lc = s.lc := rfl
@[simp] theorem setProgram_fsm (p : List HostOp) (s : State) : (s.setProgram p).fsm = s.fsm := rfl
@[simp] theorem setProgram_rom (p : List HostOp) (s : State) : (s.setProgram p).rom = s.rom := rfl
@[simp] theorem setProgram_romSeen (p : List HostOp) (s : State) : (s.setProgram p).romSeen = s.romSeen := rfl
@[simp] theorem setProgram_epoch (p : List HostOp) (s : State) : (s.setProgram p).epoch = s.epoch := rfl
@[simp] theorem setProgram_draws (p : List HostOp) (s : State) : (s.setProgram p).draws = s.draws := rfl
@[simp] theorem setProgram_hostData (p : List HostOp) (s : State) : (s.setProgram p).hostData = s.hostData := rfl
@[simp] theorem setProgram_soData (p : List HostOp) (s : State) : (s.setProgram p).soData = s.soData := rfl
@[simp] theorem setProgram_host (p : List HostOp) (s : State) : (s.setProgram p).host = { s.host with program := p } := rfl
@[simp] theorem setProgram_schedule (p : List HostOp) (s : State) : (s.setProgram p).schedule = s.schedule := rfl

/-! ### bind -/

@[simp] theorem bind_params (x : Nat) (v : Word) (s : State) : (s.bind x v).params = s.params := rfl
@[simp] theorem bind_done (x : Nat) (v : Word) (s : State) : (s.bind x v).done = s.done := rfl
@[simp] theorem bind_err (x : Nat) (v : Word) (s : State) : (s.bind x v).err = s.err := rfl
@[simp] theorem bind_ovr (x : Nat) (v : Word) (s : State) : (s.bind x v).ovr = s.ovr := rfl
@[simp] theorem bind_errCode (x : Nat) (v : Word) (s : State) : (s.bind x v).errCode = s.errCode := rfl
@[simp] theorem bind_irqEn (x : Nat) (v : Word) (s : State) : (s.bind x v).irqEn = s.irqEn := rfl
@[simp] theorem bind_fbW (x : Nat) (v : Word) (s : State) : (s.bind x v).fbW = s.fbW := rfl
@[simp] theorem bind_fbH (x : Nat) (v : Word) (s : State) : (s.bind x v).fbH = s.fbH := rfl
@[simp] theorem bind_arg0 (x : Nat) (v : Word) (s : State) : (s.bind x v).arg0 = s.arg0 := rfl
@[simp] theorem bind_arg1 (x : Nat) (v : Word) (s : State) : (s.bind x v).arg1 = s.arg1 := rfl
@[simp] theorem bind_arg2 (x : Nat) (v : Word) (s : State) : (s.bind x v).arg2 = s.arg2 := rfl
@[simp] theorem bind_result (x : Nat) (v : Word) (s : State) : (s.bind x v).result = s.result := rfl
@[simp] theorem bind_texW (x : Nat) (v : Word) (s : State) : (s.bind x v).texW = s.texW := rfl
@[simp] theorem bind_texH (x : Nat) (v : Word) (s : State) : (s.bind x v).texH = s.texH := rfl
@[simp] theorem bind_texAddr (x : Nat) (v : Word) (s : State) : (s.bind x v).texAddr = s.texAddr := rfl
@[simp] theorem bind_fbAddr (x : Nat) (v : Word) (s : State) : (s.bind x v).fbAddr = s.fbAddr := rfl
@[simp] theorem bind_frontSel (x : Nat) (v : Word) (s : State) : (s.bind x v).frontSel = s.frontSel := rfl
@[simp] theorem bind_cfg (x : Nat) (v : Word) (s : State) : (s.bind x v).cfg = s.cfg := rfl
@[simp] theorem bind_mem (x : Nat) (v : Word) (s : State) : (s.bind x v).mem = s.mem := rfl
@[simp] theorem bind_lc (x : Nat) (v : Word) (s : State) : (s.bind x v).lc = s.lc := rfl
@[simp] theorem bind_fsm (x : Nat) (v : Word) (s : State) : (s.bind x v).fsm = s.fsm := rfl
@[simp] theorem bind_rom (x : Nat) (v : Word) (s : State) : (s.bind x v).rom = s.rom := rfl
@[simp] theorem bind_romSeen (x : Nat) (v : Word) (s : State) : (s.bind x v).romSeen = s.romSeen := rfl
@[simp] theorem bind_epoch (x : Nat) (v : Word) (s : State) : (s.bind x v).epoch = s.epoch := rfl
@[simp] theorem bind_draws (x : Nat) (v : Word) (s : State) : (s.bind x v).draws = s.draws := rfl
@[simp] theorem bind_hostData (x : Nat) (v : Word) (s : State) : (s.bind x v).hostData = s.hostData := rfl
@[simp] theorem bind_soData (x : Nat) (v : Word) (s : State) : (s.bind x v).soData = s.soData := rfl
@[simp] theorem bind_host (x : Nat) (v : Word) (s : State) : (s.bind x v).host = s.host.setVar x v := rfl
@[simp] theorem bind_schedule (x : Nat) (v : Word) (s : State) : (s.bind x v).schedule = s.schedule := rfl

/-! ### placeCommand -/

@[simp] theorem placeCommand_params (c : Command) (s : State) : (placeCommand c s).params = s.params := rfl
@[simp] theorem placeCommand_done (c : Command) (s : State) : (placeCommand c s).done = s.done := rfl
@[simp] theorem placeCommand_err (c : Command) (s : State) : (placeCommand c s).err = s.err := rfl
@[simp] theorem placeCommand_ovr (c : Command) (s : State) : (placeCommand c s).ovr = s.ovr := rfl
@[simp] theorem placeCommand_errCode (c : Command) (s : State) : (placeCommand c s).errCode = s.errCode := rfl
@[simp] theorem placeCommand_irqEn (c : Command) (s : State) : (placeCommand c s).irqEn = s.irqEn := rfl
@[simp] theorem placeCommand_fbW (c : Command) (s : State) : (placeCommand c s).fbW = s.fbW := rfl
@[simp] theorem placeCommand_fbH (c : Command) (s : State) : (placeCommand c s).fbH = s.fbH := rfl
@[simp] theorem placeCommand_arg0 (c : Command) (s : State) : (placeCommand c s).arg0 = s.arg0 := rfl
@[simp] theorem placeCommand_arg1 (c : Command) (s : State) : (placeCommand c s).arg1 = s.arg1 := rfl
@[simp] theorem placeCommand_arg2 (c : Command) (s : State) : (placeCommand c s).arg2 = s.arg2 := rfl
@[simp] theorem placeCommand_result (c : Command) (s : State) : (placeCommand c s).result = s.result := rfl
@[simp] theorem placeCommand_texW (c : Command) (s : State) : (placeCommand c s).texW = s.texW := rfl
@[simp] theorem placeCommand_texH (c : Command) (s : State) : (placeCommand c s).texH = s.texH := rfl
@[simp] theorem placeCommand_texAddr (c : Command) (s : State) : (placeCommand c s).texAddr = s.texAddr := rfl
@[simp] theorem placeCommand_fbAddr (c : Command) (s : State) : (placeCommand c s).fbAddr = s.fbAddr := rfl
@[simp] theorem placeCommand_frontSel (c : Command) (s : State) : (placeCommand c s).frontSel = s.frontSel := rfl
@[simp] theorem placeCommand_cfg (c : Command) (s : State) : (placeCommand c s).cfg = s.cfg := rfl
@[simp] theorem placeCommand_mem (c : Command) (s : State) : (placeCommand c s).mem = s.mem := rfl
@[simp] theorem placeCommand_lc (c : Command) (s : State) : (placeCommand c s).lc = some c := rfl
@[simp] theorem placeCommand_fsm (c : Command) (s : State) : (placeCommand c s).fsm = s.fsm := rfl
@[simp] theorem placeCommand_rom (c : Command) (s : State) : (placeCommand c s).rom = s.rom := rfl
@[simp] theorem placeCommand_romSeen (c : Command) (s : State) : (placeCommand c s).romSeen = s.romSeen := rfl
@[simp] theorem placeCommand_epoch (c : Command) (s : State) : (placeCommand c s).epoch = s.epoch := rfl
@[simp] theorem placeCommand_draws (c : Command) (s : State) : (placeCommand c s).draws = s.draws := rfl
@[simp] theorem placeCommand_hostData (c : Command) (s : State) : (placeCommand c s).hostData = s.hostData := rfl
@[simp] theorem placeCommand_soData (c : Command) (s : State) : (placeCommand c s).soData = s.soData := rfl
@[simp] theorem placeCommand_host (c : Command) (s : State) : (placeCommand c s).host = s.host := rfl
@[simp] theorem placeCommand_schedule (c : Command) (s : State) : (placeCommand c s).schedule = .engine :: s.schedule := rfl

/-! ### Completion with error, as one record update -/

/-- Everything a completion with error does (R212). -/
theorem completeError_eq (e : ErrCode) (s : State) :
    completeError e s =
      { s with
        err := true, errCode := if s.err then s.errCode else e
        lc := none, fsm := .idle, romSeen := [], done := true } := by
  cases h : s.err <;> simp [completeError, complete, recordError, h]

/-- Everything a successful completion does (R213). -/
theorem complete_eq (s : State) : complete s = { s with lc := none, fsm := .idle, romSeen := [], done := true } := rfl

end Sys2Proof.Machine
end

