-- ==== Sys2Proof/Laws/Memory.lean ====
section
/-! SUPPORT. The memories: a read after a write, what a write leaves alone, and that every memory operation keeps the
canonical form `Memory.wf`. -/

namespace Sys2Proof.Machine

/-! ### Sparse lists -/

section Cells
variable {α : Type}

@[simp] theorem cellsFind_put_same (a : Nat) (v : α) (m : List (Nat × α)) : cellsFind a (cellsPut a v m) = some v := by
  induction m with
  | nil => simp [cellsPut, cellsFind]
  | cons c m ih =>
    obtain ⟨b, w⟩ := c
    unfold cellsPut
    split
    · simp [cellsFind]
    · split
      · simp [cellsFind]
      · rename_i h1 h2
        simp [cellsFind, h2, ih]

theorem cellsFind_put_other {a b : Nat} (h : b ≠ a) (v : α) (m : List (Nat × α)) :
    cellsFind b (cellsPut a v m) = cellsFind b m := by
  induction m with
  | nil => simp [cellsPut, cellsFind, h]
  | cons c m ih =>
    obtain ⟨x, w⟩ := c
    unfold cellsPut
    split
    · simp [cellsFind, h]
    · split
      · rename_i h2
        subst h2
        simp [cellsFind, h]
      · simp only [cellsFind, ih]

@[simp] theorem cellsFind_erase (a b : Nat) (m : List (Nat × α)) :
    cellsFind b (cellsErase a m) = if b = a then none else cellsFind b m := by
  induction m with
  | nil => simp [cellsErase, cellsFind]
  | cons c m ih =>
    obtain ⟨x, w⟩ := c
    simp only [cellsErase] at ih
    by_cases hx : x = a
    · subst hx
      simp only [cellsErase, List.filter_cons, bne_self_eq_false, Bool.false_eq_true, if_false, ih, cellsFind]
      split <;> simp_all
    · simp only [cellsErase, List.filter_cons, bne_iff_ne, ne_eq, hx, not_false_eq_true, if_true, cellsFind, ih]
      split
      · rename_i hb
        subst hb
        simp [hx]
      · rfl

@[simp] theorem cellsFind_from (n b : Nat) (m : List (Nat × α)) :
    cellsFind b (cellsFrom n m) = if n ≤ b then cellsFind b m else none := by
  induction m with
  | nil => simp [cellsFrom, cellsFind]
  | cons c m ih =>
    obtain ⟨x, w⟩ := c
    simp only [cellsFrom] at ih
    by_cases hx : n ≤ x
    · simp only [cellsFrom, List.filter_cons, decide_eq_true_eq, hx, if_true, cellsFind, ih]
      split
      · rename_i hb
        subst hb
        simp [hx]
      · rfl
    · simp only [cellsFrom, List.filter_cons, decide_eq_true_eq, hx, if_false, ih, cellsFind]
      split
      · split
        · omega
        · rfl
      · rfl

/-- What is listed after a write is the unit written or was listed before. -/
theorem mem_cellsPut {a : Nat} {v : α} {m : List (Nat × α)} {c : Nat × α} (h : c ∈ cellsPut a v m) :
    c = (a, v) ∨ c ∈ m := by
  induction m with
  | nil => simpa [cellsPut] using h
  | cons d m ih =>
    obtain ⟨x, w⟩ := d
    unfold cellsPut at h
    split at h
    · simpa using h
    · split at h
      · simp only [List.mem_cons] at h
        rcases h with h | h
        · exact .inl h
        · exact .inr (List.mem_cons_of_mem _ h)
      · simp only [List.mem_cons] at h
        rcases h with h | h
        · exact .inr (by simp [h])
        · rcases ih h with h | h
          · exact .inl h
          · exact .inr (List.mem_cons_of_mem _ h)

theorem mem_cellsErase {a : Nat} {m : List (Nat × α)} {c : Nat × α} : c ∈ cellsErase a m ↔ c ∈ m ∧ c.1 ≠ a := by
  simp [cellsErase]

theorem mem_cellsFrom {n : Nat} {m : List (Nat × α)} {c : Nat × α} : c ∈ cellsFrom n m ↔ c ∈ m ∧ n ≤ c.1 := by
  simp [cellsFrom]

theorem cellsRising_iff (m : List (Nat × α)) : cellsRising m = true ↔ m.Pairwise (fun c d => c.1 < d.1) := by
  simp [cellsRising, List.pairwise_map]

theorem cellsPut_rising {m : List (Nat × α)} (h : cellsRising m = true) (a : Nat) (v : α) :
    cellsRising (cellsPut a v m) = true := by
  rw [cellsRising_iff] at h ⊢
  induction m with
  | nil => simp [cellsPut]
  | cons d m ih =>
    obtain ⟨x, w⟩ := d
    obtain ⟨h1, h2⟩ := List.pairwise_cons.mp h
    unfold cellsPut
    split
    · rename_i hax
      refine List.pairwise_cons.mpr ⟨fun c hc => ?_, h⟩
      rcases List.mem_cons.mp hc with hc | hc
      · subst hc; exact hax
      · exact Nat.lt_trans hax (h1 c hc)
    · split
      · rename_i hax
        subst hax
        exact List.pairwise_cons.mpr ⟨h1, h2⟩
      · rename_i hax hne
        refine List.pairwise_cons.mpr ⟨fun c hc => ?_, ih h2⟩
        rcases mem_cellsPut hc with hc | hc
        · subst hc; simp only; omega
        · exact h1 c hc

theorem cellsErase_rising {m : List (Nat × α)} (h : cellsRising m = true) (a : Nat) :
    cellsRising (cellsErase a m) = true := by
  rw [cellsRising_iff] at h ⊢
  exact h.filter _

theorem cellsFrom_rising {m : List (Nat × α)} (h : cellsRising m = true) (n : Nat) :
    cellsRising (cellsFrom n m) = true := by
  rw [cellsRising_iff] at h ⊢
  exact h.filter _

end Cells

/-! ### Banks -/

/-- A read after a write: the value written at its address, the old value elsewhere. -/
theorem Bank.read_write (e n : Nat) (b : Bank) (a : Nat) (v : Word) (x : Nat) :
    (b.write a v).read e n x = if x = a then v else b.read e n x := by
  unfold Bank.write
  split
  · rename_i h
    by_cases hx : x = a
    · subst hx
      simp [Bank.read, h.1, h.2]
    · simp [Bank.read, hx]
  · by_cases hx : x = a
    · subst hx
      simp [Bank.read]
    · simp [Bank.read, hx, cellsFind_put_other hx]

/-- A read after the first n pixels were zeroed. -/
theorem Bank.read_zero (e num : Nat) (b : Bank) (n x : Nat) :
    (b.zero n).read e num x = if x < n then 0 else b.read e num x := by
  by_cases hx : x < n
  · have h1 : ¬ n ≤ x := by omega
    have h2 : x < max b.zeroed n := by omega
    simp [Bank.zero, Bank.read, hx, h1, h2]
  · have h1 : n ≤ x := by omega
    have h2 : (x < max b.zeroed n) = (x < b.zeroed) := by
      apply propext; omega
    simp [Bank.zero, Bank.read, h1, h2, hx]

theorem Bank.wf_iff (b : Bank) :
    b.wf = true ↔ cellsRising b.cells = true ∧ ∀ c ∈ b.cells, c.1 < b.zeroed → c.2 ≠ 0 := by
  simp only [Bank.wf, Bool.and_eq_true, List.all_eq_true, decide_eq_true_eq]

/-- A write keeps a bank's canonical form. -/
theorem Bank.write_wf {b : Bank} (h : b.wf = true) (a : Nat) (v : Word) : (b.write a v).wf = true := by
  rw [Bank.wf_iff] at h ⊢
  unfold Bank.write
  split
  · exact ⟨cellsErase_rising h.1 a, fun c hc => h.2 c (mem_cellsErase.mp hc).1⟩
  · rename_i hn
    refine ⟨cellsPut_rising h.1 a v, fun c hc hz => ?_⟩
    rcases mem_cellsPut hc with hc | hc
    · subst hc
      exact fun hv => hn ⟨hz, hv⟩
    · exact h.2 c hc hz

/-- Zeroing keeps a bank's canonical form. -/
theorem Bank.zero_wf {b : Bank} (h : b.wf = true) (n : Nat) : (b.zero n).wf = true := by
  rw [Bank.wf_iff] at h ⊢
  refine ⟨cellsFrom_rising h.1 n, fun c hc hz => ?_⟩
  obtain ⟨hc, hn⟩ := mem_cellsFrom.mp hc
  exact h.2 c hc (by simp only [Bank.zero] at hz; omega)

/-! ### The memories -/

@[simp] theorem Memory.bank_setBank_same (m : Memory) (i : BankId) (b : Bank) : (m.setBank i b).bank i = b := by
  cases i <;> rfl

@[simp] theorem Memory.bank_setBank_other (m : Memory) (i : BankId) (b : Bank) :
    (m.setBank i b).bank i.other = m.bank i.other := by
  cases i <;> rfl

@[simp] theorem Memory.bank_setBank_self_of_other (m : Memory) (i : BankId) (b : Bank) :
    (m.setBank i.other b).bank i = m.bank i := by
  cases i <;> rfl

@[simp] theorem Memory.setBank_tex (m : Memory) (i : BankId) (b : Bank) : (m.setBank i b).tex = m.tex := by
  cases i <;> rfl

@[simp] theorem BankId.other_other (i : BankId) : i.other.other = i := by cases i <;> rfl

@[simp] theorem BankId.other_ne (i : BankId) : i.other ≠ i := by cases i <;> decide

theorem BankId.eq_or_eq_other (i j : BankId) : j = i ∨ j = i.other := by cases i <;> cases j <;> simp [BankId.other]

theorem Memory.wf_iff (m : Memory) :
    m.wf = true ↔ m.fb0.wf = true ∧ m.fb1.wf = true ∧ cellsRising m.tex = true := by
  simp [Memory.wf, and_assoc]

theorem Memory.bank_wf {m : Memory} (h : m.wf = true) (i : BankId) : (m.bank i).wf = true := by
  rw [Memory.wf_iff] at h
  cases i
  · exact h.1
  · exact h.2.1

theorem Memory.setBank_wf {m : Memory} (h : m.wf = true) (i : BankId) {b : Bank} (hb : b.wf = true) :
    (m.setBank i b).wf = true := by
  rw [Memory.wf_iff] at h ⊢
  cases i
  · exact ⟨hb, h.2⟩
  · exact ⟨h.1, hb, h.2.2⟩

/-- What a pixel reads as after a pixel write. -/
theorem readPixel_writePixel (s : State) (i j : BankId) (a x : Nat) (v : Word) :
    (s.writePixel i a v).readPixel j x = if j = i ∧ x = a then v else s.readPixel j x := by
  rcases BankId.eq_or_eq_other i j with h | h
  · subst h
    simp [State.readPixel, Bank.read_write]
  · subst h
    simp [State.readPixel]

/-- What a pixel reads as after a bank's first n pixels were zeroed. -/
theorem readPixel_zeroBank (s : State) (i j : BankId) (n x : Nat) :
    (s.zeroBank i n).readPixel j x = if j = i ∧ x < n then 0 else s.readPixel j x := by
  rcases BankId.eq_or_eq_other i j with h | h
  · subst h
    simp [State.readPixel, Bank.read_zero]
  · subst h
    simp [State.readPixel]

/-- What a texture entry reads as after an entry was written. -/
theorem readTexel_writeTexel (s : State) (a x : Nat) (v : Texel) :
    (s.writeTexel a v).readTexel x = if x = a then v else s.readTexel x := by
  by_cases h : x = a
  · subst h
    simp [State.readTexel]
  · simp [State.readTexel, cellsFind_put_other h, h]

@[simp] theorem readTexel_writePixel (s : State) (i : BankId) (a x : Nat) (v : Word) :
    (s.writePixel i a v).readTexel x = s.readTexel x := by
  simp [State.readTexel]

@[simp] theorem readTexel_zeroBank (s : State) (i : BankId) (n x : Nat) :
    (s.zeroBank i n).readTexel x = s.readTexel x := by
  simp [State.readTexel]

@[simp] theorem readPixel_writeTexel (s : State) (a : Nat) (v : Texel) (i : BankId) (x : Nat) :
    (s.writeTexel a v).readPixel i x = s.readPixel i x := by
  cases i <;> rfl

/-- The three memory operations keep the canonical form. -/
theorem writePixel_wf {s : State} (h : s.mem.wf = true) (i : BankId) (a : Nat) (v : Word) :
    (s.writePixel i a v).mem.wf = true :=
  Memory.setBank_wf h i (Bank.write_wf (Memory.bank_wf h i) a v)

theorem zeroBank_wf {s : State} (h : s.mem.wf = true) (i : BankId) (n : Nat) : (s.zeroBank i n).mem.wf = true :=
  Memory.setBank_wf h i (Bank.zero_wf (Memory.bank_wf h i) n)

theorem writeTexel_wf {s : State} (h : s.mem.wf = true) (a : Nat) (v : Texel) : (s.writeTexel a v).mem.wf = true := by
  rw [Memory.wf_iff] at h ⊢
  exact ⟨h.1, h.2.1, cellsPut_rising h.2.2 a v⟩

/-- The memories after reset are in canonical form. -/
theorem reset_mem_wf : State.reset.mem.wf = true := by decide

/-! ### Loops -/

/-- What holds before a loop and is kept by each of its rounds holds after it. -/
theorem forUpto_keeps {σ : Type} (P : σ → Prop) (body : Nat → σ → σ) (n : Nat) (s : σ) (h0 : P s)
    (hb : ∀ k t, k < n → P t → P (body k t)) : P (forUpto body n s) := by
  induction n with
  | zero => exact h0
  | succ n ih => exact hb n _ (Nat.lt_succ_self n) (ih fun k t hk => hb k t (Nat.lt_succ_of_lt hk))

/-- A loop's invariant that counts its rounds. -/
theorem forUpto_counts {σ : Type} (P : Nat → σ → Prop) (body : Nat → σ → σ) (n : Nat) (s : σ) (h0 : P 0 s)
    (hb : ∀ k t, k < n → P k t → P (k + 1) (body k t)) : P n (forUpto body n s) := by
  induction n with
  | zero => exact h0
  | succ n ih => exact hb n _ (Nat.lt_succ_self n) (ih fun k t hk => hb k t (Nat.lt_succ_of_lt hk))

end Sys2Proof.Machine
end

