-- ==== Sys2Proof/Laws/Draw.lean ====
section
/-! SUPPORT. The codec's and the drawing operations' spec lemmas: what each can change, and that the memories stay in
canonical form. -/

namespace Sys2Proof.Machine

/-! ### Codec -/

@[simp] theorem validCode_iff (c : Int) : validCode c = true ↔ 1 ≤ c ∧ c ≤ 512 := by simp [validCode]

@[simp] theorem inDomain_iff (v : Int) : inDomain v = true ↔ 0 ≤ v ∧ v ≤ 7 := by simp [inDomain]

/-- "skip(c) = not valid(c)" (R180). -/
theorem skipCode_eq (c : Int) : skipCode c = !validCode c := by
  rw [Bool.eq_iff_iff]
  simp [skipCode, validCode]
  omega

/-- The channel indices of a valid code are 3-bit numbers. -/
theorem codeIndices_le {c : Int} (h : validCode c = true) :
    (codeIndices c).1 ≤ 7 ∧ (codeIndices c).2.1 ≤ 7 ∧ (codeIndices c).2.2 ≤ 7 := by
  rw [validCode_iff] at h
  simp only [codeIndices]
  omega

theorem decodeWord_of_invalid {c : Int} (h : validCode c = false) : decodeWord c = 0xFF000000#32 := by
  simp [decodeWord, paletteDecode, h, pixelWord]

/-- A pixel word's four samples (R66). -/
theorem pixelWord_bytes (r g b a : Nat) :
    (pixelWord r g b a).extractLsb' 0 8 = BitVec.ofNat 8 r ∧ (pixelWord r g b a).extractLsb' 8 8 = BitVec.ofNat 8 g ∧
      (pixelWord r g b a).extractLsb' 16 8 = BitVec.ofNat 8 b ∧
      (pixelWord r g b a).extractLsb' 24 8 = BitVec.ofNat 8 a :=
  extract_bytes _ _ _ _

/-- A decoded word is opaque (R123: "Every decoded word has A = 255"). -/
theorem decodeWord_alpha (c : Int) : (decodeWord c).extractLsb' 24 8 = 255#8 :=
  (pixelWord_bytes _ _ _ _).2.2.2

theorem decodeWord_ne_zero (c : Int) : decodeWord c ≠ 0 := by
  intro h
  have := decodeWord_alpha c
  rw [h] at this
  exact absurd this (by decide)

/-! ### Plotting -/

@[simp] theorem inBuffer_iff (s : State) (x y : Int) :
    s.inBuffer x y = true ↔ (0 ≤ x ∧ x < s.width) ∧ 0 ≤ y ∧ y < s.height := by
  simp [State.inBuffer, and_assoc]

/-- The address of a pixel in the buffer is below W*H (R62). -/
theorem pixelAddr_lt {s : State} {x y : Int} (h : s.inBuffer x y = true) : s.pixelAddr x y < s.width * s.height := by
  rw [inBuffer_iff] at h
  obtain ⟨⟨hx0, hx⟩, hy0, hy⟩ := h
  obtain ⟨a, rfl⟩ := Int.eq_ofNat_of_zero_le hx0
  obtain ⟨b, rfl⟩ := Int.eq_ofNat_of_zero_le hy0
  have hx' : a < s.width := by exact_mod_cast hx
  have hy' : b < s.height := by exact_mod_cast hy
  have he : s.pixelAddr (a : Int) (b : Int) = b * s.width + a := by
    simp only [State.pixelAddr]
    norm_cast
  rw [he]
  calc b * s.width + a < b * s.width + s.width := by omega
    _ = (b + 1) * s.width := by ring
    _ ≤ s.height * s.width := Nat.mul_le_mul_right _ hy'
    _ = s.width * s.height := Nat.mul_comm _ _

/-- A plot changes the memories only. -/
theorem plot_eq (x y c : Int) (s : State) : plot x y c s = { s with mem := (plot x y c s).mem } := by
  unfold plot
  split <;> rfl

/-- What any pixel of any bank reads as after a plot. -/
theorem readPixel_plot (x y c : Int) (s : State) (j : BankId) (a : Nat) :
    (plot x y c s).readPixel j a =
      if s.inBuffer x y = true ∧ validCode c = true ∧ j = s.back ∧ a = s.pixelAddr x y then decodeWord c
      else s.readPixel j a := by
  unfold plot
  rw [skipCode_eq]
  by_cases h1 : s.inBuffer x y = true
  · by_cases h2 : validCode c = true
    · simp only [h1, h2, Bool.not_true, Bool.not_false, Bool.and_self, if_true, true_and, readPixel_writePixel]
    · simp [h2]
  · simp [h1]

@[simp] theorem readTexel_plot (x y c : Int) (s : State) (a : Nat) : (plot x y c s).readTexel a = s.readTexel a := by
  unfold plot
  split <;> simp

@[simp] theorem plot_tex (x y c : Int) (s : State) : (plot x y c s).mem.tex = s.mem.tex := by
  unfold plot
  split <;> simp

theorem plot_wf {s : State} (h : s.mem.wf = true) (x y c : Int) : (plot x y c s).mem.wf = true := by
  unfold plot
  split
  · exact writePixel_wf h _ _ _
  · exact h

/-- What the loops of RECT keep: everything but the memories; and of these the texture memory and the front bank. -/
theorem drawTexture_keeps (P : State → Prop) (hp : ∀ x y c t, P t → P (plot x y c t)) (xoff yoff : Int) (s : State)
    (h : P s) : P (drawTexture xoff yoff s) := by
  unfold drawTexture
  refine forUpto_keeps P _ _ _ h fun ty t _ ht => ?_
  exact forUpto_keeps P _ _ _ ht fun tx u _ hu => hp _ _ _ u hu

theorem drawTexture_eq (xoff yoff : Int) (s : State) :
    drawTexture xoff yoff s = { s with mem := (drawTexture xoff yoff s).mem } := by
  refine drawTexture_keeps (fun t => t = { s with mem := t.mem }) (fun x y c t ht => ?_) xoff yoff s rfl
  rw [plot_eq]
  rw [ht]

@[simp] theorem drawTexture_tex (xoff yoff : Int) (s : State) : (drawTexture xoff yoff s).mem.tex = s.mem.tex :=
  drawTexture_keeps (fun t => t.mem.tex = s.mem.tex) (fun x y c t ht => by simpa using ht) xoff yoff s rfl

theorem readPixel_drawTexture_front (xoff yoff : Int) (s : State) (a : Nat) :
    (drawTexture xoff yoff s).readPixel s.front a = s.readPixel s.front a := by
  have h := drawTexture_keeps (fun t => t.frontSel = s.frontSel ∧ t.readPixel s.front a = s.readPixel s.front a)
    (fun x y c t ht => ?_) xoff yoff s ⟨rfl, rfl⟩
  · exact h.2
  · refine ⟨by rw [plot_eq]; exact ht.1, ?_⟩
    rw [readPixel_plot]
    have : s.front ≠ t.back := by
      simp only [State.front, State.back, ht.1]
      exact (BankId.other_ne _).symm
    simp [this, ht.2]

theorem drawTexture_wf {s : State} (h : s.mem.wf = true) (xoff yoff : Int) :
    (drawTexture xoff yoff s).mem.wf = true :=
  drawTexture_keeps (fun t => t.mem.wf = true) (fun x y c _ ht => plot_wf ht x y c) xoff yoff s h

/-! ### CONFIG and SWAP -/

/-- Everything the body of CONFIG does. -/
theorem configure_eq (w h : Nat) (s : State) :
    configure w h s =
      { s with
        fbW := ofU32 w, fbH := ofU32 h, frontSel := .fb0, cfg := true
        mem := { s.mem with fb0 := s.mem.fb0.zero (w * h), fb1 := s.mem.fb1.zero (w * h) } } := rfl

theorem configure_wf {s : State} (h : s.mem.wf = true) (w ht : Nat) : (configure w ht s).mem.wf = true := by
  rw [Memory.wf_iff] at h ⊢
  exact ⟨Bank.zero_wf h.1 _, Bank.zero_wf h.2.1 _, h.2.2⟩

/-- Everything the body of SWAP does. -/
theorem swapBanks_eq (s : State) :
    swapBanks s =
      { s with
        frontSel := s.frontSel.other
        mem := s.mem.setBank s.frontSel ((s.mem.bank s.frontSel).zero (s.width * s.height)) } := by
  cases h : s.frontSel <;> simp [swapBanks, State.zeroBank, State.back, State.width, State.height, BankId.other, h]

theorem swapBanks_wf {s : State} (h : s.mem.wf = true) : (swapBanks s).mem.wf = true := by
  rw [swapBanks_eq]
  exact Memory.setBank_wf h _ (Bank.zero_wf (Memory.bank_wf h _) _)

/-! ### A texture draw, pixel by pixel -/

/-- The address of a pixel in natural coordinates. -/
theorem pixelAddr_natCast {s : State} {px py : Nat} : s.pixelAddr px py = py * s.width + px := by
  simp only [State.pixelAddr]; norm_cast

/-- Two pixels of the buffer at one address are one pixel. -/
theorem pixelAddr_inj {s : State} {px py qx qy : Nat} (h1 : px < s.width) (h2 : qx < s.width) (h : py * s.width + px = qy * s.width + qx) : px = qx ∧ py = qy := by
  have hw : 0 < s.width := by omega
  have a : (px + s.width * py) / s.width = py := by rw [Nat.add_mul_div_left _ _ hw, Nat.div_eq_of_lt h1, Nat.zero_add]
  have b : (qx + s.width * qy) / s.width = qy := by rw [Nat.add_mul_div_left _ _ hw, Nat.div_eq_of_lt h2, Nat.zero_add]
  have : px + s.width * py = qx + s.width * qy := by rw [Nat.mul_comm py, Nat.mul_comm qy] at h; omega
  have e : py = qy := by rw [← a, this, b]
  subst e; exact ⟨by omega, rfl⟩

/-- What one row of a texture draw does to a pixel of the back bank. -/
theorem readPixel_drawRow (xoff y : Int) (ce : Nat → Int) (s : State) (n : Nat) (px py : Nat) (hx : px < s.width) (hy : py < s.height) :
    let t := forUpto (fun tx px => plot (xoff + tx) y (ce tx) px) n s
    t = { s with mem := t.mem } ∧ t.mem.tex = s.mem.tex ∧ 
    t.readPixel s.back (py * s.width + px) = if y = py ∧ xoff ≤ px ∧ (px:Int) < xoff + n ∧ validCode (ce ((px:Int) - xoff).toNat) = true then decodeWord (ce ((px:Int) - xoff).toNat) else s.readPixel s.back (py * s.width + px) := by
  induction n with
  | zero => refine ⟨rfl, rfl, ?_⟩; rw [if_neg (by intro h; have := h.2.1; have := h.2.2.1; push_cast at *; omega)]; rfl
  | succ n ih =>
    obtain ⟨h1, h2, h3⟩ := ih
    set t := forUpto (fun tx px => plot (xoff + tx) y (ce tx) px) n s with ht
    refine ⟨by simp only [forUpto]; rw [plot_eq, ← ht, h1], by simp only [forUpto]; rw [plot_tex, ← ht, h2], ?_⟩
    simp only [forUpto, ← ht]
    have hb : t.back = s.back := by rw [h1]; rfl
    have hi : t.inBuffer (xoff+n) y = s.inBuffer (xoff+n) y := by rw [h1]; rfl
    have hp : t.pixelAddr (xoff+n) y = s.pixelAddr (xoff+n) y := by rw [h1]; rfl
    rw [readPixel_plot, hb, hi, hp, h3]
    by_cases hc : y = py ∧ xoff + n = px ∧ validCode (ce n) = true
    · obtain ⟨rfl, e, hv⟩ := hc
      have e2 : ((px:Int) - xoff).toNat = n := by omega
      rw [e2, if_pos, if_pos]
      · refine ⟨rfl, by omega, by push_cast; omega, hv⟩
      · rw [e]
        refine ⟨by rw [inBuffer_iff]; omega, hv, rfl, pixelAddr_natCast.symm⟩
    · rw [if_neg]
      · congr 1; apply propext
        constructor
        · rintro ⟨a, b, c, d⟩; exact ⟨a, b, by push_cast; omega, d⟩
        · rintro ⟨a, b, c, d⟩
          refine ⟨a, b, ?_, d⟩
          by_contra hcon
          push_cast at c
          have e : ((px:Int) - xoff).toNat = n := by omega
          rw [e] at d
          exact hc ⟨a, by omega, d⟩
      · rintro ⟨a, b, _, d⟩
        rw [inBuffer_iff] at a
        obtain ⟨⟨a1, a2⟩, a3, a4⟩ := a
        apply hc
        lift y to Nat using a3
        have : ∃ qx : Nat, (qx:Int) = xoff + n := ⟨(xoff+n).toNat, by omega⟩
        obtain ⟨qx, e⟩ := this
        rw [← e] at d a2
        rw [pixelAddr_natCast] at d
        have := pixelAddr_inj hx (by exact_mod_cast a2) d
        exact ⟨by rw [this.2], by rw [← e, this.1], b⟩

/-- A state that differs in its banks only reads the same texture. -/
theorem readTexel_of_tex_eq {s t : State} (h : t = { s with mem := t.mem }) (h2 : t.mem.tex = s.mem.tex) (a : Nat) : t.readTexel a = s.readTexel a := by
  unfold State.readTexel; rw [h2, h]

/-- Two loops whose bodies agree wherever an invariant of them holds. -/
theorem forUpto_congr {σ : Type} (P : σ → Prop) (f g : Nat → σ → σ) (hp : ∀ k u, P u → P (f k u)) (h : ∀ k u, P u → f k u = g k u) (n : Nat) (s : σ) (hs : P s) : forUpto f n s = forUpto g n s ∧ P (forUpto f n s) := by
  induction n with
  | zero => exact ⟨rfl, hs⟩
  | succ n ih => simp only [forUpto]; rw [← ih.1]; exact ⟨h _ _ ih.2, hp _ _ ih.2⟩

/-- What a number of rows of a texture draw do to a pixel of the back bank. -/
theorem readPixel_drawRows (xoff yoff : Int) (s : State) (m : Nat) (px py : Nat) (hx : px < s.width) (hy : py < s.height) :
    let wt := s.texW.toNat
    let t := forUpto (fun ty row => forUpto (fun tx px => plot (xoff + tx) (yoff + ty) (px.readTexel (ty * wt + tx)).toNat px) wt row) m s
    let c := fun x y : Nat => ((s.readTexel (y * wt + x)).toNat : Int)
    t = { s with mem := t.mem } ∧ t.mem.tex = s.mem.tex ∧ 
    t.readPixel s.back (py * s.width + px) = if xoff ≤ px ∧ (px:Int) < xoff + wt ∧ yoff ≤ py ∧ (py:Int) < yoff + m ∧ validCode (c ((px:Int) - xoff).toNat ((py:Int) - yoff).toNat) = true then decodeWord (c ((px:Int) - xoff).toNat ((py:Int) - yoff).toNat) else s.readPixel s.back (py * s.width + px) := by
  intro wt
  induction m with
  | zero => refine ⟨rfl, rfl, ?_⟩; rw [if_neg (by intro h; have := h.2.2.1; have := h.2.2.2.1; push_cast at *; omega)]; rfl
  | succ m ih =>
    intro t c
    simp only at ih
    obtain ⟨h1, h2, h3⟩ := ih
    set u := forUpto (fun ty row => forUpto (fun tx px => plot (xoff + tx) (yoff + ty) (px.readTexel (ty * wt + tx)).toNat px) wt row) m s with hu
    have ht : t = forUpto (fun tx px => plot (xoff + tx) (yoff + m) (px.readTexel (m * wt + tx)).toNat px) wt u := rfl
    have e := forUpto_congr (fun v => ∀ a, v.readTexel a = s.readTexel a) (fun tx px => plot (xoff + tx) (yoff + m) (px.readTexel (m * wt + tx)).toNat px) (fun tx px => plot (xoff + tx) (yoff + m) (c tx m) px) (fun k v hv a => by simp only [readTexel_plot]; exact hv a) (fun k v hv => by simp only [hv]; rfl) wt u (readTexel_of_tex_eq h1 h2)
    rw [e.1] at ht
    have uw : u.width = s.width := by rw [h1]; rfl
    have uh : u.height = s.height := by rw [h1]; rfl
    have ub : u.back = s.back := by rw [h1]; rfl
    obtain ⟨r1, r2, r3⟩ := readPixel_drawRow xoff (yoff + m) (fun tx => c tx m) u wt px py (by rw [uw]; exact hx) (by rw [uh]; exact hy)
    simp only [← ht] at r1 r2 r3
    refine ⟨by rw [r1, h1], by rw [r2, h2], ?_⟩
    rw [ub, uw] at r3
    rw [r3, h3]
    by_cases hc : yoff + m = py
    · have em : ((py:Int) - yoff).toNat = m := by omega
      simp only [em, c]
      have x1 : ¬ ((py:Int) < yoff + m) := by omega
      have x2 : (py:Int) < yoff + (m+1 : Nat) := by push_cast; omega
      have x3 : yoff ≤ py := by omega
      generalize decodeWord _ = dw
      generalize validCode _ = vc at *
      split_ifs <;> first | rfl | (exfalso; tauto)
    · have e1 : (yoff ≤ (py:Int) ∧ (py:Int) < yoff + (m+1 : Nat)) ↔ (yoff ≤ (py:Int) ∧ (py:Int) < yoff + m) := by push_cast; omega
      rw [if_neg (fun h => hc h.1)]
      congr 1; apply propext
      constructor
      · rintro ⟨a, b, c, d, e⟩; exact ⟨a, b, (e1.mpr ⟨c, d⟩).1, (e1.mpr ⟨c, d⟩).2, e⟩
      · rintro ⟨a, b, c, d, e⟩; exact ⟨a, b, (e1.mp ⟨c, d⟩).1, (e1.mp ⟨c, d⟩).2, e⟩

/-- What a texture draw does to a pixel of the back bank (R184): entry (x, y) of the texture is plotted at
(xoff + x, yoff + y). -/
theorem readPixel_drawTexture_back (xoff yoff : Int) (s : State) {px py : Nat} (hx : px < s.width) (hy : py < s.height) :
    (drawTexture xoff yoff s).readPixel s.back (py * s.width + px) =
      if xoff ≤ px ∧ (px : Int) < xoff + s.texW.toNat ∧ yoff ≤ py ∧ (py : Int) < yoff + s.texH.toNat ∧
          validCode ((s.readTexel (((py : Int) - yoff).toNat * s.texW.toNat + ((px : Int) - xoff).toNat)).toNat : Int)
            = true
      then decodeWord
        ((s.readTexel (((py : Int) - yoff).toNat * s.texW.toNat + ((px : Int) - xoff).toNat)).toNat : Int)
      else s.readPixel s.back (py * s.width + px) :=
  (readPixel_drawRows xoff yoff s s.texH.toNat px py hx hy).2.2

end Sys2Proof.Machine
end

