-- ==== Sys2Proof/Laws/Rom.lean ====
section
/-! SUPPORT. The ROM decoder's spec lemmas: the size of what is read, what a record's checks can answer, and what the
copy of a texture changes. -/

namespace Sys2Proof.Machine

/-- n bytes read as a number below 256^n (R65). -/
theorem Rom.read_lt (r : Rom) (a n : Nat) : r.read a n < 256 ^ n := by
  induction n generalizing a with
  | zero => simp [Rom.read]
  | succ n ih =>
    have h1 := (r.byte a).isLt
    have h2 := ih (a + 1)
    simp only [Rom.read, Nat.pow_succ]
    omega

@[simp] theorem Rom.has_iff (r : Rom) (a n : Nat) : r.has a n = true ↔ a + n ≤ r.len := by simp [Rom.has]

/-- A record that passes its checks is answered as it is, and fits. -/
theorem checkRecord_ok {r : Rom} {texCap : Nat} {c d : RomHit} (h : checkRecord r texCap c = .ok d) :
    d = c ∧ c.p = c.w * c.h ∧ c.p ≤ 1000000 ∧ c.p ≤ texCap ∧ c.o + 16 + 2 * c.p ≤ r.len := by
  unfold checkRecord at h
  split at h
  · cases h
  split at h
  · cases h
  split at h
  · cases h
  split at h
  · rename_i h1 h2 h3 h4
    rw [Rom.has_iff] at h4
    simp only [romPixelMax] at h2
    cases h
    refine ⟨rfl, not_not.mp h1, by omega, by omega, h4⟩
  · cases h

/-- A record that fails its checks gives one of the four errors of a matched record (R214). -/
theorem checkRecord_error {r : Rom} {texCap : Nat} {c : RomHit} {e : ErrCode} (h : checkRecord r texCap c = .error e) :
    e = .romSizeMismatch ∨ e = .romTooLarge ∨ e = .romAllocFailed ∨ e = .romIoError := by
  unfold checkRecord at h
  repeat' split at h
  all_goals first
    | (cases h; simp)
    | cases h

theorem scanRecords_ok {r : Rom} {texCap : Nat} {name : Word} {left o : Nat} {d : RomHit}
    (h : scanRecords r texCap name left o = .ok d) :
    d.p = d.w * d.h ∧ d.p ≤ 1000000 ∧ d.p ≤ texCap ∧ d.o + 16 + 2 * d.p ≤ r.len ∧ d.w < 2 ^ 32 ∧ d.h < 2 ^ 32 := by
  induction left generalizing o with
  | zero => cases h
  | succ left ih =>
    unfold scanRecords at h
    split at h
    · split at h
      · obtain ⟨rfl, h1, h2, h3, h4⟩ := checkRecord_ok h
        exact ⟨h1, h2, h3, h4, r.read_lt _ 4, r.read_lt _ 4⟩
      · exact ih h
    · cases h

/-- What ROMLOAD can find: a record whose pixels are in the ROM and fit the texture memory. -/
theorem romload_ok {r : Rom} {texCap : Nat} {name : Word} {d : RomHit} (h : romload r texCap name = .ok d) :
    d.p = d.w * d.h ∧ d.p ≤ 1000000 ∧ d.p ≤ texCap ∧ d.o + 16 + 2 * d.p ≤ r.len ∧ d.w < 2 ^ 32 ∧ d.h < 2 ^ 32 := by
  unfold romload at h
  repeat' split at h
  all_goals first
    | exact scanRecords_ok h
    | cases h

theorem scanRecords_error {r : Rom} {texCap : Nat} {name : Word} {left o : Nat} {e : ErrCode}
    (h : scanRecords r texCap name left o = .error e) : e ≠ .none := by
  induction left generalizing o with
  | zero => cases h; decide
  | succ left ih =>
    unfold scanRecords at h
    split at h
    · split at h
      · rcases checkRecord_error h with rfl | rfl | rfl | rfl <;> decide
      · exact ih h
    · cases h; decide

/-- ROMLOAD's errors are codes other than NONE. -/
theorem romload_error {r : Rom} {texCap : Nat} {name : Word} {e : ErrCode} (h : romload r texCap name = .error e) :
    e ≠ .none := by
  unfold romload at h
  repeat' split at h
  all_goals first
    | exact scanRecords_error h
    | (cases h; decide)

/-- The copy loop of R154 changes the texture memory only, entry by entry. -/
theorem copyLoop (f : Nat → Texel) (n : Nat) (s : State) :
    let t := forUpto (fun k u => u.writeTexel k (f k)) n s
    t = { s with mem := { s.mem with tex := t.mem.tex } } ∧
      (∀ x, t.readTexel x = if x < n then f x else s.readTexel x) ∧
      (∀ c ∈ t.mem.tex, c.1 < n ∨ c ∈ s.mem.tex) ∧ (s.mem.wf = true → t.mem.wf = true) := by
  refine forUpto_counts
    (fun k t => t = { s with mem := { s.mem with tex := t.mem.tex } } ∧
      (∀ x, t.readTexel x = if x < k then f x else s.readTexel x) ∧
      (∀ c ∈ t.mem.tex, c.1 < k ∨ c ∈ s.mem.tex) ∧ (s.mem.wf = true → t.mem.wf = true)) _ n s ?_ ?_
  · exact ⟨rfl, fun x => by simp, fun c hc => .inr hc, id⟩
  · intro k t _ ⟨h1, h2, h3, h4⟩
    refine ⟨?_, fun x => ?_, fun c hc => ?_, fun h => writeTexel_wf (h4 h) _ _⟩
    · rw [State.writeTexel, h1]
    · rw [readTexel_writeTexel, h2]
      by_cases hx : x = k
      · subst hx; simp
      · have : (x < k + 1) = (x < k) := by apply propext; omega
        simp [hx, this]
    · rcases mem_cellsPut hc with hc | hc
      · subst hc; exact .inl (Nat.lt_succ_self k)
      · rcases h3 c hc with hc | hc
        · exact .inl (Nat.lt_succ_of_lt hc)
        · exact .inr hc

/-- Everything a successful ROMLOAD writes but the texture entries: TEX_W, TEX_H and RESULT (R162). -/
theorem loadTexture_eq (r : Rom) (c : RomHit) (s : State) :
    loadTexture r c s =
      { s with
        texW := ofU32 c.w, texH := ofU32 c.h, result := ofU32 c.p
        mem := { s.mem with tex := (loadTexture r c s).mem.tex } } := by
  have h := (copyLoop (fun k => BitVec.ofNat 16 (r.read (c.o + 16 + 2 * k) 2)) c.p s).1
  simp only at h
  simp only [loadTexture]
  rw [h]

/-- The texture entries after a successful ROMLOAD (R162). -/
theorem readTexel_loadTexture (r : Rom) (c : RomHit) (s : State) (x : Nat) :
    (loadTexture r c s).readTexel x =
      if x < c.p then BitVec.ofNat 16 (r.read (c.o + 16 + 2 * x) 2) else s.readTexel x :=
  (copyLoop (fun k => BitVec.ofNat 16 (r.read (c.o + 16 + 2 * k) 2)) c.p s).2.1 x

theorem mem_loadTexture_tex (r : Rom) (c : RomHit) (s : State) :
    ∀ d ∈ (loadTexture r c s).mem.tex, d.1 < c.p ∨ d ∈ s.mem.tex :=
  (copyLoop (fun k => BitVec.ofNat 16 (r.read (c.o + 16 + 2 * k) 2)) c.p s).2.2.1

theorem loadTexture_wf {s : State} (h : s.mem.wf = true) (r : Rom) (c : RomHit) : (loadTexture r c s).mem.wf = true :=
  (copyLoop (fun k => BitVec.ofNat 16 (r.read (c.o + 16 + 2 * k) 2)) c.p s).2.2.2 h

end Sys2Proof.Machine
end

