-- ==== Sys2Proof/Laws/Agents.lean ====
section
/-! SUPPORT. What each agent's turn can change, once each: the register port, the host's turn, and the commands. -/

namespace Sys2Proof.Machine

/-! ### The register port -/

/-- Each register has one slot (R24). -/
theorem slotReg_eq_some (slot : Fin 64) (r : Reg) : slotReg slot = some r ↔ slot = r.slot := by
  cases r <;> revert slot <;> decide

/-- The registers that are not windows read as the state stands. -/
theorem readSlot_frame (slot : Fin 64) (s : State) :
    (readSlot slot s).2 =
      { s with
        ovr := (readSlot slot s).2.ovr, texAddr := (readSlot slot s).2.texAddr
        fbAddr := (readSlot slot s).2.fbAddr } := by
  unfold readSlot
  split
  · rename_i r _
    cases r <;> simp only [readReg] <;> try rfl
    unfold readTexData
    split <;> rfl
  · rfl

/-- A host write changes no more than the registers the host can write, the flags, the latched command and TEX. -/
theorem writeSlot_frame (slot : Fin 64) (v : Word) (s : State) :
    writeSlot slot v s =
      { s with
        done := (writeSlot slot v s).done, err := (writeSlot slot v s).err, ovr := (writeSlot slot v s).ovr
        errCode := (writeSlot slot v s).errCode, irqEn := (writeSlot slot v s).irqEn
        arg0 := (writeSlot slot v s).arg0, arg1 := (writeSlot slot v s).arg1, arg2 := (writeSlot slot v s).arg2
        texW := (writeSlot slot v s).texW, texH := (writeSlot slot v s).texH
        texAddr := (writeSlot slot v s).texAddr, fbAddr := (writeSlot slot v s).fbAddr
        mem := { s.mem with tex := (writeSlot slot v s).mem.tex }, lc := (writeSlot slot v s).lc } := by
  unfold writeSlot
  split
  · rename_i r _
    cases r <;> simp only [writeReg] <;> try rfl
    all_goals (try unfold writeTexData); (repeat' split) <;> rfl
  · rfl

/-- The texture memory after a host write: one entry that exists, or as before. -/
theorem writeSlot_tex (slot : Fin 64) (v : Word) (s : State) :
    (writeSlot slot v s).mem.tex = s.mem.tex ∨
      (s.texAddr.toNat < s.params.texCap ∧ s.busy = false ∧ slot = 15 ∧
        (writeSlot slot v s).mem.tex = cellsPut s.texAddr.toNat (v.setWidth 16) s.mem.tex) := by
  by_cases h15 : slot = 15
  · subst h15
    simp only [writeSlot, slotReg, writeReg, writeTexData]
    by_cases hb : s.busy = true
    · exact .inl (by simp [hb, overrun])
    · by_cases hc : s.texAddr.toNat < s.params.texCap
      · exact .inr ⟨hc, by simpa using hb, trivial, by simp [hb, hc, State.writeTexel]⟩
      · exact .inl (by simp [hb, hc])
  · left
    unfold writeSlot
    split
    · rename_i r hr
      cases r <;> simp only [writeReg, ackStatus, overrun, accept]
      case texData =>
        exfalso
        revert hr h15
        revert slot
        decide
      all_goals split <;> rfl
    · rfl

/-- A host write clears ERR and ERRCODE together or leaves both. -/
theorem writeSlot_err (slot : Fin 64) (v : Word) (s : State) :
    ((writeSlot slot v s).err = s.err ∧ (writeSlot slot v s).errCode = s.errCode) ∨
      ((writeSlot slot v s).err = false ∧ (writeSlot slot v s).errCode = .none ∧ slot = 3 ∧ v.getLsbD 2 = true) := by
  by_cases h3 : slot = 3
  · subst h3
    by_cases hv : v.getLsbD 2 = true
    · refine .inr ⟨?_, ?_, rfl, hv⟩ <;> simp only [writeSlot, slotReg, writeReg, ackStatus, hv] <;> simp
    · have hf : v.getLsbD 2 = false := by simpa using hv
      refine .inl ⟨?_, ?_⟩ <;> simp only [writeSlot, slotReg, writeReg, ackStatus, hf] <;> simp
  · left
    unfold writeSlot
    split
    · rename_i r hr
      cases r <;> simp only [writeReg, overrun, accept, writeTexData] <;> (try simp)
      case status =>
        exfalso
        revert hr h3
        revert slot
        decide
      all_goals (repeat' split) <;> simp
    · exact ⟨rfl, rfl⟩

/-- The latched command after a host write: the accept step, or as before. -/
theorem writeSlot_lc (slot : Fin 64) (v : Word) (s : State) :
    (writeSlot slot v s).lc = s.lc ∨
      (s.lc = none ∧ slot = 10 ∧ (writeSlot slot v s).lc = some ⟨v, s.arg0, s.arg1, s.arg2⟩) := by
  by_cases h10 : slot = 10
  · subst h10
    by_cases hb : s.lc = none
    · exact .inr ⟨hb, rfl, by simp [writeSlot, slotReg, writeReg, accept, State.busy, hb]⟩
    · refine .inl ?_
      have : s.lc.isSome = true := by cases h : s.lc <;> simp_all
      simp [writeSlot, slotReg, writeReg, State.busy, this, overrun]
  · left
    unfold writeSlot
    split
    · rename_i r hr
      cases r <;> simp only [writeReg, overrun, ackStatus, writeTexData]
      case cmd =>
        exfalso
        revert hr h10
        revert slot
        decide
      all_goals (repeat' split) <;> rfl
    · rfl

/-! ### The host -/

/-- A bound variable holds what was bound, and the others what they held. -/
@[simp] theorem HostAgent.getVar_setVar (h : HostAgent) (x y : Nat) (v : Word) :
    (h.setVar x v).getVar y = if y = x then v else h.getVar y := by
  unfold HostAgent.getVar HostAgent.setVar
  split
  · rename_i e; subst e; simp
  · rename_i e; simp [cellsFind_put_other e]

/-- Bit 0 of STATUS is BUSY (R29). -/
@[simp] theorem statusWord_busy (s : State) : s.statusWord.getLsbD 0 = s.busy := by
  simp only [State.statusWord, BitVec.getLsbD_append]; simp

/-- Bit 2 of STATUS is ERR (R29). -/
@[simp] theorem statusWord_err (s : State) : s.statusWord.getLsbD 2 = s.err := by
  simp only [State.statusWord, BitVec.getLsbD_append]; simp

/-- A read of STATUS into a variable changes that variable and nothing of the block. -/
theorem hostRd_status (x : Nat) (s : State) :
    hostRd Reg.status.slot (some x) s = { s with hostData := some s.statusWord, host := s.host.setVar x s.statusWord } :=
  rfl

/-- WAIT's turn: `$s` holds STATUS, and the host goes on where BUSY = 0. -/
theorem hostWait_eq (rest : List HostOp) (s : State) (h : s.host.program = .wait :: rest) :
    hostWait rest s = { s with
      hostData := some s.statusWord
      host := { s.host.setVar statusVar s.statusWord with program := if s.busy then .wait :: rest else rest } } := by
  unfold hostWait
  rw [hostRd_status, statusWord_busy]
  cases hb : s.busy
  · rfl
  · simp only [if_true, HostAgent.setVar, ← h]

/-- CHECK's read: `$s` holds STATUS, `$e` the error code or 0, and a clearing of ERR is next where it was set. -/
theorem hostCheck_eq (x : Nat) (rest : List HostOp) (s : State) :
    hostCheck x rest s = { s with
      hostData := some s.statusWord
      host :=
        { (s.host.setVar statusVar s.statusWord).setVar x
            (if s.err then (s.statusWord.extractLsb' 8 8).setWidth 32 else 0) with
          program := if s.err then .wr Reg.status.slot (.lit 4#32) :: rest else rest } } := by
  unfold hostCheck
  rw [hostRd_status, statusWord_err]
  cases he : s.err <;> rfl

/-- What one host turn does to the block: nothing, one write, or one read whose value it keeps. -/
theorem hostTurn_block (s : State) :
    (∃ h, hostTurn s = { s with host := h }) ∨
      (∃ slot v h, hostTurn s = { writeSlot slot v s with host := h }) ∨
      ∃ slot h, hostTurn s = { (readSlot slot s).2 with hostData := some (readSlot slot s).1, host := h } := by
  unfold hostTurn
  split
  · exact .inl ⟨s.host, rfl⟩
  · exact .inr (.inl ⟨_, _, _, rfl⟩)
  · unfold hostRd hostRead
    dsimp only
    split <;> exact .inr (.inr ⟨_, _, rfl⟩)
  · refine .inr (.inr ⟨Reg.status.slot, ?_⟩)
    unfold hostWait hostRd hostRead
    dsimp only
    split <;> exact ⟨_, rfl⟩
  · refine .inr (.inr ⟨Reg.status.slot, ?_⟩)
    unfold hostCheck hostRd hostRead
    dsimp only
    split <;> exact ⟨_, rfl⟩
  · unfold hostReadTex hostRead
    dsimp only
    split
    · exact .inl ⟨_, rfl⟩
    split
    · refine .inr (.inr ⟨Reg.texData.slot, ?_⟩)
      split <;> exact ⟨_, rfl⟩
    · exact .inl ⟨_, rfl⟩

/-! ### The commands -/

/-- A command ends in a completion: of an error, with nothing else changed, or of its effect, which leaves the host's
registers, the flags, the other agents and the inputs as they were. -/
theorem exec_completes (i : Instr) (s : State) :
    (∃ e, e ≠ ErrCode.none ∧ exec i s = .next (completeError e s)) ∨
      ∃ t, exec i s = .next (complete t) ∧
        t = { s with
          fbW := t.fbW, fbH := t.fbH, result := t.result, texW := t.texW, texH := t.texH
          frontSel := t.frontSel, cfg := t.cfg, mem := t.mem } := by
  cases i with
  | nop => exact .inr ⟨s, rfl, rfl⟩
  | config w h =>
    simp only [exec, execConfig]
    split
    · exact .inl ⟨_, by simp, rfl⟩
    · split
      · exact .inr ⟨_, rfl, by rw [configure_eq]⟩
      · exact .inl ⟨_, by simp, rfl⟩
  | pixel x y c =>
    simp only [exec, execPixel]
    split
    · exact .inr ⟨_, rfl, by rw [plot_eq]⟩
    · exact .inl ⟨_, by simp, rfl⟩
  | rect x y =>
    simp only [exec, execRect]
    split
    · split
      · exact .inl ⟨_, by simp, rfl⟩
      · exact .inr ⟨_, rfl, by rw [drawTexture_eq]⟩
    · exact .inl ⟨_, by simp, rfl⟩
  | swap =>
    simp only [exec, execSwap]
    split
    · exact .inr ⟨_, rfl, by rw [swapBanks_eq]⟩
    · exact .inl ⟨_, by simp, rfl⟩
  | rgb r g b =>
    simp only [exec, execRgb]
    split
    · exact .inr ⟨_, rfl, rfl⟩
    · exact .inl ⟨_, by simp, rfl⟩
  | decode c => exact .inr ⟨_, rfl, rfl⟩
  | hsv h sat v =>
    simp only [exec, execHsv]
    split
    · exact .inr ⟨_, rfl, rfl⟩
    · exact .inl ⟨_, by simp, rfl⟩
  | grey c => exact .inr ⟨_, rfl, rfl⟩
  | romload n0 n1 n2 n3 =>
    simp only [exec, execRomload]
    split
    · exact .inr ⟨_, rfl, by rw [loadTexture_eq]⟩
    · rename_i h
      exact .inl ⟨_, romload_error h, rfl⟩

/-- The engine's turn: nothing where no command is held; else a command's completion, or that of an illegal word. -/
theorem engineTurn_cases (s : State) :
    (s.lc = none ∧ engineTurn s = .next s) ∨
      (∃ c i, s.lc = some c ∧ decodeCommand c = .ok i ∧ engineTurn s = exec i s) ∨
      ∃ c e, s.lc = some c ∧ decodeCommand c = .error e ∧ engineTurn s = .next (completeError .illegalCommand s) := by
  unfold engineTurn
  cases hc : s.lc with
  | none => exact .inl ⟨rfl, rfl⟩
  | some c =>
    cases hd : decodeCommand c with
    | ok i => exact .inr (.inl ⟨c, i, rfl, hd, by simp [hd]⟩)
    | error e => exact .inr (.inr ⟨c, e, rfl, hd, by simp [hd, illegalCommand]⟩)

/-- The state in which the next turn is taken differs from the state before in its schedule only. -/
theorem nextTurn_state (s : State) : (nextTurn s).2 = { s with schedule := (nextTurn s).2.schedule } := by
  unfold nextTurn
  split <;> rfl

/-- A relation between the agent, the state before and the state after holds of every step if it holds of every agent's
turn and does not look at the schedule before. -/
theorem step_turns (P : Turn → State → State → Prop)
    (hs : ∀ u s t l, P u { s with schedule := l } t → P u s t)
    (hhost : ∀ s, P .host s (hostTurn s)) (hengine : ∀ s t, engineTurn s = .next t → P .engine s t)
    (hdecoder : ∀ s, P .decoder s (decoderTurn s)) (hdisplay : ∀ a s, P (.display a) s (displayTurn a s))
    (hrom : ∀ r s, P (.rom r) s (romTurn r s)) (hreset : ∀ s, P .reset s (resetTurn s)) {s t : State}
    (h : step s = .next t) : P (nextTurn s).1 s t := by
  have e := nextTurn_state s
  unfold step at h
  apply hs _ s t (nextTurn s).2.schedule
  rw [← e]
  generalize (nextTurn s).2 = v at *
  generalize (nextTurn s).1 = u at *
  cases u <;> simp only [takeTurn, Host.Outcome.next.injEq] at h
  case host => subst h; exact hhost _
  case engine => exact hengine _ _ h
  case decoder => subst h; exact hdecoder _
  case display a => subst h; exact hdisplay _ _
  case rom r => subst h; exact hrom _ _
  case reset => subst h; exact hreset _

end Sys2Proof.Machine
end

