-- ==== Sys2Proof/Laws/Image.lean ====
section
/-! SUPPORT. Reading an image that is written in the container's layout (R150, R151). -/

namespace Sys2Proof.Machine

/-- A byte past a prefix. -/
theorem Rom.byte_append (pre post : List Byte) (b : Bool) (k : Nat) :
    Rom.byte ⟨pre ++ post, b⟩ (pre.length + k) = post.getD k 0#8 := by
  simp [Rom.byte, List.getD_eq_getElem?_getD, List.getElem?_append_right]

/-- A number past a prefix is read in what follows the prefix. -/
theorem Rom.read_append (pre post : List Byte) (b : Bool) (k n : Nat) :
    Rom.read ⟨pre ++ post, b⟩ (pre.length + k) n = Rom.read ⟨post, b⟩ k n := by
  induction n generalizing k with
  | zero => rfl
  | succ n ih =>
    have h := Rom.byte_append pre post b k
    simp only [Rom.read, h, Nat.add_assoc, ih (k + 1)]
    rfl

/-- The lower two bytes of a number, little-endian. -/
theorem le16_read (v : Nat) (hv : v < 2 ^ 16) (post : List Byte) (b : Bool) :
    Rom.read ⟨le16 v ++ post, b⟩ 0 2 = v := by
  simp [Rom.read, Rom.byte, le16]
  omega

/-- A u32 as the container holds it reads back. -/
theorem le32_read (v : Nat) (hv : v < 2 ^ 32) (post : List Byte) (b : Bool) :
    Rom.read ⟨le32 v ++ post, b⟩ 0 4 = v := by
  simp [Rom.read, Rom.byte, le32]
  omega

/-- The fields of a record, wherever it stands (R151). -/
theorem RomRecord.read (r : RomRecord) (hf : r.headerFits) (pre post : List Byte) (b : Bool) :
    Rom.read ⟨pre ++ (r.bytes ++ post), b⟩ pre.length 4 = r.p ∧
      Rom.nameAt ⟨pre ++ (r.bytes ++ post), b⟩ pre.length = nameWord r.n0 r.n1 r.n2 r.n3 ∧
      Rom.read ⟨pre ++ (r.bytes ++ post), b⟩ (pre.length + 8) 4 = r.w ∧
      Rom.read ⟨pre ++ (r.bytes ++ post), b⟩ (pre.length + 12) 4 = r.h := by
  obtain ⟨hp, hw, hh⟩ := hf
  refine ⟨?_, ?_, ?_, ?_⟩
  · rw [show pre.length = pre.length + 0 from rfl, Rom.read_append]
    simp only [RomRecord.bytes, List.append_assoc]
    exact le32_read r.p hp _ b
  · simp only [Rom.nameAt, Rom.byte_append]
    simp [RomRecord.bytes, le32]
  · rw [Rom.read_append]
    have e : r.bytes ++ post = (le32 r.p ++ [r.n0, r.n1, r.n2, r.n3]) ++ (le32 r.w ++ (le32 r.h ++ r.pixels ++ post)) := by
      simp [RomRecord.bytes]
    rw [e]
    have := Rom.read_append (le32 r.p ++ [r.n0, r.n1, r.n2, r.n3]) (le32 r.w ++ (le32 r.h ++ r.pixels ++ post)) b 0 4
    rw [le32_read r.w hw] at this
    exact this
  · rw [Rom.read_append]
    have e : r.bytes ++ post = (le32 r.p ++ [r.n0, r.n1, r.n2, r.n3] ++ le32 r.w) ++ (le32 r.h ++ (r.pixels ++ post)) := by
      simp [RomRecord.bytes]
    rw [e]
    have := Rom.read_append (le32 r.p ++ [r.n0, r.n1, r.n2, r.n3] ++ le32 r.w) (le32 r.h ++ (r.pixels ++ post)) b 0 4
    rw [le32_read r.h hh] at this
    exact this

/-- The length of a record. -/
theorem RomRecord.length_bytes (r : RomRecord) : r.bytes.length = 16 + r.pixels.length := by
  simp [RomRecord.bytes, le32]; omega

/-- Two name words agree exactly where their bytes do. -/
theorem nameWord_inj (a0 a1 a2 a3 b0 b1 b2 b3 : Byte) :
    nameWord a0 a1 a2 a3 = nameWord b0 b1 b2 b3 ↔ a0 = b0 ∧ a1 = b1 ∧ a2 = b2 ∧ a3 = b3 := by
  constructor
  · intro h
    simp only [nameWord] at h
    have ha := fun i => congrArg (fun v : Word => v.getLsbD i) h
    simp only [BitVec.getLsbD_append] at ha
    refine ⟨?_, ?_, ?_, ?_⟩
    · ext i hi
      simpa [hi] using ha i
    · ext i hi
      have := ha (8 + i)
      simpa [hi] using this
    · ext i hi
      have := ha (16 + i)
      simpa [hi, show ¬ 16 + i < 8 by omega, show ¬ 16 + i - 8 < 8 by omega, show 16 + i - 8 - 8 = i by omega] using this
    · ext i hi
      have := ha (24 + i)
      simpa [hi, show ¬ 24 + i < 8 by omega, show ¬ 24 + i - 8 < 8 by omega, show ¬ 24 + i - 8 - 8 < 8 by omega,
        show 24 + i - 8 - 8 - 8 = i by omega] using this
  · rintro ⟨rfl, rfl, rfl, rfl⟩
    rfl

/-- The scan passes over complete records of other names (R157). -/
theorem scanRecords_skip (n0 n1 n2 n3 : Byte) (texCap left : Nat) (before : List RomRecord) (pre post : List Byte) (b : Bool)
    (hc : ∀ r ∈ before, r.complete ∧ ¬ (r.n0 = n0 ∧ r.n1 = n1 ∧ r.n2 = n2 ∧ r.n3 = n3)) :
    scanRecords ⟨pre ++ (before.flatMap RomRecord.bytes ++ post), b⟩ texCap (nameWord n0 n1 n2 n3)
        (before.length + left) pre.length =
      scanRecords ⟨pre ++ (before.flatMap RomRecord.bytes ++ post), b⟩ texCap (nameWord n0 n1 n2 n3) left
        (pre.length + (before.flatMap RomRecord.bytes).length) := by
  induction before generalizing pre with
  | nil => simp
  | cons r rs ih =>
    obtain ⟨⟨hf, hl⟩, hn⟩ := hc r (by simp)
    have hr := RomRecord.read r hf pre (rs.flatMap RomRecord.bytes ++ post) b
    have hlen := r.length_bytes
    have e : pre ++ ((r :: rs).flatMap RomRecord.bytes ++ post) = pre ++ (r.bytes ++ (rs.flatMap RomRecord.bytes ++ post)) := by
      simp
    have e2 : pre ++ (r.bytes ++ (rs.flatMap RomRecord.bytes ++ post)) =
        (pre ++ r.bytes) ++ (rs.flatMap RomRecord.bytes ++ post) := by simp
    have hh : Rom.has ⟨pre ++ (r.bytes ++ (rs.flatMap RomRecord.bytes ++ post)), b⟩ pre.length 16 = true := by
      rw [Rom.has_iff]
      simp only [Rom.len, List.length_append, hlen]
      omega
    rw [e, show (r :: rs).length + left = (rs.length + left) + 1 by simp; omega]
    rw [scanRecords, hh, if_pos rfl, hr.2.1, if_neg (by rw [nameWord_inj]; exact hn), hr.1]
    have hx : pre.length + 16 + 2 * r.p = (pre ++ r.bytes).length := by rw [List.length_append, hlen, hl]; omega
    rw [hx, e2, ih (pre ++ r.bytes) (fun q hq => hc q (List.mem_cons_of_mem _ hq))]
    congr 1
    simp
    omega

/-- What a ROMLOAD answers for a written image is what its scan answers. -/
theorem romload_romImage (count : Nat) (hcount : count ≤ 255) (records : List RomRecord) (texCap : Nat) (name : Word) :
    romload (romImage count records) texCap name = scanRecords (romImage count records) texCap name count 5 := by
  have h0 : (romImage count records).present = true := rfl
  have h1 : Rom.has (romImage count records) 0 4 = true := by
    rw [Rom.has_iff]; simp only [romImage, Rom.len, List.length_append, List.length_cons]; omega
  have h2 : Rom.head4 (romImage count records) = romMagic := rfl
  have h3 : Rom.has (romImage count records) 4 1 = true := by
    rw [Rom.has_iff]; simp only [romImage, Rom.len, List.length_append, List.length_cons]; omega
  have h4 : (Rom.byte (romImage count records) 4).toNat = count := by
    show (BitVec.ofNat 8 count).toNat = count
    rw [BitVec.toNat_ofNat]
    exact Nat.mod_eq_of_lt (by omega)
  simp only [romload, h0, h1, h2, h3, h4]
  rfl

/-- In a written image, the first record of the name is checked, wherever it stands (R157, R162). -/
theorem romload_hit (before : List RomRecord) (hit : RomRecord) (count : Nat) (cap : Nat) 
    (hb : ∀ r ∈ before, r.complete ∧ ¬ r.sameName hit) (hf : hit.headerFits) (hl : before.length < count) (hc : count ≤ 255) :
    romload (romImage count (before ++ [hit])) cap (nameWord hit.n0 hit.n1 hit.n2 hit.n3) = checkRecord (romImage count (before ++ [hit])) cap ⟨5 + (before.flatMap RomRecord.bytes).length, hit.p, hit.w, hit.h⟩ := by
  rw [romload_romImage _ hc]
  obtain ⟨left, rfl⟩ : ∃ left, count = before.length + (left + 1) := ⟨count - before.length - 1, by omega⟩
  set pre : List Byte := [0x69#8, 0x6D#8, 0x61#8, 0x67#8] ++ [BitVec.ofNat 8 (before.length + (left+1))] with hpre
  have e : romImage (before.length + (left+1)) (before ++ [hit]) = ⟨pre ++ (before.flatMap RomRecord.bytes ++ (hit.bytes ++ [])), true⟩ := by
    simp [romImage, hpre]
  have hpl : pre.length = 5 := rfl
  rw [e]
  have := scanRecords_skip hit.n0 hit.n1 hit.n2 hit.n3 cap (left+1) before pre (hit.bytes ++ []) true hb
  rw [hpl] at this
  rw [this]
  have e2 : pre ++ (before.flatMap RomRecord.bytes ++ (hit.bytes ++ [])) = (pre ++ before.flatMap RomRecord.bytes) ++ (hit.bytes ++ []) := by simp
  have hr := RomRecord.read hit hf (pre ++ before.flatMap RomRecord.bytes) [] true
  have hlen : (pre ++ before.flatMap RomRecord.bytes).length = 5 + (before.flatMap RomRecord.bytes).length := by simp [hpl]
  rw [e2]
  rw [hlen] at hr
  rw [scanRecords, if_pos, hr.1, hr.2.1, hr.2.2.1, hr.2.2.2, if_pos rfl]
  rw [Rom.has_iff]; simp only [Rom.len, List.length_append, hlen, hit.length_bytes]; omega

/-- Entry k of a written row of codes. -/
theorem Rom.read_codes (codes : List Texel) (tail : List Byte) (k : Nat) (hk : k < codes.length) (b : Bool) : Rom.read ⟨codes.flatMap (fun v => le16 v.toNat) ++ tail, b⟩ (2 * k) 2 = (codes[k]).toNat := by
  induction codes generalizing k with
  | nil => simp at hk
  | cons c cs ih =>
    cases k with
    | zero =>
      have := le16_read c.toNat c.isLt (cs.flatMap (fun v => le16 v.toNat) ++ tail) b
      simpa using this
    | succ k =>
      have := Rom.read_append (le16 c.toNat) (cs.flatMap (fun v => le16 v.toNat) ++ tail) b (2*k) 2
      rw [ih k (by simpa using hk)] at this
      have e : (le16 c.toNat).length + 2 * k = 2 * (k+1) := by simp [le16]; omega
      rw [e] at this
      simpa using this

end Sys2Proof.Machine
end

