-- ==== Sys2Proof/Laws/Invariant.lean ====
section
/-! SUPPORT. The parts of the invariant under each named operation. -/

namespace Sys2Proof.Machine

/-! ### Banks -/

/-- Zeroing a bank that lists pixels below n only leaves it just zeroed. -/
theorem Bank.zero_drawn {b : Bank} {m n : Nat} (h : b.Drawn m) (hm : m ≤ n) : (b.zero n).Drawn n := by
  refine ⟨by simp [Bank.zero, h.1]; omega, ?_⟩
  intro c hc
  have := mem_cellsFrom.mp hc
  exact absurd (h.2 c this.1).1 (by omega)

/-- Writing a palette word below n keeps a drawn bank drawn. -/
theorem Bank.write_drawn {b : Bank} {n a : Nat} {v : Word} (h : b.Drawn n) (ha : a < n) (hv : PaletteWord v) :
    (b.write a v).Drawn n := by
  unfold Bank.write
  split
  · exact ⟨h.1, fun c hc => h.2 c (mem_cellsErase.mp hc).1⟩
  · refine ⟨h.1, fun c hc => ?_⟩
    rcases mem_cellsPut hc with rfl | hc
    · exact ⟨ha, hv⟩
    · exact h.2 c hc

/-! ### Drawing -/

/-- A plot keeps the memories' invariant. -/
theorem plot_memInv {s : State} (h : s.MemInv) (x y c : Int) : (plot x y c s).MemInv := by
  obtain ⟨hw, h0, h1, ht⟩ := h
  have heq := plot_eq x y c s
  have hwd : (plot x y c s).width = s.width := by rw [heq]; rfl
  have hht : (plot x y c s).height = s.height := by rw [heq]; rfl
  have hp : (plot x y c s).params = s.params := by rw [heq]
  refine ⟨plot_wf hw x y c, ?_, ?_, by rw [plot_tex, hp]; exact ht⟩
  all_goals
    rw [hwd, hht]
    unfold plot
    split
    · rename_i hb
      rw [Bool.and_eq_true] at hb
      have ha := pixelAddr_lt hb.1
      have hv : PaletteWord (decodeWord c) := ⟨c, by simpa [skipCode_eq] using hb.2, rfl⟩
      unfold State.writePixel Memory.setBank
      cases s.back
      all_goals first | exact h0 | exact h1 | exact Bank.write_drawn h0 ha hv | exact Bank.write_drawn h1 ha hv
    · assumption

/-- A texture draw keeps the memories' invariant. -/
theorem drawTexture_memInv {s : State} (h : s.MemInv) (xoff yoff : Int) : (drawTexture xoff yoff s).MemInv :=
  drawTexture_keeps State.MemInv (fun x y c _ ht => plot_memInv ht x y c) xoff yoff s h

/-- A bank swap keeps the memories' invariant. -/
theorem swapBanks_memInv {s : State} (h : s.MemInv) : (swapBanks s).MemInv := by
  have hw := swapBanks_wf h.1
  obtain ⟨_, h0, h1, ht⟩ := h
  refine ⟨hw, ?_, ?_, ?_⟩ <;> rw [swapBanks_eq]
  · cases hs : s.frontSel
    · exact Bank.zero_drawn h0 le_rfl
    · exact h0
  · cases hs : s.frontSel
    · exact h1
    · exact Bank.zero_drawn h1 le_rfl
  · simpa using ht

/-- A configuration of an unconfigured block establishes the memories' invariant for the new size. -/
theorem configure_memInv {s : State} (h : s.MemInv) (hz : s.width * s.height = 0) {w ht : Nat} (hw : w < 2 ^ 32)
    (hh : ht < 2 ^ 32) : (configure w ht s).MemInv := by
  have hwf := configure_wf h.1 w ht
  obtain ⟨_, h0, h1, hx⟩ := h
  have e1 : (configure w ht s).width = w := by
    rw [configure_eq]; simp only [State.width, ofU32, BitVec.toNat_ofNat]; exact Nat.mod_eq_of_lt hw
  have e2 : (configure w ht s).height = ht := by
    rw [configure_eq]; simp only [State.height, ofU32, BitVec.toNat_ofNat]; exact Nat.mod_eq_of_lt hh
  refine ⟨hwf, ?_, ?_, ?_⟩
  · rw [e1, e2, configure_eq]; exact Bank.zero_drawn h0 (by omega)
  · rw [e1, e2, configure_eq]; exact Bank.zero_drawn h1 (by omega)
  · rw [configure_eq]; exact hx

/-- A texture load within TEX_CAP keeps the memories' invariant. -/
theorem loadTexture_memInv {s : State} (h : s.MemInv) (r : Rom) {c : RomHit} (hc : c.p ≤ s.params.texCap) :
    (loadTexture r c s).MemInv := by
  have hw := loadTexture_wf h.1 r c
  have hm := mem_loadTexture_tex r c s
  have e := loadTexture_eq r c s
  obtain ⟨_, h0, h1, ht⟩ := h
  refine ⟨hw, ?_, ?_, ?_⟩
  · rw [e]; exact h0
  · rw [e]; exact h1
  · intro d hd
    have hp : (loadTexture r c s).params = s.params := by rw [e]
    rw [hp]
    rcases hm d hd with h | h
    · omega
    · exact ht d h

/-! ### The ROM decoder -/

/-- A turn of the ROM decoder keeps its registers within their widths. -/
theorem RomFsm.tick_fits {f : RomFsm} (h : f.Fits) (r : Rom) (texCap : Nat) (name : Word) :
    (f.tick r texCap name).Fits := by
  obtain ⟨hn, hi, hin, ho, hp, hw, hh, hk, hk0⟩ := h
  have r4 : ∀ a, r.read a 4 < 2 ^ 32 := fun a => by have := r.read_lt a 4; omega
  unfold RomFsm.tick
  cases hph : f.phase <;> simp only [hph, RomPhase.inRecord] at hin hk0 ⊢
  case idle => exact ⟨hn, hi, by simp [RomPhase.inRecord], ho, hp, hw, hh, hk, fun _ _ => by simp_all⟩
  case opening =>
    split <;> exact ⟨hn, hi, by simp [RomPhase.inRecord], ho, hp, hw, hh, hk, fun _ _ => by simp_all⟩
  case magic =>
    (repeat' split) <;> exact ⟨hn, hi, by simp [RomPhase.inRecord], ho, hp, hw, hh, hk, fun _ _ => by simp_all⟩
  case count =>
    split
    · exact ⟨hn, hi, by simp [RomPhase.inRecord], ho, hp, hw, hh, hk, fun _ _ => by simp_all⟩
    · have hb : (r.byte 4).toNat < 256 := (r.byte 4).isLt
      refine ⟨by dsimp only; omega, by dsimp only; omega, ?_, by dsimp only; omega, hp, hw, hh, hk, fun _ _ => by simp_all⟩
      dsimp only
      split
      · intro _; assumption
      · simp [RomPhase.inRecord]
  case hdr =>
    split
    · exact ⟨hn, hi, fun _ => hin trivial, ho, r4 _, r4 _, r4 _, by dsimp only; simp_all, fun _ _ => by simp_all⟩
    · exact ⟨hn, hi, by simp [RomPhase.inRecord], ho, hp, hw, hh, hk, fun _ _ => by simp_all⟩
  case matching =>
    exact ⟨hn, hi, fun _ => hin trivial, ho, hp, hw, hh, hk, fun _ _ => by simp_all⟩
  case skip =>
    have := hin trivial
    refine ⟨hn, by dsimp only; omega, ?_, by dsimp only; omega, hp, hw, hh, hk, fun _ _ => by simp_all⟩
    dsimp only
    split
    · intro _; assumption
    · simp [RomPhase.inRecord]
  case check =>
    split
    · exact ⟨hn, hi, by simp [RomPhase.inRecord], ho, hp, hw, hh, by dsimp only; omega, fun h => absurd rfl h⟩
    · exact ⟨hn, hi, by simp [RomPhase.inRecord], ho, hp, hw, hh, hk, fun _ _ => by simp_all⟩
  case copy =>
    split
    · exact ⟨hn, hi, by simp [RomPhase.inRecord], ho, hp, hw, hh, by dsimp only; omega, fun h => absurd rfl h⟩
    · exact ⟨hn, hi, by simp [RomPhase.inRecord], ho, hp, hw, hh, hk, fun _ h => absurd rfl h⟩
  case ok => exact ⟨hn, hi, by simp [RomPhase.inRecord, hph], ho, hp, hw, hh, hk, fun _ h => absurd hph h⟩
  case fail e =>
    exact ⟨hn, hi, by simp [RomPhase.inRecord, hph], ho, hp, hw, hh, hk, fun _ _ => by simp_all⟩

/-- The resting decoder fits. -/
theorem RomFsm.idle_fits : RomFsm.idle.Fits := by simp [RomFsm.Fits, RomFsm.idle, RomPhase.inRecord]

end Sys2Proof.Machine
end

