-- ==== Sys2Proof/Laws/PerInstr.lean ====
section
/-! SUPPORT. Facts of every command as syntax, one lemma a constructor. -/

namespace Sys2Proof.Laws.CommandWord

/-- The CMD word of an encoded command is its opcode of R93, with the reserved bits zero (R90, R94). -/
def Statement (i : Instr) : Prop := (encode i).op = i.opcode ∧ i.opcode.extractLsb' 8 24 = 0#24

theorem nop : Statement .nop := ⟨rfl, by simp [Instr.opcode]⟩

theorem config (w h : Nat) : Statement (.config w h) := ⟨rfl, by simp [Instr.opcode]⟩

theorem pixel (x y code : Int) : Statement (.pixel x y code) := ⟨rfl, by simp [Instr.opcode]⟩

theorem rect (xoff yoff : Int) : Statement (.rect xoff yoff) := ⟨rfl, by simp [Instr.opcode]⟩

theorem swap : Statement .swap := ⟨rfl, by simp [Instr.opcode]⟩

theorem rgb (r g b : Int) : Statement (.rgb r g b) := ⟨rfl, by simp [Instr.opcode]⟩

theorem decode (code : Int) : Statement (.decode code) := ⟨rfl, by simp [Instr.opcode]⟩

theorem hsv (h s v : Int) : Statement (.hsv h s v) := ⟨rfl, by simp [Instr.opcode]⟩

theorem grey (code : Int) : Statement (.grey code) := ⟨rfl, by simp [Instr.opcode]⟩

theorem romload (n0 n1 n2 n3 : Byte) : Statement (.romload n0 n1 n2 n3) := ⟨rfl, by simp [Instr.opcode]⟩

end Sys2Proof.Laws.CommandWord
end

