-- ==== Sys2Proof/Laws/Run.lean ====
section
/-! SUPPORT. Runs of several steps, one step at a time and in pieces. -/

namespace Sys2Proof.Machine

/-- A run starts with a step. -/
theorem run_succ {s t : State} (h : step s = .next t) (n : Nat) : core.run (n + 1) s = core.run n t := by
  have h' : core.step s = .next t := h
  simp only [Host.Core.run, h']

/-- Runs chain. -/
theorem run_add {m n : Nat} {s t u : State} (h : core.run m s = .next t) (h' : core.run n t = .next u) :
    core.run (m + n) s = .next u := by
  induction m generalizing s with
  | zero =>
    cases h
    rw [Nat.zero_add]
    exact h'
  | succ m ih =>
    have e : m + 1 + n = (m + n) + 1 := by omega
    rw [e]
    cases hs : core.step s with
    | next v =>
      rw [run_succ hs] at h ⊢
      exact ih h
    | fault f => exact nomatch f
    | refused r => simp [Host.Core.run, hs] at h

/-- With nothing scheduled and no command held, the host takes the step. -/
theorem step_host {s : State} (hs : s.schedule = []) (hl : s.lc = none) : step s = .next (hostTurn s) := by
  simp [step, nextTurn, hs, State.busy, hl, takeTurn]

/-- With nothing scheduled and a command held, the engine takes the step. -/
theorem step_engine {s : State} {c : Command} (hs : s.schedule = []) (hl : s.lc = some c) :
    step s = engineTurn s := by
  simp [step, nextTurn, hs, State.busy, hl, takeTurn]

/-- A host write that accepts no command, in a run with nothing scheduled and no command held. -/
theorem run_wr {s : State} {slot : Fin 64} {v : HostVal} {rest : List HostOp} (hs : s.schedule = []) (hl : s.lc = none)
    (hp : s.host.program = .wr slot v :: rest) (n : Nat) :
    core.run (n + 1) s = core.run n ((writeSlot slot (s.host.eval v) s).setProgram rest) := by
  rw [run_succ (step_host hs hl)]
  simp only [hostTurn, hp]

/-- A host read in such a run. -/
theorem run_rd {s : State} {slot : Fin 64} {x : Option Nat} {rest : List HostOp} (hs : s.schedule = [])
    (hl : s.lc = none) (hp : s.host.program = .rd slot x :: rest) (n : Nat) :
    core.run (n + 1) s = core.run n ((hostRd slot x s).setProgram rest) := by
  rw [run_succ (step_host hs hl)]
  simp only [hostTurn, hp]

/-- A WAIT in such a run ends at once. -/
theorem run_wait {s : State} {rest : List HostOp} (hs : s.schedule = []) (hl : s.lc = none)
    (hp : s.host.program = .wait :: rest) (n : Nat) :
    core.run (n + 1) s = core.run n { s with
      hostData := some s.statusWord, host := { s.host.setVar statusVar s.statusWord with program := rest } } := by
  rw [run_succ (step_host hs hl)]
  simp only [hostTurn, hp]
  rw [hostWait_eq rest s hp]
  simp [State.busy, hl]

/-- The write of CMD accepts the command, and the engine completes it next. -/
theorem run_command {s u : State} {v : HostVal} {rest : List HostOp} (hs : s.schedule = []) (hl : s.lc = none)
    (hp : s.host.program = .wr Reg.cmd.slot v :: rest)
    (hu : engineTurn { s with
      lc := some ⟨s.host.eval v, s.arg0, s.arg1, s.arg2⟩, host := { s.host with program := rest } } = .next u) (n : Nat) :
    core.run (n + 2) s = core.run n u := by
  rw [run_wr hs hl hp]
  have e : (writeSlot Reg.cmd.slot (s.host.eval v) s).setProgram rest =
      { s with lc := some ⟨s.host.eval v, s.arg0, s.arg1, s.arg2⟩, host := { s.host with program := rest } } := by
    simp [Reg.slot, writeSlot, slotReg, writeReg, State.busy, hl, accept, State.setProgram]
  rw [e]
  exact run_succ (by rw [← hu]; exact step_engine hs rfl) n

/-- Writing values to TEX_DATA one after another (R39, R102): the entries from TEX_ADDR on hold them, and TEX_ADDR has
moved past them. -/
theorem run_texels (vals : List HostVal) (rest : List HostOp) (s : State) (hs : s.schedule = []) (hl : s.lc = none)
    (hc : s.params.texCap < 2 ^ 32) (hn : s.texAddr.toNat + vals.length ≤ s.params.texCap)
    (hp : s.host.program = vals.map (HostOp.wr Reg.texData.slot) ++ rest) :
    ∃ t : State, (∀ n, core.run (vals.length + n) s = core.run n t) ∧
      t = { s with
        texAddr := BitVec.ofNat 32 (s.texAddr.toNat + vals.length), mem := { s.mem with tex := t.mem.tex }
        host := { s.host with program := rest } } ∧
      ∀ k, t.readTexel k =
        if h : s.texAddr.toNat ≤ k ∧ k - s.texAddr.toNat < vals.length then
          (s.host.eval (vals[k - s.texAddr.toNat]'h.2)).setWidth 16
        else s.readTexel k := by
  induction vals generalizing s with
  | nil =>
    have hp' : s.host.program = rest := hp
    refine ⟨s, fun n => by rw [List.length_nil, Nat.zero_add], ?_, fun k => by simp⟩
    rw [← hp', List.length_nil, Nat.add_zero, BitVec.ofNat_toNat, BitVec.setWidth_eq]
  | cons v vs ih =>
    simp only [List.length_cons] at hn
    rw [List.map_cons, List.cons_append] at hp
    have hlt : s.texAddr.toNat < s.params.texCap := by omega
    set u : State := { s with
      texAddr := BitVec.ofNat 32 (s.texAddr.toNat + 1)
      mem := { s.mem with tex := cellsPut s.texAddr.toNat ((s.host.eval v).setWidth 16) s.mem.tex }
      host := { s.host with program := vs.map (HostOp.wr Reg.texData.slot) ++ rest } } with hu
    have hw : (writeSlot Reg.texData.slot (s.host.eval v) s).setProgram (vs.map (HostOp.wr Reg.texData.slot) ++ rest) = u := by
      have e : s.texAddr + 1#32 = BitVec.ofNat 32 (s.texAddr.toNat + 1) := by
        apply BitVec.eq_of_toNat_eq
        simp [BitVec.toNat_add]
      simp [Reg.slot, writeSlot, slotReg, writeReg, writeTexData, State.busy, hl, hlt, State.writeTexel,
        State.setProgram, hu, e]
    have ha : u.texAddr.toNat = s.texAddr.toNat + 1 := by
      rw [hu]; simp only [BitVec.toNat_ofNat]; exact Nat.mod_eq_of_lt (by omega)
    obtain ⟨t, h1, h2, h3⟩ := ih u hs hl hc (by rw [ha]; simp only [hu]; omega) rfl
    refine ⟨t, ?_, ?_, ?_⟩
    · intro n
      rw [show (v :: vs).length + n = vs.length + n + 1 from by simp; omega]
      rw [run_wr hs hl hp, hw, h1]
    · rw [h2, ha]
      simp only [hu, List.length_cons]
      rw [show s.texAddr.toNat + 1 + vs.length = s.texAddr.toNat + (vs.length + 1) from by omega]
    · intro k
      rw [h3, ha]
      have hr : u.readTexel k =
          if k = s.texAddr.toNat then (s.host.eval v).setWidth 16 else s.readTexel k := by
        rw [← readTexel_writeTexel]; rfl
      have he : ∀ x, u.host.eval x = s.host.eval x := by
        intro x
        induction x with
        | lit _ => rfl
        | var _ => rfl
        | result => rfl
        | texel c ih => simp only [HostAgent.eval, ih]
      rw [hr]
      by_cases hk : k = s.texAddr.toNat
      · subst hk; simp
      · by_cases hk2 : s.texAddr.toNat + 1 ≤ k ∧ k - (s.texAddr.toNat + 1) < vs.length
        · have hk3 : s.texAddr.toNat ≤ k ∧ k - s.texAddr.toNat < (v :: vs).length := by
            simp only [List.length_cons]; omega
          rw [dif_pos hk2, dif_pos hk3, he]
          have : k - s.texAddr.toNat = (k - (s.texAddr.toNat + 1)) + 1 := by omega
          simp only [this, List.getElem_cons_succ]
        · rw [dif_neg hk2, if_neg hk, dif_neg]
          simp only [List.length_cons]; omega

/-- One read of GETTEX's loop (R103): the entry at TEX_ADDR goes to the end of the list. -/
theorem run_readTex_one {s : State} {cap x w h i : Nat} {rest : List HostOp} (hs : s.schedule = []) (hl : s.lc = none)
    (hp : s.host.program = .readTex cap x w h i :: rest) (hn : s.host.texels w h ≤ cap) (hi : i < s.host.texels w h)
    (ha : s.texAddr.toNat < s.params.texCap) (n : Nat) :
    core.run (n + 1) s = core.run n { s with
      texAddr := s.texAddr + 1
      hostData := some ((s.readTexel s.texAddr.toNat).setWidth 32)
      host :=
        { s.host.setTex x ((if i = 0 then [] else s.host.getTex x) ++ [(s.readTexel s.texAddr.toNat).setWidth 32]) with
          program := if i + 1 < s.host.texels w h then .readTex cap x w h (i + 1) :: rest else rest } } := by
  rw [run_succ (step_host hs hl)]
  congr 1
  simp only [hostTurn, hp, hostReadTex, if_neg (Nat.not_lt.mpr hn), if_pos hi]
  have e : hostRead Reg.texData.slot s = ((s.readTexel s.texAddr.toNat).setWidth 32, { s with
      texAddr := s.texAddr + 1, hostData := some ((s.readTexel s.texAddr.toNat).setWidth 32) }) := by
    have hd : readSlot Reg.texData.slot s =
        ((s.readTexel s.texAddr.toNat).setWidth 32, { s with texAddr := s.texAddr + 1 }) := by
      simp [Reg.slot, readSlot, slotReg, readReg, readTexData, State.busy, hl, ha]
    simp only [hostRead, hd]
    rfl
  rw [e]
  rfl

/-- GETTEX's loop (R103), from index i with m + 1 texels to come: they go to the end of the list, in order. -/
theorem run_readTex (m : Nat) {s : State} {cap x w h i : Nat} {rest : List HostOp} (hs : s.schedule = [])
    (hl : s.lc = none) (hp : s.host.program = .readTex cap x w h i :: rest) (hn : s.host.texels w h ≤ cap)
    (hm : s.host.texels w h = i + (m + 1)) (hc : s.params.texCap < 2 ^ 32) (hf : s.host.texels w h ≤ s.params.texCap)
    (ha : s.texAddr.toNat = i) :
    ∃ t : State, (∀ n, core.run (m + 1 + n) s = core.run n t) ∧
      t = { s with
        texAddr := BitVec.ofNat 32 (i + (m + 1)), hostData := t.hostData
        host := { s.host with program := rest, texVars := t.host.texVars } } ∧
      t.host.getTex x = (if i = 0 then [] else s.host.getTex x) ++
        (List.range (m + 1)).map fun k => (s.readTexel (i + k)).setWidth 32 := by
  have hadd : s.texAddr + 1 = BitVec.ofNat 32 (i + 1) := by
    apply BitVec.eq_of_toNat_eq
    simp [BitVec.toNat_add, ha]
  have hone := run_readTex_one hs hl hp hn (by omega) (by omega)
  rw [ha, hadd] at hone
  induction m generalizing s i with
  | zero =>
    rw [if_neg (show ¬ i + 1 < s.host.texels w h by omega)] at hone
    refine ⟨_, fun n => by rw [Nat.add_comm]; exact hone n, rfl, ?_⟩
    simp [HostAgent.getTex, HostAgent.setTex]
  | succ m ih =>
    rw [if_pos (show i + 1 < s.host.texels w h by omega)] at hone
    set u : State := { s with
      texAddr := BitVec.ofNat 32 (i + 1)
      hostData := some ((s.readTexel i).setWidth 32)
      host :=
        { s.host.setTex x ((if i = 0 then [] else s.host.getTex x) ++ [(s.readTexel i).setWidth 32]) with
          program := .readTex cap x w h (i + 1) :: rest } } with hu
    have hau : u.texAddr.toNat = i + 1 := by
      rw [hu]; simp only [BitVec.toNat_ofNat]; exact Nat.mod_eq_of_lt (by omega)
    have hadu : u.texAddr + 1 = BitVec.ofNat 32 (i + 1 + 1) := by
      apply BitVec.eq_of_toNat_eq
      simp [BitVec.toNat_add, hau]
    have htx : u.host.texels w h = s.host.texels w h := rfl
    have hou := run_readTex_one (s := u) (i := i + 1) hs hl rfl hn (by rw [htx]; omega)
      (by rw [hau]; show i + 1 < s.params.texCap; omega)
    rw [hau, hadu] at hou
    obtain ⟨t, h1, h2, h3⟩ := ih (s := u) (i := i + 1) hs hl rfl hn (by rw [htx, hm]; omega) hc hf hau hadu hou
    refine ⟨t, fun n => ?_, ?_, ?_⟩
    · rw [show m + 1 + 1 + n = m + 1 + n + 1 from by omega, hone, h1]
    · rw [h2, show i + 1 + (m + 1) = i + (m + 1 + 1) from by omega]
      rfl
    · have hg : u.host.getTex x = (if i = 0 then [] else s.host.getTex x) ++ [(s.readTexel i).setWidth 32] := by
        simp [hu, HostAgent.getTex, HostAgent.setTex]
      have hr : ∀ k, u.readTexel k = s.readTexel k := fun _ => rfl
      rw [h3, if_neg (by omega), hg, List.append_assoc, List.range_succ_eq_map (n := m + 1)]
      simp only [List.map_cons, List.map_map, hr, Nat.add_zero, List.singleton_append]
      congr 2
      apply List.map_congr_left
      intro k _
      simp only [Function.comp]
      rw [show i + 1 + k = i + (k + 1) from by omega]

end Sys2Proof.Machine
end

