-- ==== Sys2Proof/Machine/Asm.lean ====
section
/-! DEFINITION. The host language as text (R97 to R104, and the forms spec/95_test_vectors.md uses), from lines to the
statements of HostLang, and the written form of an access (R107). The name `$s` has the
number `statusVar`, and the other names are numbered after it in the order in which a program first uses them (log 11). -/

namespace Sys2Proof.Machine

/-- What a line is made of. -/
inductive Token where
  /-- A mnemonic, a register's name, or the `x` of a repeated RD. -/
  | word (w : List Char)
  | int (v : Int)
  | dollar (name : List Char)
  | quoted (s : List Char)
  | comma
  | arrow
  | lbracket
  | rbracket
  deriving DecidableEq, Repr

/-- The double quote. -/
def quoteChar : Char := Char.ofNat 34

/-- What the lexer is in the middle of. -/
inductive Lexing where
  | between
  | word (revChars : List Char)
  | quoted (revChars : List Char)
  deriving DecidableEq, Repr

/-- The value of a digit. -/
def digitOf (c : Char) : Option Nat :=
  let n := c.toNat
  if 48 ≤ n ∧ n ≤ 57 then some (n - 48)
  else if 65 ≤ n ∧ n ≤ 70 then some (n - 55)
  else if 97 ≤ n ∧ n ≤ 102 then some (n - 87)
  else none

/-- The number that digits write in a base, the digits before them giving `acc`. -/
def numberFrom (base : Nat) : Nat → List Char → Option Nat
  | acc, [] => some acc
  | acc, c :: cs =>
    match digitOf c with
    | some d => if d < base then numberFrom base (acc * base + d) cs else none
    | none => none

/-- A number of at least one digit. -/
def number (base : Nat) (cs : List Char) : Option Nat := if cs.isEmpty then none else numberFrom base 0 cs

/-- "in decimal (with an optional `-`) or in `0x` hexadecimal" (R97). -/
def integer (cs : List Char) : Option Int :=
  match cs with
  | '-' :: ds => (number 10 ds).map fun n => -(n : Int)
  | '0' :: 'x' :: ds => (number 16 ds).map fun n => (n : Int)
  | ds => (number 10 ds).map fun n => (n : Int)

/-- The token that a run of characters is. -/
def tokenOf (cs : List Char) : Except AsmError Token :=
  match cs with
  | '$' :: name => .ok (.dollar name)
  | c :: _ =>
    if c = '-' ∨ c.isDigit then
      match integer cs with
      | some v => .ok (.int v)
      | none => .error .notAStatement
    else .ok (.word cs)
  | [] => .error .notAStatement

/-- The tokens before `more`, ended where the lexer stands. -/
def Lexing.close (l : Lexing) (more : Except AsmError (List Token)) : Except AsmError (List Token) :=
  match l with
  | .between => more
  | .quoted _ => .error .notAStatement
  | .word rev => do
    let t ← tokenOf rev.reverse
    let ts ← more
    .ok (t :: ts)

/-- The tokens of a line; `;` starts a comment (R97), but not between quotes, where it is a character of a name: the
spec leaves that open, DESIGN CHOICE (log 11). -/
def lexLine : Lexing → List Char → Except AsmError (List Token)
  | l, [] => l.close (.ok [])
  | .quoted rev, c :: cs =>
    if c = quoteChar then (lexLine .between cs).map (Token.quoted rev.reverse :: ·) else lexLine (.quoted (c :: rev)) cs
  | l, '-' :: '>' :: cs => l.close ((lexLine .between cs).map (Token.arrow :: ·))
  | l, c :: cs =>
    if c = ';' then l.close (.ok [])
    else if c = ' ' ∨ c = '\t' ∨ c = '\r' then l.close (lexLine .between cs)
    else if c = ',' then l.close ((lexLine .between cs).map (Token.comma :: ·))
    else if c = '[' then l.close ((lexLine .between cs).map (Token.lbracket :: ·))
    else if c = ']' then l.close ((lexLine .between cs).map (Token.rbracket :: ·))
    else if c = quoteChar then l.close (lexLine (.quoted []) cs)
    else
      match l with
      | .word rev => lexLine (.word (c :: rev)) cs
      | _ => lexLine (.word [c]) cs

/-- The register of a name (R24). -/
def regOfName (name : List Char) : Option Reg :=
  [("ID", Reg.id), ("CAP0", .cap0), ("CAP1", .cap1), ("STATUS", .status), ("IRQ_EN", .irqEn), ("FB_W", .fbW),
    ("FB_H", .fbH), ("ARG0", .arg0), ("ARG1", .arg1), ("ARG2", .arg2), ("CMD", .cmd), ("RESULT", .result),
    ("TEX_W", .texW), ("TEX_H", .texH), ("TEX_ADDR", .texAddr), ("TEX_DATA", .texData), ("FB_ADDR", .fbAddr),
    ("FB_DATA", .fbData)].findSome? fun e => if e.1.toList = name then some e.2 else none

/-- The number of a variable's name, and the names with it among them. -/
def nameNumber (name : List Char) (names : List (List Char)) : Nat × List (List Char) :=
  match names.idxOf? name with
  | some k => (k, names)
  | none => (names.length, names ++ [name])

/-- An operand: an integer, `$RESULT`, or a variable (R97). A texel `$T[i]` that GETTEX has bound (R103) is no operand,
which the spec leaves open: DESIGN CHOICE (log 11). -/
def operandOf (t : Token) (names : List (List Char)) : Except AsmError (Operand × List (List Char)) :=
  match t with
  | .int v => .ok (.int v, names)
  | .dollar name =>
    if name = "RESULT".toList then .ok (.result, names)
    else .ok (.var (nameNumber name names).1, (nameNumber name names).2)
  | _ => .error .notAStatement

/-- Operands separated by commas (R97). -/
def operandsOf : List Token → List (List Char) → Except AsmError (List Operand × List (List Char))
  | [], names => .ok ([], names)
  | [t], names => do
    let (a, names) ← operandOf t names
    .ok ([a], names)
  | t :: .comma :: ts, names => do
    let (a, names) ← operandOf t names
    let (as, names) ← operandsOf ts names
    if ts.isEmpty then .error .notAStatement else .ok (a :: as, names)
  | _ :: _ :: _, _ => .error .notAStatement

/-- The value of WR: "v the 32-bit value" (R107), written as a signed or as an unsigned number (log 11). -/
def wrValue (a : Operand) : Except AsmError HostVal :=
  match a with
  | .int v => if 0 ≤ v then a.unsigned else a.signed
  | .var _ => a.signed
  | .result => a.signed

/-- A character of a ROMLOAD name as the byte it is. -/
def nameCharByte (c : Char) : Except AsmError Byte :=
  if c.toNat < 256 then .ok (BitVec.ofNat 8 c.toNat) else .error .notAStatement

/-- A command statement of operands alone. The w and h of FILL are integers: DESIGN CHOICE (log 11). -/
def commandStmt (mnemonic : List Char) (args : List Operand) : Except AsmError Stmt :=
  if mnemonic = "NOP".toList then match args with | [] => .ok .nop | _ => .error .notAStatement
  else if mnemonic = "SWAP".toList then match args with | [] => .ok .swap | _ => .error .notAStatement
  else if mnemonic = "CONFIG".toList then match args with | [w, h] => .ok (.config w h) | _ => .error .notAStatement
  else if mnemonic = "PIXEL".toList then match args with | [x, y, c] => .ok (.pixel x y c) | _ => .error .notAStatement
  else if mnemonic = "RECT".toList then match args with | [x, y] => .ok (.rect x y) | _ => .error .notAStatement
  else if mnemonic = "RGB".toList then match args with | [r, g, b] => .ok (.rgb r g b) | _ => .error .notAStatement
  else if mnemonic = "DECODE".toList then match args with | [c] => .ok (.decode c) | _ => .error .notAStatement
  else if mnemonic = "HSV".toList then match args with | [h, s, v] => .ok (.hsv h s v) | _ => .error .notAStatement
  else if mnemonic = "GREY".toList then match args with | [c] => .ok (.grey c) | _ => .error .notAStatement
  else if mnemonic = "WAIT".toList then match args with | [] => .ok .wait | _ => .error .notAStatement
  else if mnemonic = "FILL".toList then
    match args with
    | [x, y, .int w, .int h, c] => if 0 ≤ w ∧ 0 ≤ h then .ok (.fill x y w.toNat h.toNat c) else .error .doesNotFit
    | _ => .error .notAStatement
  else .error .notAStatement

/-- The statements that a line's tokens are: none on a line without any, several for a repeated RD
(`RD FB_DATA x 8`, a form of spec/95_test_vectors.md). A CHECK without a name binds `$e`, an RD without one binds no
variable; the w and h of SETTEX are integers: DESIGN CHOICE (log 11). -/
def stmtsOf (ts : List Token) (names : List (List Char)) : Except AsmError (List Stmt × List (List Char)) :=
  match ts with
  | [] => .ok ([], names)
  | [.word m, .quoted [c0, c1, c2, c3]] => do
    let n0 ← nameCharByte c0
    let n1 ← nameCharByte c1
    let n2 ← nameCharByte c2
    let n3 ← nameCharByte c3
    if m = "ROMLOAD".toList then .ok ([.romload n0 n1 n2 n3], names) else .error .notAStatement
  | [.word m, .word r, .comma, v] => do
    let (a, names) ← operandOf v names
    let v ← wrValue a
    match regOfName r with
    | some r => if m = "WR".toList then .ok ([.wr r v], names) else .error .notAStatement
    | none => .error .notAStatement
  | [.word m, .word r, .arrow, .dollar x] =>
    match regOfName r with
    | some r =>
      if m = "RD".toList then .ok ([.rd r (some (nameNumber x names).1)], (nameNumber x names).2)
      else .error .notAStatement
    | none => .error .notAStatement
  | [.word m, .word r] =>
    match regOfName r with
    | some r =>
      if m = "RD".toList then .ok ([.rd r none], names) else .error .notAStatement
    | none => .error .notAStatement
  | [.word m, .word r, .word times, .int n] =>
    match regOfName r with
    | some r =>
      if m = "RD".toList ∧ times = ['x'] ∧ 0 ≤ n then
        .ok (List.replicate n.toNat (.rd r none), names)
      else .error .notAStatement
    | none => .error .notAStatement
  | [.word m, .arrow, .dollar x] =>
    let (k, names) := nameNumber x names
    if m = "CHECK".toList then .ok ([.check k], names)
    else if m = "GETTEX".toList then
      let (w, names) := nameNumber ['w'] names
      let (h, names) := nameNumber ['h'] names
      .ok ([.gettex k w h], names)
    else .error .notAStatement
  | .word m :: args =>
    if m = "CHECK".toList ∧ args = [] then .ok ([.check (nameNumber ['e'] names).1], (nameNumber ['e'] names).2)
    else if m = "SETTEX".toList then
      match args with
      | .int w :: .comma :: .int h :: .comma :: .lbracket :: codes =>
        if codes.getLast? = some .rbracket then do
          let (as, names) ← operandsOf codes.dropLast names
          if 0 ≤ w ∧ 0 ≤ h then .ok ([.settex w.toNat h.toNat as], names) else .error .doesNotFit
        else .error .notAStatement
      | _ => .error .notAStatement
    else do
      let (as, names) ← operandsOf args names
      let st ← commandStmt m as
      .ok ([st], names)
  | _ :: _ => .error .notAStatement

/-- The lines of a text. -/
def linesOf : List Char → List (List Char)
  | [] => [[]]
  | c :: cs =>
    match linesOf cs with
    | [] => [[]]
    | l :: ls => if c = '\n' then [] :: l :: ls else (c :: l) :: ls

/-- The statements of lines, "one statement per line" (R97). -/
def parseLines : List (List Char) → List (List Char) → Except AsmError (List Stmt)
  | [], _ => .ok []
  | l :: ls, names => do
    let ts ← lexLine .between l
    let (sts, names) ← stmtsOf ts names
    let rest ← parseLines ls names
    .ok (sts ++ rest)

/-- A program's text, assembled into the host's operations (R97 to R104). -/
def assemble (texCap : Nat) (text : String) : Except AsmError (List HostOp) := do
  let sts ← parseLines (linesOf text.toList) [['s']]
  expandProgram texCap sts

/-! ### Accesses in writing (R107) -/

/-- The hexadecimal digit of a number below 16. -/
def hexDigit (n : Nat) : Char := "0123456789ABCDEF".toList.getD n '0'

/-- A number in so many hexadecimal digits. -/
def hexDigits : Nat → Nat → List Char
  | 0, _ => []
  | k + 1, n => hexDigits k (n / 16) ++ [hexDigit (n % 16)]

/-- "`W off v` for a write or `R off` for a read, with off the REG byte offset and v the 32-bit value in hex". -/
def Access.text (a : Access) : List Char :=
  match a with
  | .w off v => "W 0x".toList ++ hexDigits 2 off ++ " 0x".toList ++ hexDigits 8 v.toNat
  | .r off => "R 0x".toList ++ hexDigits 2 off

/-- The accesses that the host makes in the next n steps: over a program's run, its encoding (R107). -/
def accesses : Nat → State → List Access
  | 0, _ => []
  | n + 1, s =>
    (if (nextTurn s).1 = .host then s.host.nextAccess.toList else []) ++
      match step s with
      | .next t => accesses n t
      | .fault _ => []
      | .refused _ => []

end Sys2Proof.Machine
end

