-- ==== Sys2Proof/Tests/Slice0.lean ====
section
/-! SUPPORT. Tests. Expected results are those of spec/95_test_vectors.md (named V-... or P...) or of the rule named;
none is the model's own answer. The state S0 of the vectors fixes WMAX = HMAX = 64 and TEX_CAP = 1,000,000. -/

namespace Sys2Proof.Tests

open Sys2Proof Sys2Proof.Machine

/-! ### Helpers -/

/-- S0 (spec/95_test_vectors.md). -/
def s0 : State := { State.reset with params := ⟨64, 64, 1000000⟩ }

/-- S0 after `CONFIG w, h`, both banks all zero (R181). -/
def configured (w h : Nat) : State :=
  { s0 with
    cfg := true, fbW := BitVec.ofNat 32 w, fbH := BitVec.ofNat 32 h
    mem := ⟨⟨w * h, []⟩, ⟨w * h, []⟩, []⟩ }

/-- A texture as SETTEX leaves it. -/
def withTexture (w h : Nat) (codes : List Nat) (s : State) : State :=
  { s with
    texW := BitVec.ofNat 32 w, texH := BitVec.ofNat 32 h
    mem := { s.mem with tex := (List.range codes.length).zip (codes.map (BitVec.ofNat 16)) } }

/-- What a state shows after an outcome; none where it was no next state. -/
def seen {α : Type} (view : State → α) (o : Host.Outcome State Fault Refusal) : Option α :=
  match o with
  | .next t => some (view t)
  | .fault _ => none
  | .refused _ => none

/-- The V-ROM-1 image, 29 bytes (spec/95_test_vectors.md). -/
def rom1 : Rom :=
  ⟨[0x69#8, 0x6D#8, 0x61#8, 0x67#8, 0x01#8, 0x04#8, 0x00#8, 0x00#8, 0x00#8, 0x74#8, 0x65#8, 0x73#8, 0x74#8, 0x02#8, 0x00#8,
    0x00#8, 0x00#8, 0x02#8, 0x00#8, 0x00#8, 0x00#8, 0x01#8, 0x00#8, 0x41#8, 0x00#8, 0x81#8, 0x00#8, 0xC1#8, 0x00#8], true⟩

/-! ### WellFormed: one ill-formed term for each check -/

theorem test_wf_config_w : (Instr.config 4294967296 1).wellFormed = false := by decide
theorem test_wf_config_h : (Instr.config 1 4294967296).wellFormed = false := by decide
theorem test_wf_pixel_x : (Instr.pixel 2147483648 0 0).wellFormed = false := by decide
theorem test_wf_pixel_y : (Instr.pixel 0 (-2147483649) 0).wellFormed = false := by decide
theorem test_wf_pixel_code : (Instr.pixel 0 0 2147483648).wellFormed = false := by decide
theorem test_wf_rect_x : (Instr.rect (-2147483649) 0).wellFormed = false := by decide
theorem test_wf_rect_y : (Instr.rect 0 2147483648).wellFormed = false := by decide
theorem test_wf_rgb_r : (Instr.rgb 2147483648 0 0).wellFormed = false := by decide
theorem test_wf_rgb_g : (Instr.rgb 0 (-2147483649) 0).wellFormed = false := by decide
theorem test_wf_rgb_b : (Instr.rgb 0 0 2147483648).wellFormed = false := by decide
theorem test_wf_decode : (Instr.decode (-2147483649)).wellFormed = false := by decide
theorem test_wf_hsv_h : (Instr.hsv 2147483648 0 0).wellFormed = false := by decide
theorem test_wf_hsv_s : (Instr.hsv 0 (-2147483649) 0).wellFormed = false := by decide
theorem test_wf_hsv_v : (Instr.hsv 0 0 2147483648).wellFormed = false := by decide
theorem test_wf_grey : (Instr.grey 2147483648).wellFormed = false := by decide
theorem test_wf_bounds :
    (Instr.pixel (-2147483648) 2147483647 0).wellFormed = true ∧ (Instr.config 4294967295 0).wellFormed = true ∧
      Instr.nop.wellFormed = true ∧ Instr.swap.wellFormed = true ∧
      (Instr.romload 0x74#8 0x65#8 0x73#8 0x74#8).wellFormed = true := by decide

/-! ### Decoding: words written out from R90 to R93 -/

theorem test_decode_nop : decodeCommand ⟨0x00000000#32, 0xFFFFFFFF#32, 1#32, 2#32⟩ = .ok .nop := by decide
theorem test_decode_config :
    decodeCommand ⟨0x00000001#32, 0xFFFFFFFF#32, 0x00000002#32, 9#32⟩ = .ok (.config 4294967295 2) := by decide
theorem test_decode_pixel :
    decodeCommand ⟨0x00000002#32, 0x80000000#32, 0xFFFFFFFF#32, 0x00000200#32⟩ =
      .ok (.pixel (-2147483648) (-1) 512) := by decide
theorem test_decode_rect :
    decodeCommand ⟨0x00000003#32, 0x7FFFFFFF#32, 0xFFFFFFFE#32, 9#32⟩ = .ok (.rect 2147483647 (-2)) := by decide
theorem test_decode_swap : decodeCommand ⟨0x00000004#32, 1#32, 2#32, 3#32⟩ = .ok .swap := by decide
theorem test_decode_rgb : decodeCommand ⟨0x00000010#32, 1#32, 2#32, 3#32⟩ = .ok (.rgb 1 2 3) := by decide
theorem test_decode_decode :
    decodeCommand ⟨0x00000011#32, 0xFFFFFFFF#32, 2#32, 3#32⟩ = .ok (.decode (-1)) := by decide
theorem test_decode_hsv : decodeCommand ⟨0x00000012#32, 7#32, 6#32, 5#32⟩ = .ok (.hsv 7 6 5) := by decide
theorem test_decode_grey : decodeCommand ⟨0x00000013#32, 0x200#32, 2#32, 3#32⟩ = .ok (.grey 512) := by decide
/-- R92: "the name `test` (bytes 74 65 73 74) is `a0 = 0x74736574`". -/
theorem test_decode_romload :
    decodeCommand ⟨0x00000020#32, 0x74736574#32, 2#32, 3#32⟩ = .ok (.romload 0x74#8 0x65#8 0x73#8 0x74#8) := by decide
/-- R94: the ends of the three reserved ranges, and bits 31:8. -/
theorem test_decode_illegal :
    [0x05, 0x0F, 0x14, 0x1F, 0x21, 0xFF].all
        (fun v => decide (decodeCommand ⟨BitVec.ofNat 32 v, 0#32, 0#32, 0#32⟩ = .error .reservedOpcode)) = true ∧
      [0x100, 0x80000010, 0x01000000].all
        (fun v => decide (decodeCommand ⟨BitVec.ofNat 32 v, 0#32, 0#32, 0#32⟩ = .error .reservedBits)) = true := by decide
theorem test_tableWord :
    decodeTableWord 128 0x000001C1000000010000000300000002 = some (.pixel 3 1 449) ∧
      decodeTableWord 32 0x00000005 = none := by decide

/-! ### Commands, two tests each at the most -/

theorem test_nop : seen (fun t => (t.statusWord, t.busy)) (exec .nop s0) = some (0x00000002#32, false) := by decide
/-- V-ILL: 0x00000100 is no NOP. -/
theorem test_illegal :
    seen (fun t => t.statusWord) (step { s0 with lc := some ⟨0x00000100#32, 0, 0, 0⟩ }) = some 0x00000506#32 := by decide
/-- V-CFG row 1, from a bank that holds a pixel: both banks all 0. -/
theorem test_config :
    seen (fun t => (t.statusWord, t.fbW, t.fbH, t.readPixel .fb1 5, t.readPixel .fb0 4095))
        (exec (.config 64 64) (s0.writePixel .fb1 5 7#32)) = some (0x00000022#32, 64#32, 64#32, 0#32, 0#32) := by decide
/-- V-CFG rows 3 and 7: WMAX + 1, and ALREADY_CONFIGURED before CONFIG_INVALID. -/
theorem test_config_errors :
    seen (fun t => (t.statusWord, t.fbW)) (exec (.config 65 1) s0) = some (0x00000306#32, 0#32) ∧
      seen (fun t => t.errCode) (exec (.config 0 0) (configured 4 2)) = some .alreadyConfigured := by decide
/-- V-PIX row 2: the last pixel, in the back bank FB1; the front bank is left alone. -/
theorem test_pixel :
    seen (fun t => (t.readPixel .fb1 7, t.readPixel .fb1 3, t.readPixel .fb0 7)) (exec (.pixel 3 1 512) (configured 4 2)) =
      some (0xFFFCFCFC#32, 0#32, 0#32) := by decide
/-- V-PIX: x = W is clipped (and is not the next row), code 513 is a skip, CFG = 0 fails. -/
theorem test_pixel_corners :
    seen (fun t => t.mem) (exec (.pixel 4 0 1) (configured 4 2)) = some (configured 4 2).mem ∧
      seen (fun t => t.mem) (exec (.pixel 0 0 513) (configured 4 2)) = some (configured 4 2).mem ∧
      seen (fun t => t.statusWord) (exec (.pixel 0 0 449) s0) = some 0x00000206#32 := by decide
/-- The example of R184: V-ROM-1's texture at (-1, 0) on a 3 x 3 buffer. -/
theorem test_rect :
    seen (fun t => (List.range 9).map (t.readPixel .fb1)) (exec (.rect (-1) 0) (withTexture 2 2 [1, 65, 129, 193] (configured 3 3))) =
      some [0xFF000024#32, 0#32, 0#32, 0xFF00006C#32, 0#32, 0#32, 0#32, 0#32, 0#32] := by decide
/-- V-RECT: the exact product 2^32 is checked, and NOT_CONFIGURED before it. -/
theorem test_rect_errors :
    seen (fun t => t.errCode) (exec (.rect 0 0) { configured 4 2 with texW := 65536#32, texH := 65536#32 }) = some .texRange ∧
      seen (fun t => t.errCode) (exec (.rect 0 0) { s0 with texW := 65536#32, texH := 65536#32 }) = some .notConfigured := by
  decide
/-- V-SWAP row 2: front is FB1 with what was drawn, the new back is all 0. -/
theorem test_swap :
    seen (fun t => (t.frontSel, t.readPixel .fb1 0, t.readPixel .fb0 0))
        (exec .swap (((configured 4 2).writePixel .fb1 0 0xFF0000FC#32).writePixel .fb0 0 0xFF000001#32)) =
      some (.fb1, 0xFF0000FC#32, 0#32) := by decide
theorem test_swap_unconfigured : seen (fun t => t.statusWord) (exec .swap s0) = some 0x00000206#32 := by decide
theorem test_rgb : seen (fun t => t.result) (exec (.rgb 3 5 1) s0) = some 234#32 := by decide
/-- V-RGB: "the upper bits are not masked"; RESULT unchanged. -/
theorem test_rgb_domain :
    seen (fun t => (t.errCode, t.result)) (exec (.rgb 0 0 263) { s0 with result := 5#32 }) = some (.domain, 5#32) := by decide
/-- V-DEC: the channels lie in their own bytes. -/
theorem test_decode : seen (fun t => t.result) (exec (.decode 234) s0) = some 0xFF24B46C#32 := by decide
theorem test_decode_invalid :
    seen (fun t => (t.result, t.err)) (exec (.decode 513) s0) = some (0xFF000000#32, false) ∧
      seen (fun t => t.result) (exec (.decode 0) s0) = some 0xFF000000#32 := by decide
/-- V-HSV: hue 360 is hue 0 (R127, C4). -/
theorem test_hsv : seen (fun t => t.result) (exec (.hsv 7 7 7) s0) = some 449#32 := by decide +kernel
theorem test_hsv_domain : seen (fun t => t.errCode) (exec (.hsv 0 0 9) s0) = some .domain := by decide
/-- V-GREY: floor divisions, on 234 = (3, 5, 1) and on white. -/
theorem test_grey :
    seen (fun t => t.result) (exec (.grey 234) s0) = some 147#32 ∧
      seen (fun t => t.result) (exec (.grey 512) s0) = some 439#32 := by decide
theorem test_grey_invalid : seen (fun t => t.result) (exec (.grey 513) s0) = some 1#32 := by decide
/-- V-ROM-1. -/
theorem test_romload :
    seen (fun t => (t.result, t.texW, t.texH, t.mem.tex)) (exec (.romload 0x74#8 0x65#8 0x73#8 0x74#8) { s0 with rom := rom1 }) =
      some (4#32, 2#32, 2#32, [(0, 1#16), (1, 65#16), (2, 129#16), (3, 193#16)]) := by decide
/-- V-ROM-18: the comparison is case-sensitive; nothing is loaded. -/
theorem test_romload_notFound :
    seen (fun t => (t.errCode, t.mem.tex)) (exec (.romload 0x54#8 0x45#8 0x53#8 0x54#8) { s0 with rom := rom1 }) =
      some (.romNotFound, []) := by decide

/-! ### The HSV table of R128, h = 0 .. 6 (h = 7 is h = 0), rows s, columns v -/

/-- R128, the table for h = 0. -/
def hsvTable0 : List Int :=
  [1, 74, 147, 220, 293, 366, 439, 512,
   1, 74, 147, 220, 284, 357, 430, 503,
   1, 74, 138, 211, 284, 357, 421, 494,
   1, 74, 138, 211, 275, 348, 412, 485,
   1, 65, 138, 202, 275, 339, 412, 476,
   1, 65, 138, 202, 266, 330, 403, 467,
   1, 65, 129, 193, 266, 330, 394, 458,
   1, 65, 129, 193, 257, 321, 385, 449]

/-- R128, the table for h = 1. -/
def hsvTable1 : List Int :=
  [1, 74, 147, 220, 293, 366, 439, 512,
   1, 74, 147, 220, 292, 365, 438, 511,
   1, 74, 146, 219, 292, 365, 437, 510,
   1, 74, 146, 219, 291, 364, 436, 509,
   1, 73, 146, 218, 291, 363, 436, 500,
   1, 73, 146, 218, 290, 354, 427, 499,
   1, 73, 145, 217, 290, 354, 426, 498,
   1, 73, 145, 217, 281, 353, 425, 497]

/-- R128, the table for h = 2. -/
def hsvTable2 : List Int :=
  [1, 74, 147, 220, 293, 366, 439, 512,
   1, 74, 147, 220, 292, 301, 374, 447,
   1, 74, 146, 155, 228, 301, 373, 446,
   1, 74, 82, 155, 227, 236, 308, 381,
   1, 73, 82, 154, 163, 235, 308, 316,
   1, 9, 82, 90, 162, 170, 243, 251,
   1, 9, 81, 89, 162, 170, 178, 250,
   1, 9, 81, 89, 97, 105, 177, 185]

/-- R128, the table for h = 3. -/
def hsvTable3 : List Int :=
  [1, 74, 147, 220, 293, 366, 439, 512,
   1, 74, 147, 220, 229, 302, 375, 448,
   1, 74, 83, 156, 229, 301, 310, 383,
   1, 74, 83, 155, 164, 237, 246, 319,
   1, 10, 83, 91, 164, 173, 246, 254,
   1, 10, 82, 91, 100, 108, 181, 190,
   1, 10, 18, 27, 100, 108, 117, 125,
   1, 10, 18, 27, 35, 44, 52, 61]

/-- R128, the table for h = 4. -/
def hsvTable4 : List Int :=
  [1, 74, 147, 220, 293, 366, 439, 512,
   1, 74, 147, 220, 229, 302, 375, 448,
   1, 74, 83, 156, 229, 294, 303, 376,
   1, 74, 83, 148, 157, 230, 239, 312,
   1, 10, 83, 84, 157, 166, 239, 240,
   1, 10, 75, 84, 93, 94, 167, 176,
   1, 10, 11, 20, 93, 94, 103, 104,
   1, 10, 11, 20, 21, 30, 31, 40]

/-- R128, the table for h = 5. -/
def hsvTable5 : List Int :=
  [1, 74, 147, 220, 293, 366, 439, 512,
   1, 74, 147, 220, 285, 294, 367, 440,
   1, 74, 139, 148, 221, 294, 359, 432,
   1, 74, 75, 148, 213, 222, 287, 360,
   1, 66, 75, 140, 149, 214, 287, 288,
   1, 2, 75, 76, 141, 142, 215, 216,
   1, 2, 67, 68, 141, 142, 143, 208,
   1, 2, 67, 68, 69, 70, 135, 136]

/-- R128, the table for h = 6. -/
def hsvTable6 : List Int :=
  [1, 74, 147, 220, 293, 366, 439, 512,
   1, 74, 147, 220, 285, 358, 431, 504,
   1, 74, 139, 212, 285, 358, 423, 496,
   1, 74, 139, 212, 277, 350, 415, 488,
   1, 66, 139, 204, 277, 342, 415, 479,
   1, 66, 139, 204, 269, 333, 406, 471,
   1, 66, 131, 196, 269, 333, 398, 463,
   1, 66, 131, 196, 260, 325, 390, 455]

/-- The entries that the model computes for one h. -/
def hsvRow (h : Nat) : List Int :=
  (List.range 64).map fun k => hsvCode (h : Int) ((k / 8 : Nat) : Int) ((k % 8 : Nat) : Int)

theorem test_hsv_table :
    (List.range 8).map hsvRow =
      [hsvTable0, hsvTable1, hsvTable2, hsvTable3, hsvTable4, hsvTable5, hsvTable6, hsvTable0] := by decide +kernel

/-! ### The port, the display, the interrupt, the decoder, the host -/

/-- V-REG: CAP0 with WMAX = 320 and HMAX = 240, and TEX_CAP in CAP1. -/
theorem test_cap :
    (readSlot 1 { s0 with params := ⟨320, 240, 1000000⟩ }).1 = 0x00F00140#32 ∧ (readSlot 2 s0).1 = 0x000F4240#32 := by decide
/-- V-REG: TEX_DATA takes bits 15:0, at TEX_CAP nothing is written, and TEX_ADDR wraps. -/
theorem test_texData :
    (writeSlot 15 0x12345678#32 s0).mem.tex = [(0, 0x5678#16)] ∧
      (writeSlot 15 5#32 { s0 with texAddr := 1000000#32 }).mem.tex = [] ∧
      (readSlot 15 { s0 with texAddr := 0xFFFFFFFF#32 }).1 = 0#32 ∧
      (readSlot 15 { s0 with texAddr := 0xFFFFFFFF#32 }).2.texAddr = 0#32 := by decide
/-- V-OVR row 1: a CMD write while busy is dropped. -/
theorem test_overrun :
    (writeSlot 10 0x10#32 { s0 with lc := some ⟨0, 0, 0, 0⟩ }).statusWord = 0x00000009#32 ∧
      (writeSlot 10 0x10#32 { s0 with lc := some ⟨0, 0, 0, 0⟩ }).lc = some ⟨0, 0, 0, 0⟩ := by decide
/-- V-ACK: `W 0x0C 4` with STATUS = 0x00000106 leaves 0x00000002. -/
theorem test_ack :
    (writeSlot 3 4#32 { s0 with done := true, err := true, errCode := .domain }).statusWord = 0x00000002#32 := by decide
/-- V-IRQ row 1, and the enable of a flag that is clear. -/
theorem test_irq :
    State.irq { s0 with done := true, irqEn := 1#3 } = true ∧ State.irq { s0 with done := true, irqEn := 6#3 } = false := by decide
/-- V-REG: SO and FB_DATA read 0 at the address W*H, and the front bank below it. -/
theorem test_scanOut :
    seen (fun t => t.soData) (step { (configured 4 2).writePixel .fb0 7 9#32 with schedule := [.display 7#32] }) =
        some (some 9#32) ∧
      seen (fun t => t.soData) (step { (configured 4 2).writePixel .fb0 7 9#32 with schedule := [.display 8#32] }) =
        some (some 0#32) := by decide
/-- V-RST: an accepted SWAP is discarded by reset. -/
theorem test_reset :
    seen (fun t => (t.busy, t.cfg, t.statusWord, t.rom))
        (step { configured 4 2 with lc := some ⟨4, 0, 0, 0⟩, rom := rom1, schedule := [.reset] }) =
      some (false, false, 0#32, rom1) := by decide
/-- The decoder's states over V-ROM-1 (R153): OPEN, MAGIC, COUNT, HDR, MATCH, CHECK, COPY, four copies, OK. -/
theorem test_decoder :
    (List.range 13).map (fun n => (RomFsm.ticks rom1 1000000 0x74736574#32 n .idle).phase) =
      [.idle, .opening, .magic, .count, .hdr, .matching, .check, .copy, .copy, .copy, .copy, .copy, .ok] := by decide
/-- P2, as text: the statements of its first two lines. -/
theorem test_assemble :
    assemble 1000000 "CONFIG   3, 3\nROMLOAD  \"test\" ; load" =
      .ok [.wr 7 (.lit 3#32), .wr 8 (.lit 3#32), .wr 10 (.lit 1#32), .wait, .wr 7 (.lit 0x74736574#32), .wr 10 (.lit 0x20#32),
        .wait] := by decide
theorem test_assemble_refuses :
    assemble 1000000 "RGB 0x80000000, 0, 0" = .error .doesNotFit ∧ assemble 1000000 "PIXEL 0, 0" = .error .notAStatement := by
  decide
/-- R97, in the form of L1-2: the host reads RESULT after the RGB has completed, and then uses the value. -/
theorem test_assemble_result :
    assemble 1000000 "RGB 2, 1, 0\nPIXEL 2, 1, $RESULT" =
      .ok [.wr 7 (.lit 2#32), .wr 8 (.lit 1#32), .wr 9 (.lit 0#32), .wr 10 (.lit 0x10#32), .wait, .rd 11 none,
        .wr 7 (.lit 2#32), .wr 8 (.lit 1#32), .wr 9 .result, .wr 10 (.lit 2#32), .wait] := by decide
/-- R97: a read of RESULT that the program makes itself is not made again; one is made after the next command. -/
theorem test_assemble_result_once :
    assemble 1000000 "RGB 0, 0, 0\nRD RESULT -> $c\nDECODE $RESULT\nGREY $RESULT" =
      .ok [.wr 7 (.lit 0#32), .wr 8 (.lit 0#32), .wr 9 (.lit 0#32), .wr 10 (.lit 0x10#32), .wait, .rd 11 (some 1),
        .wr 7 .result, .wr 10 (.lit 0x11#32), .wait, .rd 11 none, .wr 7 .result, .wr 10 (.lit 0x13#32), .wait] := by decide
/-- R100: `$s` of a WAIT is STATUS; log 11: `;` between quotes belongs to the name, a variable is no w, and a
texel is no operand and no target. -/
theorem test_assemble_choices :
    assemble 1000000 "WAIT\nWR ARG0, $s" = .ok [.wait, .wr 7 (.var 0)] ∧
      assemble 1000000 "ROMLOAD \"a;b!\"" = .ok [.wr 7 (.lit 0x21623B61#32), .wr 10 (.lit 0x20#32), .wait] ∧
      assemble 1000000 "FILL 0, 0, $w, 1, 5" = .error .notAStatement ∧
      assemble 1000000 "WR ARG2, $T[0]" = .error .notAStatement ∧
      assemble 1000000 "RD TEX_DATA -> $T[0]" = .error .notAStatement := by decide
/-- R100: RD STATUS -> $s, here DONE and CFG. -/
theorem test_wait_binds :
    seen (fun t => (t.host.getVar statusVar, t.host.program))
        (step { configured 4 2 with done := true, host := ⟨[.wait], [], [], 0, false⟩ }) = some (0x22#32, []) := by decide
/-- R103: a GETTEX longer than TEX_CAP is refused, with no read of TEX_DATA. -/
theorem test_gettex_refused :
    seen (fun t => (t.host.refused, t.host.program, t.texAddr))
        (step { s0 with host := ⟨[.readTex 3 0 1 2 0, .wait], [(1, 2#32), (2, 2#32)], [], 0, false⟩ }) =
      some (true, [], 0#32) := by decide
/-- R108 with R106: a code of 2^31 is passed as 0, a coordinate of -2^31 - 1 as -1, a failed shader's code as 1. -/
theorem test_emulated :
    emulatedDrawing [(-2147483649, 3, some 2147483648), (0, 0, none)] =
      [.pixel (.int (-1)) (.int 3) (.int 0), .pixel (.int 0) (.int 0) (.int 1)] := by decide
/-- R256: what a scheduled reset would change is not part of the run, which has ended already; a display read is. -/
theorem test_runEnded :
    State.runEnded { s0 with schedule := [.reset] } = true ∧ State.runEnded { s0 with schedule := [.display 0#32] } = false ∧
      (runToEnd 5 { configured 4 2 with schedule := [.reset] }).map State.observe = some (configured 4 2).observe := by decide
/-- R107, in the form of P1: `W 0x28 0x00000001` and `R 0x0C`. -/
theorem test_access_text :
    (Access.w 0x28 1#32).text = "W 0x28 0x00000001".toList ∧ (Access.r 0x0C).text = "R 0x0C".toList := by decide

/-! ### Witnesses: the hypotheses of each obligation, met by concrete states and operands, each clause at the bounds of
its range -/

/-- A record that stands before the one looked for: name "abcd", one pixel. -/
def recAbcd : RomRecord := ⟨1, 0x61#8, 0x62#8, 0x63#8, 0x64#8, 5, 5, [7#8, 0#8]⟩

/-- A record of the name "test". -/
def recTest (p w h : Nat) (pixels : List Byte) : RomRecord := ⟨p, 0x74#8, 0x65#8, 0x73#8, 0x74#8, w, h, pixels⟩

/-- S0 with a ROM and a TEX_CAP. -/
def romState (texCap : Nat) (r : Rom) : State := { s0 with params := ⟨64, 64, texCap⟩, rom := r }

/-- S0 with a command held, and a schedule. -/
def held (c : Command) (sched : List Turn) (s : State) : State := { s with lc := some c, schedule := sched }

theorem test_witness_nop :
    s0.busy = false ∧ (held ⟨0x100#32, 1#32, 2#32, 3#32⟩ [.engine] s0).schedule = .engine :: [] ∧
      (held ⟨0x100#32, 1#32, 2#32, 3#32⟩ [.engine] s0).lc = some ⟨0x100#32, 1#32, 2#32, 3#32⟩ := by decide

theorem test_witness_rgb :
    ((0 : Int) ≤ 0 ∧ (0 : Int) ≤ 7 ∧ (0 : Int) ≤ 7 ∧ (7 : Int) ≤ 7) ∧ ((-1 : Int) < 0 ∨ (7 : Int) < -1) ∧ (7 : Int) < 8 := by
  decide

theorem test_witness_decode :
    ((1 : Int) ≤ 1 ∧ (1 : Int) ≤ 512) ∧ ((1 : Int) ≤ 512 ∧ (512 : Int) ≤ 512) ∧ ¬ ((1 : Int) ≤ 0 ∧ (0 : Int) ≤ 512) ∧
      ¬ ((1 : Int) ≤ 513 ∧ (513 : Int) ≤ 512) := by decide

theorem test_witness_hsv : ((0 : Nat) ≤ 7 ∧ (7 : Nat) ≤ 7) ∧ ((-1 : Int) < 0) ∧ (7 : Int) < 8 := by decide

theorem test_witness_grey :
    (1 : Int) ≤ 1 ∧ (512 : Int) ≤ 512 ∧ ¬ ((1 : Int) ≤ 0 ∧ (0 : Int) ≤ 512) ∧ ¬ ((1 : Int) ≤ 513 ∧ (513 : Int) ≤ 512) := by
  decide

theorem test_witness_codecLaws :
    (0 : Nat) ≤ 7 ∧ (7 : Nat) ≤ 7 ∧ paletteEncode 7 0 7 = paletteEncode 7 0 7 ∧ (1 : Int) ≤ 512 ∧
      decodeWord 512 = decodeWord 512 ∧ ¬ ((1 : Int) ≤ 0 ∧ (0 : Int) ≤ 512) := by decide

theorem test_witness_config :
    (configured 4 2).cfg = true ∧ s0.cfg = false ∧ (0 < 1 ∨ s0.params.wmax < 0) ∧ s0.params.hmax < 65 ∧
      (1 ≤ 64 ∧ 64 ≤ s0.params.wmax ∧ 1 ≤ 1 ∧ 1 ≤ s0.params.hmax) := by decide

theorem test_witness_pixel : s0.cfg = false ∧ (configured 4 2).cfg = true := by decide

theorem test_witness_rect :
    s0.cfg = false ∧
      (let s := { configured 4 2 with texW := 1000001#32, texH := 1#32 }
       s.cfg = true ∧ s.params.texCap < s.texW.toNat * s.texH.toNat) ∧
      (let s := { configured 4 2 with texW := 1000#32, texH := 1000#32 }
       s.cfg = true ∧ s.texW.toNat * s.texH.toNat ≤ s.params.texCap) ∧
      (3 : Nat) < (configured 4 2).fbW.toNat ∧ (1 : Nat) < (configured 4 2).fbH.toNat ∧
      (configured 4 2).fbW.toNat * (configured 4 2).fbH.toNat ≤ 8 := by decide

theorem test_witness_swap : s0.cfg = false ∧ (configured 4 2).cfg = true := by decide

theorem test_witness_romload :
    (romState 4 rom1).romSeen = [] ∧
      romload (romState 4 rom1).rom (romState 4 rom1).params.texCap (0x74#8 ++ 0x73#8 ++ 0x65#8 ++ 0x74#8) =
        .ok ⟨5, 4, 2, 2⟩ := by decide

theorem test_witness_romHeader :
    s0.romSeen = [] ∧ s0.rom.present = false ∧
      ((romState 4 ⟨[0x69#8, 0x6D#8, 0x61#8], true⟩).rom.present = true ∧
        (romState 4 ⟨[0x69#8, 0x6D#8, 0x61#8], true⟩).rom.bytes.length < 4) ∧
      (romState 4 ⟨[0x69#8, 0x6D#8, 0x61#8, 0x47#8], true⟩).rom.bytes.take 4 ≠ [0x69#8, 0x6D#8, 0x61#8, 0x67#8] ∧
      (romState 4 ⟨[0x69#8, 0x6D#8, 0x61#8, 0x67#8], true⟩).rom.bytes = [0x69#8, 0x6D#8, 0x61#8, 0x67#8] ∧
      (romState 4 ⟨[0x69#8, 0x6D#8, 0x61#8, 0x67#8, 0#8], true⟩).rom.bytes =
        [0x69#8, 0x6D#8, 0x61#8, 0x67#8, 0x00#8] ++ [] ∧
      (let rest : List Byte := List.replicate 15 0#8
       let s := romState 4 ⟨[0x69#8, 0x6D#8, 0x61#8, 0x67#8, 1#8] ++ rest, true⟩
       (1#8 : Byte) ≠ 0#8 ∧ rest.length < 16 ∧ s.rom.bytes = [0x69#8, 0x6D#8, 0x61#8, 0x67#8, 1#8] ++ rest) := by decide

/-- The premises on the record looked for and on the ones before it, over a list of pixel bytes. -/
theorem test_witness_records (p w h : Nat) (px : List Byte) (hp : p < 2 ^ 32) (hw : w < 2 ^ 32) (hh : h < 2 ^ 32) :
    (∀ r ∈ [recAbcd], r.complete ∧ ¬ r.sameName (recTest p w h px)) ∧ (recTest p w h px).headerFits ∧
      [recAbcd].length < 2 ∧ (2 : Nat) ≤ 255 := by
  refine ⟨?_, ⟨hp, hw, hh⟩, by decide, by decide⟩
  intro r hr
  rw [List.mem_singleton] at hr
  subst hr
  refine ⟨⟨⟨by decide, by decide, by decide⟩, by decide⟩, ?_⟩
  simp [RomRecord.sameName, recAbcd, recTest]

/-- One hit for each of the four clauses, each past the checks before its own. -/
theorem test_witness_matched :
    ((recTest 4 3 2 []).p ≠ (recTest 4 3 2 []).w * (recTest 4 3 2 []).h) ∧
      ((recTest 1000001 1000001 1 []).p = (recTest 1000001 1000001 1 []).w * (recTest 1000001 1000001 1 []).h ∧
        1000000 < (recTest 1000001 1000001 1 []).p) ∧
      ((recTest 4 2 2 []).p ≤ 1000000 ∧ (romState 3 rom1).params.texCap < (recTest 4 2 2 []).p) ∧
      (let hit := recTest 4 2 2 (List.replicate 7 0#8)
       let s := romState 4 (romImage 2 ([recAbcd] ++ [hit]))
       hit.p = hit.w * hit.h ∧ hit.p ≤ s.params.texCap ∧ hit.pixels.length < 2 * hit.p ∧
         s.rom = romImage 2 ([recAbcd] ++ [hit]) ∧ s.romSeen = []) := by decide

/-- Both clauses: the record is the last one; another was to come. -/
theorem test_witness_other :
    (∀ r ∈ ([] : List RomRecord), r.complete) ∧ recAbcd.headerFits ∧
      (∀ r ∈ [] ++ [recAbcd], ¬ (r.n0 = 0x74#8 ∧ r.n1 = 0x65#8 ∧ r.n2 = 0x73#8 ∧ r.n3 = 0x74#8)) ∧
      (romState 4 (romImage 1 ([] ++ [recAbcd]))).rom = romImage 1 ([] ++ [recAbcd]) ∧
      (1 : Nat) = ([] : List RomRecord).length + 1 ∧ ([] : List RomRecord).length + 1 < 2 ∧
      recAbcd.pixels.length < 2 * recAbcd.p + 16 := by
  refine ⟨fun r hr => absurd hr (by simp), ⟨by decide, by decide, by decide⟩, ?_, rfl, rfl, by decide, by decide⟩
  intro r hr
  rw [List.nil_append, List.mem_singleton] at hr
  subst hr
  decide

theorem test_witness_roundTrip :
    (let codes : List Texel := [1#16, 0xFFFF#16]
     let hit := recTest 2 2 1 (codes.flatMap (fun v => le16 v.toNat) ++ [9#8])
     let s := romState 2 (romImage 2 ([recAbcd] ++ [hit]))
     hit.w < 2 ^ 32 ∧ hit.h < 2 ^ 32 ∧ hit.p = hit.w * hit.h ∧ codes.length = hit.p ∧
       hit.pixels = codes.flatMap (fun v => le16 v.toNat) ++ [9#8] ∧ hit.p ≤ 1000000 ∧ hit.p ≤ s.params.texCap ∧
       s.rom = romImage 2 ([recAbcd] ++ [hit]) ∧ s.romSeen = []) := by decide

theorem test_witness_refines :
    (RomFsm.ticks rom1 1000000 0x74736574#32 12 .idle).phase = .ok ∧
      (RomFsm.ticks ⟨[], false⟩ 1000000 0x74736574#32 2 .idle).phase = .fail .romIoError := by decide

theorem test_witness_decoderTurn :
    (let s := held ⟨0x20#32, 0x74736574#32, 0, 0⟩ [.decoder] s0
     s.schedule = .decoder :: [] ∧ s.lc = some ⟨0x20#32, 0x74736574#32, 0, 0⟩) ∧
      { s0 with schedule := [Turn.decoder] }.lc = none := by decide

theorem test_witness_changedRom :
    (let s := held ⟨0x20#32, 0, 0, 0⟩ [.rom rom1] s0
     s.schedule = .rom rom1 :: [] ∧ s.lc = some ⟨0x20#32, 0, 0, 0⟩) ∧
      { s0 with schedule := [Turn.rom rom1] }.lc = none ∧ 28 < (romState 4 rom1).romForLoad.bytes.length := by decide

theorem test_witness_illegal :
    s0.lc = none ∧
      (let s := held ⟨0x100#32, 0, 0, 0⟩ [.engine] s0
       s.schedule = .engine :: [] ∧ s.lc = some ⟨0x100#32, 0, 0, 0⟩ ∧ (0x100#32 : Word).toNat / 256 ≠ 0) ∧
      (0xFF#32 : Word).toNat % 256 ∉ [0x00, 0x01, 0x02, 0x03, 0x04, 0x10, 0x11, 0x12, 0x13, 0x20] := by decide

/-- A command that fails where ERR = 1 already. -/
theorem test_witness_errSet :
    { s0 with err := true, errCode := .domain }.err = true ∧
      seen (fun t => (t.err, t.errCode)) (exec .swap { s0 with err := true, errCode := .domain }) = some (true, .domain) := by
  decide

theorem test_witness_accepted : (held ⟨0x05#32, 0, 0, 0⟩ [.host, .reset] s0).busy = true := by decide

theorem test_witness_encode :
    (Instr.pixel (-2147483648) 2147483647 0).wellFormed = true ∧ (Instr.config 4294967295 0).wellFormed = true ∧
      decodeCommand ⟨0x20#32, 1#32, 2#32, 3#32⟩ = .ok (.romload 1#8 0#8 0#8 0#8) ∧
      0x04#32 ∈ [0x00000000#32, 0x00000004#32] ∧ 0x13#32 ∈ [0x00000011#32, 0x00000013#32, 0x00000020#32] ∧
      0x03#32 ∈ [0x00000001#32, 0x00000003#32] := by decide

theorem test_witness_step :
    (let s := held ⟨0x10#32, 7#32, 0, 0⟩ [.engine] s0
     s.schedule = .engine :: [] ∧ decodeCommand ⟨0x10#32, 7#32, 0, 0⟩ = .ok (.rgb 7 0 0)) ∧
      (held ⟨0x10#32, 7#32, 0, 0⟩ [] s0).schedule = [] ∧ decodeTableWord 128 0x000000070000000010 = some (.rgb 1792 0 0) := by
  decide

theorem test_witness_identification : (2 : Fin 64).val ≤ 2 ∧ ∃ t, step s0 = .next t := ⟨by decide, _, rfl⟩

theorem test_witness_port :
    0x48 ≤ 4 * (18 : Fin 64).val ∧ 0x48 ≤ 4 * (63 : Fin 64).val ∧
      4 * (17 : Fin 64).val ∈ [0x00, 0x04, 0x08, 0x14, 0x18, 0x2C, 0x44] ∧ (16 : Nat) ≤ 31 ∧
      (writeSlot 3 2#32 { s0 with err := true }).err = true := by decide

theorem test_witness_operands :
    (let s := { s0 with host := ⟨[.wr 9 (.lit 7#32)], [], [], 0, false⟩ }
     (nextTurn s).1 ≠ .reset ∧ seen (fun t => decide (t.arg2 ≠ s.arg2)) (step s) = some true) ∧
      s0.lc = none ∧ ∃ t, exec (.rgb 8 0 0) s0 = .next t := ⟨by decide, rfl, _, rfl⟩

theorem test_witness_busy :
    s0.busy = false ∧ (held ⟨0, 0, 0, 0⟩ [] s0).busy = true ∧ 4 * (15 : Fin 64).val ∈ [0x28, 0x30, 0x34, 0x38, 0x3C] ∧
      4 * (3 : Fin 64).val ∉ [0x28, 0x30, 0x34, 0x38, 0x3C] ∧ 4 * (17 : Fin 64).val ∉ [0x0C, 0x3C] := by decide

/-- TEX_DATA below TEX_CAP, at it, and at the top of the register's range, idle and busy. -/
theorem test_witness_texData :
    (let s := { s0 with texAddr := 999999#32 }
     s.busy = false ∧ s.texAddr.toNat < s.params.texCap) ∧
      (let s := { s0 with texAddr := 1000000#32 }
       s.busy = false ∧ ¬ s.texAddr.toNat < s.params.texCap) ∧
      { s0 with texAddr := 0xFFFFFFFF#32 }.busy = false ∧ (held ⟨0, 0, 0, 0⟩ [] s0).busy = true := by decide

theorem test_witness_front :
    { configured 4 2 with schedule := [.display 7#32] }.schedule = .display 7#32 :: [] ∧
      (configured 4 2).fbW.toNat * (configured 4 2).fbH.toNat = 8 := by decide

/-- A PIXEL completes: the front bank stays. -/
theorem test_witness_frontChanges :
    (let s := held ⟨0x02#32, 0, 0, 1#32⟩ [] (configured 4 2)
     (nextTurn s).1 = .engine ∧ s.lc = some ⟨0x02#32, 0, 0, 1#32⟩ ∧ (0x02#32 : Word) ≠ 0x04#32 ∧
       (0x02#32 : Word) ≠ 0x01#32 ∧ (seen (fun _ => true) (step s)).isSome = true) := by decide

theorem test_witness_configuredOnce :
    (configured 4 2).cfg = true ∧ (nextTurn (configured 4 2)).1 ≠ .reset ∧
      (nextTurn { configured 4 2 with schedule := [.reset] }).1 = .reset ∧ s0.cfg = false ∧
      (let s := held ⟨0x01#32, 64#32, 1#32, 0⟩ [] s0
       (nextTurn s).1 = .engine ∧ seen (fun t => t.cfg) (step s) = some true) ∧
      (Instr.rect 0 0).opcode ∈ [0x00000002#32, 0x00000003#32, 0x00000004#32] := by decide

/-- A host write of STATUS clears each sticky flag. -/
theorem test_witness_sticky :
    (let s := { s0 with done := true, err := true, ovr := true, host := ⟨[.wr 3 (.lit 0x0E#32)], [], [], 0, false⟩ }
     (nextTurn s).1 ≠ .reset ∧ seen (fun t => (t.done, t.err, t.ovr)) (step s) = some (false, false, false)) := by decide

theorem test_witness_result :
    (let s := held ⟨0x10#32, 7#32, 0, 0⟩ [] s0
     (nextTurn s).1 ≠ .reset ∧ seen (fun t => decide (t.result ≠ s.result)) (step s) = some true) := by decide

/-- An entry changed by a TEX_DATA write, and one changed by a ROMLOAD. -/
theorem test_witness_texture :
    (let s := { withTexture 1 1 [5] s0 with host := ⟨[.wr 15 (.lit 7#32)], [], [], 0, false⟩ }
     seen (fun t => decide (t.readTexel 0 ≠ s.readTexel 0)) (step s) = some true) ∧
      (let s := held ⟨0x20#32, 0x74736574#32, 0, 0⟩ [] { withTexture 1 1 [5] s0 with rom := rom1 }
       seen (fun t => decide (t.readTexel 0 ≠ s.readTexel 0)) (step s) = some true) := by decide

theorem test_witness_whileBusy :
    (let s := held ⟨0x04#32, 0, 0, 0⟩ [.host] { configured 4 2 with host := ⟨[.wr 14 (.lit 7#32)], [], [], 0, false⟩ }
     s.busy = true ∧ (nextTurn s).1 ≠ .reset ∧ (nextTurn s).1 ≠ .engine ∧
       seen (fun t => t.ovr) (step s) = some true) := by decide

theorem test_witness_outside :
    s0.params.Legal ∧ ∃ t, exec (.config 64 64) s0 = .next t ∧ t.fbW.toNat * t.fbH.toNat ≤ 4096 :=
  ⟨⟨by decide, by decide, by decide, by decide, by decide, by decide⟩, _, rfl, by decide⟩

theorem test_witness_reset :
    { configured 4 2 with schedule := [Turn.reset] }.schedule = .reset :: [] ∧
      ∃ t, step { configured 4 2 with schedule := [Turn.reset] } = .next t := ⟨rfl, _, rfl⟩

/-- A configured block with a drawn pixel, an error on record, and a ROMLOAD under way meets the invariant. -/
theorem test_witness_invariant :
    (held ⟨0x20#32, 0, 0, 0⟩ [.decoder]
      { (configured 4 2).writePixel .fb1 7 (decodeWord 449) with err := true, errCode := .domain }).Inv ∧
      7 < (configured 4 2).fbW.toNat * (configured 4 2).fbH.toNat := by
  refine ⟨⟨⟨by decide, by decide, by decide, by decide, by decide, by decide⟩, ?_, ⟨by decide, ?_, ?_, ?_⟩, ?_, ?_⟩, by decide⟩
  · show 1 ≤ 4 ∧ 4 ≤ 64 ∧ 1 ≤ 2 ∧ 2 ≤ 64
    decide
  · exact ⟨rfl, fun c hc => nomatch hc⟩
  · exact Bank.write_drawn (b := ⟨8, []⟩) ⟨rfl, fun c hc => nomatch hc⟩ (by decide) ⟨449, by decide, rfl⟩
  · exact fun c hc => nomatch hc
  · simp [State.ErrInv, held]
  · exact ⟨fun h => absurd h (by decide), RomFsm.idle_fits⟩

theorem test_witness_statements :
    ((-2147483648 : Int) ≤ -2147483648 ∧ (-2147483648 : Int) ≤ 2147483647) ∧ ((-2147483649 : Int) < -2147483648) ∧
      ((2147483647 : Int) < 2147483648) ∧ ((0 : Int) ≤ 4294967295) ∧ ((-1 : Int) < 0) ∧ ((4294967295 : Int) < 4294967296) ∧
      Operand.unsigned (.int 4294967295) = .ok (.lit 0xFFFFFFFF#32) ∧ Operand.signed (.var 3) = .ok (.var 3) ∧
      Operand.signed .result = .ok .result := by decide

theorem test_witness_waitCheck :
    { s0 with host := ⟨[.wait], [], [], 0, false⟩ }.host.program = .wait :: [] ∧
      (let s := { s0 with host := ⟨[.check 1], [], [], 0, false⟩ }
       s.host.program = .check 1 :: [] ∧ s.err = false) ∧
      (let s := { s0 with host := ⟨[.check 1], [], [], 0, false⟩, err := true, errCode := .romNotFound }
       s.host.program = .check 1 :: [] ∧ s.err = true) := by decide

theorem test_witness_hostTurn :
    s0.host.nextAccess = none ∧
      { s0 with host := ⟨[.wr 15 (.texel (.var 2))], [(2, 7#32)], [], 0, false⟩ }.host.nextAccess = some (.w 0x3C 7#32) ∧
      { s0 with host := ⟨[.readTex 4 0 1 2 3], [(1, 2#32), (2, 2#32)], [], 0, false⟩ }.host.nextAccess = some (.r 0x3C) ∧
      { s0 with host := ⟨[.readTex 4 0 1 2 4], [(1, 2#32), (2, 2#32)], [], 0, false⟩ }.host.nextAccess = none := by decide

/-- FILL with a code of SETTEX's range, one outside it over the buffer's edge, and a variable and `$RESULT` (P4). -/
theorem test_witness_fill :
    (configured 4 2).params.Legal ∧ (configured 4 2).schedule = [] ∧ (configured 4 2).lc = none ∧
      (configured 4 2).cfg = true ∧
      (∃ ops, expandProgram (configured 4 2).params.texCap [.fill (.int (-1)) (.int (-1)) 3 3 (.int 512)] = .ok ops ∧
        ((configured 4 2).withProgram ops).host.program = ops) ∧
      (∃ ops, expandProgram (configured 4 2).params.texCap [.fill (.int 0) (.int 0) 0 5 (.int 70000)] = .ok ops ∧
        ((configured 4 2).withProgram ops).host.program = ops) ∧
      ∃ ops, expandProgram (configured 4 2).params.texCap [.fill (.var 3) (.var statusVar) 2 2 .result] = .ok ops ∧
        ((configured 4 2).withProgram ops).host.program = ops :=
  ⟨⟨by decide, by decide, by decide, by decide, by decide, by decide⟩, rfl, rfl, rfl, ⟨_, rfl, rfl⟩, ⟨_, rfl, rfl⟩,
    _, rfl, rfl⟩

theorem test_witness_result_operand :
    ((0 : Int) ≤ 0 ∧ (0 : Int) ≤ 7 ∧ (7 : Int) ≤ 7) ∧ (configured 3 3).schedule = [] ∧ (configured 3 3).lc = none ∧
      (configured 3 3).cfg = true ∧
      ∃ ops, expandProgram (configured 3 3).params.texCap
          [.rgb (.int 0) (.int 7) (.int 0), .pixel (.int (-2147483648)) (.int 2) .result] = .ok ops ∧
        ((configured 3 3).withProgram ops).host.program = ops :=
  ⟨by decide, rfl, rfl, rfl, _, rfl, rfl⟩

/-- A texture that TEX_CAP holds exactly, and one of an entry more. -/
theorem test_witness_gettex :
    s0.params.Legal ∧
      (withTexture 1000 1000 [] s0).texW.toNat * (withTexture 1000 1000 [] s0).texH.toNat ≤ s0.params.texCap ∧
      s0.params.texCap < (withTexture 1000001 1 [] s0).texW.toNat * (withTexture 1000001 1 [] s0).texH.toNat ∧
      (withTexture 2 2 [1, 65, 129, 193] s0).schedule = [] ∧ (withTexture 2 2 [1, 65, 129, 193] s0).lc = none ∧
      (withTexture 2 2 [1, 65, 129, 193] s0).host.refused = false ∧ (1 : Nat) ≠ 2 ∧
      ∃ ops, Stmt.expand s0.params.texCap (.gettex 0 1 2) = .ok ops ∧
        ((withTexture 2 2 [1, 65, 129, 193] s0).withProgram (ops ++ [.wait])).host.program = ops ++ [.wait] :=
  ⟨⟨by decide, by decide, by decide, by decide, by decide, by decide⟩, by decide, by decide, rfl, rfl, rfl, by decide,
    _, rfl, rfl⟩

/-- A run of two steps to its first end, and a state that is one with nothing scheduled. -/
theorem test_witness_runEnds :
    (let s := { s0 with host := ⟨[.wr 10 (.lit 0#32)], [], [], 0, false⟩ }
     s.runEnded = false ∧ (runToEnd 2 s).isSome = true ∧ runToEnd 1 s = none) ∧
      s0.runEnded = true ∧ s0.schedule = [] := by decide

theorem test_witness_driver :
    heldOr 0 2147483648 ≠ 2147483648 ∧ heldOr (-1) (-2147483649) ≠ -2147483649 ∧ ¬ ((0 : Int) ≤ 65536 ∧ (65536 : Int) ≤ 65535) ∧
      (configured 4 2).fbW.toNat ≤ 65535 ∧ (configured 4 2).fbH.toNat ≤ 65535 := by decide

end Sys2Proof.Tests
end

section
/-! SUPPORT. The register port slot by slot: what an access to each slot is, and what one of TEX_DATA does. -/

namespace Sys2Proof.Machine

/-- A read of a register's slot reads that register (R24). -/
theorem readSlot_slot (r : Reg) (s : State) : readSlot r.slot s = readReg r s := by
  simp only [readSlot, (slotReg_eq_some r.slot r).2 rfl]

/-- A write of a register's slot writes that register (R24). -/
theorem writeSlot_slot (r : Reg) (v : Word) (s : State) : writeSlot r.slot v s = writeReg r v s := by
  simp only [writeSlot, (slotReg_eq_some r.slot r).2 rfl]

/-- The next address modulo 2^32 (R39, R41). -/
theorem word_add_one (a : Word) : a + 1 = BitVec.ofNat 32 (a.toNat + 1) := by
  simp [BitVec.ofNat_add]

/-- A write of TEX_DATA while BUSY = 0 changes TEX_ADDR and, where it names an entry that exists, that entry (R39). -/
theorem writeTexData_idle (v : Word) {s : State} (hb : s.busy = false) :
    writeTexData v s =
      { s with
        texAddr := s.texAddr + 1
        mem := { s.mem with
          tex := if s.texAddr.toNat < s.params.texCap then cellsPut s.texAddr.toNat (v.setWidth 16) s.mem.tex
            else s.mem.tex } } := by
  by_cases hc : s.texAddr.toNat < s.params.texCap <;> simp [writeTexData, hb, hc]

/-- The texture entries after a write of TEX_DATA while BUSY = 0 (R39). -/
theorem readTexel_writeTexData (v : Word) {s : State} (hb : s.busy = false) (a : Nat) :
    (writeTexData v s).readTexel a =
      if a = s.texAddr.toNat ∧ a < s.params.texCap then v.setWidth 16 else s.readTexel a := by
  rw [writeTexData_idle v hb]
  by_cases hc : s.texAddr.toNat < s.params.texCap
  · simp only [hc, if_true]
    refine (readTexel_writeTexel s s.texAddr.toNat a _).trans (if_congr ?_ rfl rfl)
    exact ⟨fun h => ⟨h, h ▸ hc⟩, And.left⟩
  · simp only [hc, if_false]
    exact (if_neg (by rintro ⟨rfl, ha⟩; exact hc ha)).symm

/-- The operand registers after a host write of a register: the one written holds the value (R33). -/
theorem writeReg_args (r : Reg) (v : Word) (s : State) :
    (writeReg r v s).arg0 = (if r = .arg0 then v else s.arg0) ∧
      (writeReg r v s).arg1 = (if r = .arg1 then v else s.arg1) ∧
      (writeReg r v s).arg2 = (if r = .arg2 then v else s.arg2) := by
  cases r
  case cmd | texW | texH | texAddr => cases hb : s.busy <;> simp [writeReg, hb]
  case texData =>
    cases hb : s.busy
    · simp [writeReg, writeTexData_idle v hb]
    · simp [writeReg, writeTexData, hb]
  all_goals exact ⟨rfl, rfl, rfl⟩

/-- The operand registers after a host write of a slot (R24, R33). -/
theorem writeSlot_args (slot : Fin 64) (v : Word) (s : State) :
    (writeSlot slot v s).arg0 = (if slot = Reg.arg0.slot then v else s.arg0) ∧
      (writeSlot slot v s).arg1 = (if slot = Reg.arg1.slot then v else s.arg1) ∧
      (writeSlot slot v s).arg2 = (if slot = Reg.arg2.slot then v else s.arg2) := by
  have hr (r : Reg) : slot = r.slot ↔ slotReg slot = some r := (slotReg_eq_some slot r).symm
  simp only [hr, writeSlot]
  cases slotReg slot with
  | none => exact ⟨rfl, rfl, rfl⟩
  | some r => simpa only [Option.some.injEq] using writeReg_args r v s

/-- Bit 5 of STATUS is CFG (R29). -/
@[simp] theorem statusWord_cfg (s : State) : s.statusWord.getLsbD 5 = s.cfg := by
  simp only [State.statusWord, BitVec.getLsbD_append]; simp

/-- The acknowledgement of STATUS, flag by flag (R30). -/
theorem ackStatus_eq (v : Word) (s : State) :
    ackStatus v s =
      { s with
        done := if v.getLsbD 1 then false else s.done
        err := if v.getLsbD 2 then false else s.err
        errCode := if v.getLsbD 2 then .none else s.errCode
        ovr := if v.getLsbD 3 then false else s.ovr } := by
  have hflag (flag bit : Bool) : (flag && !bit) = if bit then false else flag := by cases bit <;> simp
  simp only [ackStatus, hflag]

/-- The two halves of CAP0 (R27). -/
theorem cap0_halves (p : Params) :
    p.cap0.extractLsb' 0 16 = BitVec.ofNat 16 p.wmax ∧ p.cap0.extractLsb' 16 16 = BitVec.ofNat 16 p.hmax :=
  ⟨BitVec.extractLsb'_append_eq_right, BitVec.extractLsb'_append_eq_left⟩

end Sys2Proof.Machine
end

section
/-! SUPPORT. What a turn of each agent leaves as it was, and what a step does to a register that only one agent
writes. -/

namespace Sys2Proof.Machine

/-- RD reads its slot; what it binds is the host's (R99). -/
theorem hostRd_reads (slot : Fin 64) (x : Option Nat) (s : State) :
    ∃ h, hostRd slot x s = { (readSlot slot s).2 with hostData := some (readSlot slot s).1, host := h } := by
  cases x <;> exact ⟨_, rfl⟩

/-- The host's turn against the access it makes (R107): none, a write or a read. -/
theorem hostTurn_access (s : State) :
    (s.host.nextAccess = none ∧ ∃ h, hostTurn s = { s with host := h }) ∨
      (∃ slot v h, s.host.nextAccess = some (.w (slotOffset slot) v) ∧
        hostTurn s = { writeSlot slot v s with host := h }) ∨
      ∃ slot h, s.host.nextAccess = some (.r (slotOffset slot)) ∧
        hostTurn s = { (readSlot slot s).2 with hostData := some (readSlot slot s).1, host := h } := by
  cases hp : s.host.program with
  | nil =>
    have hturn : hostTurn s = s := by simp only [hostTurn, hp]
    have hnext : s.host.nextAccess = none := by simp only [HostAgent.nextAccess, hp]
    exact .inl ⟨hnext, s.host, hturn⟩
  | cons op rest =>
    cases op with
    | wr slot v =>
      have hturn : hostTurn s = (writeSlot slot (s.host.eval v) s).setProgram rest := by simp only [hostTurn, hp]
      have hnext : s.host.nextAccess = some (.w (slotOffset slot) (s.host.eval v)) := by
        simp only [HostAgent.nextAccess, hp]
      exact .inr (.inl ⟨slot, _, _, hnext, hturn⟩)
    | rd slot x =>
      have hturn : hostTurn s = (hostRd slot x s).setProgram rest := by simp only [hostTurn, hp]
      have hnext : s.host.nextAccess = some (.r (slotOffset slot)) := by simp only [HostAgent.nextAccess, hp]
      obtain ⟨h, hread⟩ := hostRd_reads slot x s
      exact .inr (.inr ⟨slot, { h with program := rest }, hnext, by rw [hturn, hread]; rfl⟩)
    | wait =>
      have hturn : hostTurn s = hostWait rest s := by simp only [hostTurn, hp]
      have hnext : s.host.nextAccess = some (.r (slotOffset Reg.status.slot)) := by
        simp only [HostAgent.nextAccess, hp]
      exact .inr (.inr ⟨Reg.status.slot, _, hnext, hturn.trans (hostWait_eq rest s hp)⟩)
    | check x =>
      have hturn : hostTurn s = hostCheck x rest s := by simp only [hostTurn, hp]
      have hnext : s.host.nextAccess = some (.r (slotOffset Reg.status.slot)) := by
        simp only [HostAgent.nextAccess, hp]
      exact .inr (.inr ⟨Reg.status.slot, _, hnext, hturn.trans (hostCheck_eq x rest s)⟩)
    | readTex cap x w h i =>
      have hturn : hostTurn s = hostReadTex cap x w h i rest s := by simp only [hostTurn, hp]
      have hnext : s.host.nextAccess =
          if s.host.texels w h ≤ cap ∧ i < s.host.texels w h then some (.r (slotOffset Reg.texData.slot)) else none := by
        simp only [HostAgent.nextAccess, hp]
      rw [hturn, hnext, hostReadTex]
      by_cases hcap : cap < s.host.texels w h
      · exact .inl ⟨if_neg (by omega), _, if_pos hcap⟩
      rw [if_neg hcap]
      by_cases hi : i < s.host.texels w h
      · rw [if_pos hi, if_pos ⟨not_lt.1 hcap, hi⟩]
        exact .inr (.inr ⟨Reg.texData.slot, _, rfl, rfl⟩)
      · rw [if_neg hi]
        exact .inl ⟨if_neg fun h => hi h.2, _, rfl⟩

/-- The host's turn changes no more than the registers the host can write, the flags, the latched command, TEX, and what
is the host's own. -/
theorem hostTurn_frame (s : State) :
    hostTurn s =
      { s with
        done := (hostTurn s).done, err := (hostTurn s).err, ovr := (hostTurn s).ovr
        errCode := (hostTurn s).errCode, irqEn := (hostTurn s).irqEn
        arg0 := (hostTurn s).arg0, arg1 := (hostTurn s).arg1, arg2 := (hostTurn s).arg2
        texW := (hostTurn s).texW, texH := (hostTurn s).texH
        texAddr := (hostTurn s).texAddr, fbAddr := (hostTurn s).fbAddr
        mem := { s.mem with tex := (hostTurn s).mem.tex }, lc := (hostTurn s).lc
        hostData := (hostTurn s).hostData, host := (hostTurn s).host } := by
  obtain ⟨-, h, e⟩ | ⟨slot, v, h, -, e⟩ | ⟨slot, h, -, e⟩ := hostTurn_access s
  · rw [e]
  · rw [e, writeSlot_frame]
  · rw [e, readSlot_frame]

/-- What a command's completion can change: the flags of its end, its results, and the engine at rest (R23). -/
theorem exec_frame {i : Instr} {s t : State} (h : exec i s = .next t) :
    t = { s with
      done := true, err := t.err, errCode := t.errCode, fbW := t.fbW, fbH := t.fbH, result := t.result
      texW := t.texW, texH := t.texH, frontSel := t.frontSel, cfg := t.cfg, mem := t.mem
      lc := none, fsm := .idle, romSeen := [] } := by
  obtain ⟨e, -, he⟩ | ⟨u, hu, hf⟩ := exec_completes i s
  · rw [he] at h; cases h
    rw [completeError_eq]
  · rw [hu] at h; cases h
    rw [hf]; rfl

/-- What the engine's turn can change (R23). -/
theorem engineTurn_frame {s t : State} (h : engineTurn s = .next t) :
    t = { s with
      done := t.done, err := t.err, errCode := t.errCode, fbW := t.fbW, fbH := t.fbH, result := t.result
      texW := t.texW, texH := t.texH, frontSel := t.frontSel, cfg := t.cfg, mem := t.mem
      lc := t.lc, fsm := t.fsm, romSeen := t.romSeen } := by
  obtain ⟨-, e⟩ | ⟨c, i, -, -, e⟩ | ⟨c, e', -, -, e⟩ := engineTurn_cases s <;> rw [e] at h
  · cases h; rfl
  · rw [exec_frame h]
  · cases h
    rw [completeError_eq]

/-- The ROM decoder's turn moves its registers only (R153). -/
theorem decoderTurn_frame (s : State) : decoderTurn s = { s with fsm := (decoderTurn s).fsm } := by
  unfold decoderTurn
  split
  · split <;> rfl
  · rfl

/-- A change of the ROM changes the ROM and the model's record of it only (R10; log 9). -/
theorem romTurn_frame (r : Rom) (s : State) :
    romTurn r s = { s with rom := r, romSeen := (romTurn r s).romSeen, draws := (romTurn r s).draws } := by
  unfold romTurn
  split <;> rfl

/-- No step changes the parameters (R9). -/
theorem step_params {s t : State} (h : step s = .next t) : t.params = s.params :=
  step_turns (fun _ s t => t.params = s.params) (fun _ _ _ _ h => h) (fun s => by rw [hostTurn_frame])
    (fun _ _ h => by rw [engineTurn_frame h]) (fun s => by rw [decoderTurn_frame]) (fun _ _ => rfl)
    (fun r s => by rw [romTurn_frame]) (fun _ => rfl) h

end Sys2Proof.Machine
end

section
/-! PROOF. The statements about the identification registers, STATUS, CMD, TEX_DATA, the size and address registers and
the two ports onto the front bank. -/

namespace Sys2Proof.Machine

/-- Settles O29: the reads are the port's equations, and no agent's turn changes the parameters. -/
theorem identificationRegistersAreConstant : Obligations.IdentificationRegistersAreConstant := by
  unfold Obligations.IdentificationRegistersAreConstant
  refine ⟨readSlot_slot .id, fun s => ?_, readSlot_slot .cap1, fun slot v s hslot => ?_, fun _ _ => step_params⟩
  · obtain ⟨hlow, hhigh⟩ := cap0_halves s.params
    have hread : readSlot 1 s = (s.params.cap0, s) := readSlot_slot .cap0 s
    rw [hread, hlow, hhigh]
    exact ⟨rfl, BitVec.toNat_ofNat .., BitVec.toNat_ofNat ..⟩
  · have hslots : ∀ k : Fin 64, k.val ≤ 2 → k = Reg.id.slot ∨ k = Reg.cap0.slot ∨ k = Reg.cap1.slot := by decide
    obtain rfl | rfl | rfl := hslots slot hslot
    · exact writeSlot_slot .id v s
    · exact writeSlot_slot .cap0 v s
    · exact writeSlot_slot .cap1 v s

/-- Settles O32: the write is the acknowledgement, flag by flag. -/
theorem statusWriteOnesClear : Obligations.StatusWriteOnesClear :=
  fun v s => (writeSlot_slot .status v s).trans (ackStatus_eq v s)

/-- Settles O35, by the two cases of BUSY. -/
theorem commandWriteIsAcceptedOrDropped : Obligations.CommandWriteIsAcceptedOrDropped := by
  unfold Obligations.CommandWriteIsAcceptedOrDropped
  have hcmd (v : Word) (s : State) : writeSlot 10 v s = if s.busy then overrun s else accept v s :=
    writeSlot_slot .cmd v s
  refine ⟨fun v s hb => ?_, fun v s hb => ?_, readSlot_slot .cmd⟩ <;> rw [hcmd, hb] <;> rfl

/-- Settles O37: the write's texture entries one by one, the read by the two cases of BUSY. -/
theorem texDataWindow : Obligations.TexDataWindow := by
  unfold Obligations.TexDataWindow
  have hwrite (v : Word) (s : State) : writeSlot 15 v s = writeTexData v s := writeSlot_slot .texData v s
  have hread (s : State) : readSlot 15 s = readTexData s := readSlot_slot .texData s
  refine ⟨fun v s hb => ⟨_, hwrite v s, ?_, fun a => ?_⟩, fun s hb => ?_, fun v s hb => ?_⟩
  · rw [writeTexData_idle v hb, word_add_one]
  · rw [readTexel_writeTexData v hb, BitVec.setWidth_eq_extractLsb' (by decide)]
  · rw [hread, ← word_add_one]
    simp only [readTexData, hb, BitVec.ofNat_toNat]
    rfl
  · rw [hwrite, hread]
    simp only [writeTexData, readTexData, hb]
    exact ⟨rfl, rfl⟩

/-- Settles O38: TEX_W, TEX_H and TEX_ADDR by the two cases of BUSY, FB_ADDR and the reads by the port's equations. -/
theorem sizeAndAddressRegistersHoldTheLastWrite : Obligations.SizeAndAddressRegistersHoldTheLastWrite := by
  unfold Obligations.SizeAndAddressRegistersHoldTheLastWrite
  have hw (v : Word) (s : State) : writeSlot 12 v s = if s.busy then overrun s else { s with texW := v } :=
    writeSlot_slot .texW v s
  have hh (v : Word) (s : State) : writeSlot 13 v s = if s.busy then overrun s else { s with texH := v } :=
    writeSlot_slot .texH v s
  have ha (v : Word) (s : State) : writeSlot 14 v s = if s.busy then overrun s else { s with texAddr := v } :=
    writeSlot_slot .texAddr v s
  refine ⟨fun v s hb => ?_, fun v s hb => ?_, writeSlot_slot .fbAddr, rfl, fun s => ?_, fun s => ?_⟩
  · rw [hw, hh, ha, hb]; exact ⟨rfl, rfl, rfl⟩
  · rw [hw, hh, ha, hb]; exact ⟨rfl, rfl, rfl⟩
  · exact congrArg Prod.fst (readSlot_slot .fbData s)
  · exact ⟨readSlot_slot .texW s, readSlot_slot .texH s, readSlot_slot .texAddr s, readSlot_slot .fbAddr s⟩

/-- Settles O39: both ports return the front bank's pixel as `State.frontPixel` has it. -/
theorem frontBankIsReadThroughBothPorts : Obligations.FrontBankIsReadThroughBothPorts := by
  unfold Obligations.FrontBankIsReadThroughBothPorts
  refine ⟨fun s a rest hs => ?_, fun s => ?_⟩
  · have hnext : nextTurn s = (.display a, { s with schedule := rest }) := by simp only [nextTurn, hs]
    rw [step, hnext]
    rfl
  · rw [← word_add_one]
    exact readSlot_slot .fbData s

end Sys2Proof.Machine
end

section
/-! PROOF. The operand registers: only the host's writes change them, and no command's outcome depends on them. -/

namespace Sys2Proof.Machine

/-- The state with other operand registers. -/
def State.withOperands (a b c : Word) (s : State) : State := { s with arg0 := a, arg1 := b, arg2 := c }

/-- A register that went from `old` to `new` in a turn of u kept its value, or holds what the host wrote at `off`. -/
def WrittenByHost (u : Turn) (s : State) (off : Nat) (old new : Word) : Prop :=
  new ≠ old → u = .host ∧ s.host.nextAccess = some (.w off new)

/-- What every turn but reset does to the operand registers (R33). -/
def OperandRule (u : Turn) (s t : State) : Prop :=
  u ≠ .reset → WrittenByHost u s 0x1C s.arg0 t.arg0 ∧ WrittenByHost u s 0x20 s.arg1 t.arg1 ∧
    WrittenByHost u s 0x24 s.arg2 t.arg2

/-- A turn that leaves the operand registers meets their rule. -/
theorem operandRule_of_eq {u : Turn} {s t : State} (h0 : t.arg0 = s.arg0) (h1 : t.arg1 = s.arg1)
    (h2 : t.arg2 = s.arg2) : OperandRule u s t :=
  fun _ => ⟨fun h => absurd h0 h, fun h => absurd h1 h, fun h => absurd h2 h⟩

/-- The slot the host writes changes to the value written; a register with another slot is kept. -/
theorem writtenByHost_of_write {s : State} {slot : Fin 64} {v old : Word}
    (h : s.host.nextAccess = some (.w (slotOffset slot) v)) (r : Fin 64) :
    WrittenByHost .host s (slotOffset r) old (if slot = r then v else old) := by
  intro hne
  by_cases hs : slot = r
  · rw [if_pos hs, ← hs]; exact ⟨rfl, h⟩
  · exact absurd (if_neg hs) hne

/-- The host's turn changes an operand register only to the value it writes there. -/
theorem hostTurn_operandRule (s : State) : OperandRule .host s (hostTurn s) := by
  obtain ⟨-, h, e⟩ | ⟨slot, v, h, ha, e⟩ | ⟨slot, h, -, e⟩ := hostTurn_access s <;> rw [e]
  · exact operandRule_of_eq rfl rfl rfl
  · intro _
    obtain ⟨h0, h1, h2⟩ := writeSlot_args slot v s
    dsimp only
    rw [h0, h1, h2]
    exact ⟨writtenByHost_of_write ha _, writtenByHost_of_write ha _, writtenByHost_of_write ha _⟩
  · rw [readSlot_frame]
    exact operandRule_of_eq rfl rfl rfl

/-- Every step meets the operand registers' rule. -/
theorem step_operandRule {s t : State} (h : step s = .next t) : OperandRule (nextTurn s).1 s t :=
  step_turns OperandRule (fun _ _ _ _ h => h) hostTurn_operandRule
    (fun s t h => by rw [engineTurn_frame h]; exact operandRule_of_eq rfl rfl rfl)
    (fun s => by rw [decoderTurn_frame]; exact operandRule_of_eq rfl rfl rfl)
    (fun _ _ => operandRule_of_eq rfl rfl rfl)
    (fun r s => by rw [romTurn_frame]; exact operandRule_of_eq rfl rfl rfl)
    (fun _ h => absurd rfl h) h

/-- A loop runs the same through a map of states that each of its rounds commutes with. -/
theorem forUpto_map {σ : Type} (f : Nat → σ → σ) (g : σ → σ) (h : ∀ k u, f k (g u) = g (f k u)) (n : Nat)
    (s : σ) : forUpto f n (g s) = g (forUpto f n s) := by
  induction n with
  | zero => rfl
  | succ n ih => rw [forUpto, ih, h, forUpto]

section Operands
variable (a b c : Word)

theorem completeError_withOperands (e : ErrCode) (s : State) :
    completeError e (s.withOperands a b c) = (completeError e s).withOperands a b c := by
  rw [completeError_eq, completeError_eq]; rfl

theorem plot_withOperands (x y code : Int) (s : State) :
    plot x y code (s.withOperands a b c) = (plot x y code s).withOperands a b c := by
  rw [plot, plot, apply_ite (State.withOperands a b c)]
  rfl

theorem drawTexture_withOperands (xoff yoff : Int) (s : State) :
    drawTexture xoff yoff (s.withOperands a b c) = (drawTexture xoff yoff s).withOperands a b c := by
  unfold drawTexture
  refine forUpto_map _ (State.withOperands a b c) (fun ty u => ?_) _ s
  refine forUpto_map _ (State.withOperands a b c) (fun tx v => ?_) _ u
  exact plot_withOperands a b c _ _ _ v

theorem loadTexture_withOperands (r : Rom) (d : RomHit) (s : State) :
    loadTexture r d (s.withOperands a b c) = (loadTexture r d s).withOperands a b c := by
  have hloop := forUpto_map (fun k t => t.writeTexel k (BitVec.ofNat 16 (r.read (d.o + 16 + 2 * k) 2)))
    (State.withOperands a b c) (fun _ _ => rfl) d.p s
  simp only [loadTexture, hloop]
  rfl

/-- Where the outcome x is a state, x' is that state with the other operand registers. -/
def Carries (x x' : Host.Outcome State Fault Refusal) : Prop :=
  ∀ t, x = .next t → x' = .next (t.withOperands a b c)

variable {a b c}

theorem carries_complete {s s' : State} (h : s' = s.withOperands a b c) :
    Carries a b c (.next (complete s)) (.next (complete s')) := by
  rintro t ⟨⟩
  rw [h]; rfl

theorem carries_completeError (e : ErrCode) (s : State) :
    Carries a b c (.next (completeError e s)) (.next (completeError e (s.withOperands a b c))) := by
  rintro t ⟨⟩
  rw [completeError_withOperands]

theorem carries_ite {p : Prop} [Decidable p] {x x' y y' : Host.Outcome State Fault Refusal} (hx : Carries a b c x x')
    (hy : Carries a b c y y') : Carries a b c (if p then x else y) (if p then x' else y') := by
  split
  · exact hx
  · exact hy

variable (a b c)

/-- The completion of a command is the same whatever the operand registers hold (R33). -/
theorem exec_withOperands (i : Instr) (s : State) : Carries a b c (exec i s) (exec i (s.withOperands a b c)) := by
  cases i with
  | nop => exact carries_complete rfl
  | config w h =>
    exact carries_ite (carries_completeError _ s) (carries_ite (carries_complete rfl) (carries_completeError _ s))
  | pixel x y code =>
    exact carries_ite (carries_complete (plot_withOperands a b c x y code s)) (carries_completeError _ s)
  | rect x y =>
    exact carries_ite
      (carries_ite (carries_completeError _ s) (carries_complete (drawTexture_withOperands a b c x y s)))
      (carries_completeError _ s)
  | swap => exact carries_ite (carries_complete rfl) (carries_completeError _ s)
  | rgb r g bl => exact carries_ite (carries_complete rfl) (carries_completeError _ s)
  | decode code => exact carries_complete rfl
  | hsv hue sat v => exact carries_ite (carries_complete rfl) (carries_completeError _ s)
  | grey code => exact carries_complete rfl
  | romload n0 n1 n2 n3 =>
    have hrom : (s.withOperands a b c).romForLoad = s.romForLoad := rfl
    have hparams : (s.withOperands a b c).params = s.params := rfl
    simp only [exec, execRomload, hrom, hparams]
    cases romload s.romForLoad s.params.texCap (nameWord n0 n1 n2 n3) with
    | ok d => exact carries_complete (loadTexture_withOperands a b c _ d s)
    | error e => exact carries_completeError e s

end Operands

/-- Settles O34: each step meets the operand registers' rule, and a command carries them through its completion
unread. -/
theorem operandRegistersHoldTheLastWrite : Obligations.OperandRegistersHoldTheLastWrite := by
  unfold Obligations.OperandRegistersHoldTheLastWrite
  refine ⟨fun v s => ⟨writeSlot_slot .arg0 v s, writeSlot_slot .arg1 v s, writeSlot_slot .arg2 v s⟩,
    fun s => ⟨readSlot_slot .arg0 s, readSlot_slot .arg1 s, readSlot_slot .arg2 s⟩, ⟨rfl, rfl, rfl⟩,
    fun _ _ h => step_operandRule h, fun v s hl => ?_,
    fun i s t a b c h => ⟨?_, ?_, ?_, exec_withOperands a b c i s t h⟩⟩
  · rw [show writeSlot 10 v s = _ from writeSlot_slot .cmd v s]
    simp [writeReg, State.busy, hl]
  all_goals rw [exec_frame h]

end Sys2Proof.Machine
end

section
/-! PROOF. CFG and the framebuffer's size: a successful CONFIG sets them, and only a reset clears CFG. -/

namespace Sys2Proof.Machine

/-- CFG and the framebuffer's size as they were (R43). -/
def SameSize (s t : State) : Prop := t.cfg = s.cfg ∧ t.fbW = s.fbW ∧ t.fbH = s.fbH

/-- The latched command is a CONFIG of a legal size (R181). -/
def ConfiguresNow (s : State) : Prop :=
  ∃ c : Command, s.lc = some c ∧ c.op = 0x00000001#32 ∧
    1 ≤ c.a0.toNat ∧ c.a0.toNat ≤ s.params.wmax ∧ 1 ≤ c.a1.toNat ∧ c.a1.toNat ≤ s.params.hmax

/-- What an agent's turn does to CFG and the size (R43). -/
def SizeRule (u : Turn) (s t : State) : Prop :=
  match u with
  | .engine => (s.cfg = true → SameSize s t) ∧ (s.cfg = false → (t.cfg = true ↔ ConfiguresNow s))
  | .reset => t.cfg = false
  | .host => SameSize s t
  | .decoder => SameSize s t
  | .display _ => SameSize s t
  | .rom _ => SameSize s t

/-- A CMD word whose reserved bits are zero is its low byte (R90). -/
theorem op_eq_low_byte {op : Word} (h : op.extractLsb' 8 24 = 0#24) :
    op = BitVec.ofNat 32 (op.extractLsb' 0 8).toNat := by
  have hhigh := congrArg BitVec.toNat h
  simp only [BitVec.extractLsb'_toNat, BitVec.toNat_ofNat, Nat.shiftRight_eq_div_pow] at hhigh
  have hlt := op.isLt
  apply BitVec.eq_of_toNat_eq
  simp only [BitVec.extractLsb'_toNat, BitVec.toNat_ofNat, Nat.shiftRight_eq_div_pow]
  omega

/-- The CMD word of a command that decodes is its opcode (R90, R93, R94). -/
theorem op_of_decodeCommand {c : Command} {i : Instr} (h : decodeCommand c = .ok i) : c.op = i.opcode := by
  unfold decodeCommand at h
  split at h
  · cases h
  · rename_i hreserved
    rw [op_eq_low_byte (not_not.1 hreserved)]
    split at h <;> cases h <;> rename_i hbyte <;> rw [hbyte] <;> rfl

/-- The CMD word 0x00000001 is CONFIG (R93). -/
theorem decodeCommand_config {c : Command} (h : c.op = 0x00000001#32) :
    decodeCommand c = .ok (.config c.a0.toNat c.a1.toNat) := by
  have hreserved : c.op.extractLsb' 8 24 = 0#24 := by rw [h]; decide
  have hbyte : (c.op.extractLsb' 0 8).toNat = 1 := by rw [h]; decide
  simp only [decodeCommand, hreserved, hbyte]
  rfl

theorem sameSize_completeError (e : ErrCode) (s : State) : SameSize s (completeError e s) := by
  rw [completeError_eq]; exact ⟨rfl, rfl, rfl⟩

/-- The outcome is a state of P, where it is a state. -/
def EndsIn (P : State → Prop) (x : Host.Outcome State Fault Refusal) : Prop := ∀ t, x = .next t → P t

theorem endsIn_next {P : State → Prop} {t : State} (h : P t) : EndsIn P (.next t) := by
  rintro _ ⟨⟩
  exact h

theorem endsIn_ite {P : State → Prop} {p : Prop} [Decidable p] {x y : Host.Outcome State Fault Refusal}
    (hx : EndsIn P x) (hy : EndsIn P y) : EndsIn P (if p then x else y) := by
  split
  · exact hx
  · exact hy

/-- A command other than CONFIG leaves CFG and the size, and so does any command once CFG = 1. -/
theorem exec_sameSize {i : Instr} {s : State} (hi : s.cfg = true ∨ ∀ w h, i ≠ .config w h) :
    EndsIn (SameSize s) (exec i s) := by
  have herror (e : ErrCode) : EndsIn (SameSize s) (.next (completeError e s)) :=
    endsIn_next (sameSize_completeError e s)
  have hresult (v : Word) : EndsIn (SameSize s) (.next (complete (setResult v s))) := endsIn_next ⟨rfl, rfl, rfl⟩
  cases i with
  | nop => exact endsIn_next ⟨rfl, rfl, rfl⟩
  | config w h =>
    obtain hc | hi := hi
    · rw [exec, execConfig, if_pos hc]
      exact herror _
    · exact absurd rfl (hi w h)
  | pixel x y code => exact endsIn_ite (endsIn_next (by rw [plot_eq]; exact ⟨rfl, rfl, rfl⟩)) (herror _)
  | rect x y =>
    have hdrawn : SameSize s (complete (drawTexture x y s)) := by rw [drawTexture_eq]; exact ⟨rfl, rfl, rfl⟩
    exact endsIn_ite (endsIn_ite (herror _) (endsIn_next hdrawn)) (herror _)
  | swap => exact endsIn_ite (endsIn_next (by rw [swapBanks_eq]; exact ⟨rfl, rfl, rfl⟩)) (herror _)
  | rgb r g b => exact endsIn_ite (hresult _) (herror _)
  | decode code => exact hresult _
  | hsv hue sat v => exact endsIn_ite (hresult _) (herror _)
  | grey code => exact hresult _
  | romload n0 n1 n2 n3 =>
    rw [exec, execRomload]
    split
    · exact endsIn_next (by rw [loadTexture_eq]; exact ⟨rfl, rfl, rfl⟩)
    · exact herror _

/-- A CONFIG while CFG = 0 sets CFG exactly where the size is legal (R181). -/
theorem exec_config_cfg {w h : Nat} {s t : State} (hc : s.cfg = false) (ht : exec (.config w h) s = .next t) :
    t.cfg = true ↔ 1 ≤ w ∧ w ≤ s.params.wmax ∧ 1 ≤ h ∧ h ≤ s.params.hmax := by
  simp only [exec, execConfig, hc] at ht
  split at ht
  · contradiction
  split at ht <;> cases ht <;> rename_i hsize
  · exact iff_of_true rfl hsize
  · refine iff_of_false ?_ hsize
    rw [(sameSize_completeError _ s).1, hc]
    decide

/-- The engine's turn while CFG = 0 sets CFG exactly where it completes a CONFIG of a legal size (R43). -/
theorem engineTurn_cfg {s t : State} (hc : s.cfg = false) (ht : engineTurn s = .next t) :
    t.cfg = true ↔ ConfiguresNow s := by
  have hkept (hsame : SameSize s t) : t.cfg ≠ true := by rw [hsame.1, hc]; decide
  obtain ⟨hl, e⟩ | ⟨c, i, hl, hd, e⟩ | ⟨c, e', hl, hd, e⟩ := engineTurn_cases s <;> rw [e] at ht
  · cases ht
    exact iff_of_false (hkept ⟨rfl, rfl, rfl⟩) fun ⟨c, hl', _⟩ => by rw [hl] at hl'; cases hl'
  · by_cases hop : c.op = 0x00000001#32
    · cases hd.symm.trans (decodeCommand_config hop)
      simp only [exec_config_cfg hc ht, ConfiguresNow, hl, Option.some.injEq, exists_eq_left', hop, true_and]
    · have hi (w h : Nat) : i ≠ .config w h := fun hi => hop (by rw [op_of_decodeCommand hd, hi]; rfl)
      refine iff_of_false (hkept (exec_sameSize (.inr hi) _ ht)) fun ⟨c', hl', hop', _⟩ => hop ?_
      rw [hl] at hl'; cases hl'; exact hop'
  · cases ht
    refine iff_of_false (hkept (sameSize_completeError _ s)) fun ⟨c', hl', hop', _⟩ => ?_
    rw [hl] at hl'; cases hl'
    rw [decodeCommand_config hop'] at hd; cases hd

/-- Once CFG = 1 the engine's turn keeps it and the size (R43). -/
theorem engineTurn_sameSize {s t : State} (hc : s.cfg = true) (ht : engineTurn s = .next t) : SameSize s t := by
  obtain ⟨-, e⟩ | ⟨c, i, -, -, e⟩ | ⟨c, e', -, -, e⟩ := engineTurn_cases s <;> rw [e] at ht
  · cases ht; exact ⟨rfl, rfl, rfl⟩
  · exact exec_sameSize (.inl hc) _ ht
  · cases ht; exact sameSize_completeError _ s

/-- Every step meets the rule of CFG and the size. -/
theorem step_sizeRule {s t : State} (h : step s = .next t) : SizeRule (nextTurn s).1 s t :=
  step_turns SizeRule (fun u _ _ _ h => by cases u <;> exact h)
    (fun s => by rw [hostTurn_frame]; exact ⟨rfl, rfl, rfl⟩)
    (fun _ _ h => ⟨fun hc => engineTurn_sameSize hc h, fun hc => engineTurn_cfg hc h⟩)
    (fun s => by rw [decoderTurn_frame]; exact ⟨rfl, rfl, rfl⟩) (fun _ _ => ⟨rfl, rfl, rfl⟩)
    (fun r s => by rw [romTurn_frame]; exact ⟨rfl, rfl, rfl⟩) (fun _ => rfl) h

/-- A turn other than reset keeps CFG = 1 and the size. -/
theorem SizeRule.keeps {u : Turn} {s t : State} (h : SizeRule u s t) (hu : u ≠ .reset) (hc : s.cfg = true) :
    SameSize s t := by
  cases u with
  | engine => exact h.1 hc
  | reset => exact absurd rfl hu
  | host | decoder | display _ | rom _ => exact h

/-- While CFG = 0 it is set by the completion of a legal CONFIG and by no other turn. -/
theorem SizeRule.sets {u : Turn} {s t : State} (h : SizeRule u s t) (hc : s.cfg = false) :
    t.cfg = true ↔ u = .engine ∧ ConfiguresNow s := by
  have hno (hu : u ≠ .engine) (ht : t.cfg = false) : t.cfg = true ↔ u = .engine ∧ ConfiguresNow s :=
    iff_of_false (by rw [ht]; decide) fun h => hu h.1
  cases u with
  | engine => exact (h.2 hc).trans (and_iff_right rfl).symm
  | reset => exact hno nofun h
  | host | decoder | display _ | rom _ => exact hno nofun (h.1.trans hc)

/-- PIXEL, RECT and SWAP fail while CFG = 0 (R43). -/
theorem exec_drawing_unconfigured {i : Instr} {s : State} (hc : s.cfg = false)
    (hi : i.opcode ∈ [0x00000002#32, 0x00000003#32, 0x00000004#32]) :
    exec i s = .next (completeError .notConfigured s) := by
  cases i with
  | pixel x y code => exact if_neg (by simp [hc])
  | rect x y => exact if_neg (by simp [hc])
  | swap => exact if_neg (by simp [hc])
  | nop | config _ _ | rgb _ _ _ | decode _ | hsv _ _ _ | grey _ | romload _ _ _ _ =>
    simp [Instr.opcode] at hi

/-- Settles O41: each step meets the rule of CFG and the size, and the drawing commands check CFG first. -/
theorem configuredOnceUntilReset : Obligations.ConfiguredOnceUntilReset := by
  unfold Obligations.ConfiguredOnceUntilReset
  refine ⟨rfl, statusWord_cfg, fun s t h hu hc => ?_, fun s t h hu => ?_,
    fun s t h hc => (step_sizeRule h).sets hc, fun i s hc hi => ?_⟩
  · obtain ⟨hcfg, hw, hh⟩ := (step_sizeRule h).keeps hu hc
    exact ⟨hcfg.trans hc, hw, hh⟩
  · have hrule := step_sizeRule h
    rw [hu] at hrule
    exact hrule
  · rw [exec_drawing_unconfigured hc hi, completeError_eq]

end Sys2Proof.Machine
end

section
/-! PROOF. The command statements of the host's language: the values their operands are written as, and the accesses they
expand into. -/

namespace Sys2Proof.Machine

/-! ### Operands: an integer is written if it fits its 32-bit form and refused if not (R92, R97) -/

theorem signed_int_of_fits {v : Int} (hlo : -2147483648 ≤ v) (hhi : v ≤ 2147483647) :
    Operand.signed (.int v) = .ok (.lit (BitVec.ofInt 32 v)) :=
  if_pos ((inS32_iff v).mpr ⟨hlo, hhi⟩)

theorem signed_int_of_misfit {v : Int} (h : v < -2147483648 ∨ 2147483647 < v) :
    Operand.signed (.int v) = .error .doesNotFit :=
  if_neg fun hfits => by rw [inS32_iff] at hfits; omega

theorem unsigned_int_of_fits {v : Int} (hlo : 0 ≤ v) (hhi : v ≤ 4294967295) :
    Operand.unsigned (.int v) = .ok (.lit (BitVec.ofNat 32 v.toNat)) :=
  if_pos ⟨hlo, (inU32_iff _).mpr (by omega)⟩

theorem unsigned_int_of_misfit {v : Int} (h : v < 0 ∨ 4294967295 < v) :
    Operand.unsigned (.int v) = .error .doesNotFit :=
  if_neg fun hfits => by rw [inU32_iff] at hfits; omega

/-! ### The accesses of a command, by the number of ARGn that its format reads (R91, R98) -/

theorem commandOps_none (op : Word) : commandOps op [] = [.wr 10 (.lit op), .wait] := rfl

theorem commandOps_one (op : Word) (a : HostVal) : commandOps op [a] = [.wr 7 a, .wr 10 (.lit op), .wait] := rfl

theorem commandOps_two (op : Word) (a b : HostVal) :
    commandOps op [a, b] = [.wr 7 a, .wr 8 b, .wr 10 (.lit op), .wait] := rfl

theorem commandOps_three (op : Word) (a b c : HostVal) :
    commandOps op [a, b, c] = [.wr 7 a, .wr 8 b, .wr 9 c, .wr 10 (.lit op), .wait] := rfl

/-! ### The statements with operands, whose operands are accepted -/

section Expansions
variable {texCap : Nat} {a b c : Operand} {a' b' c' : HostVal}

theorem expand_config (ha : a.unsigned = .ok a') (hb : b.unsigned = .ok b') :
    Stmt.expand texCap (.config a b) = .ok (commandOps 0x01#32 [a', b']) := by
  simp only [Stmt.expand, ha, hb]; rfl

theorem expand_pixel (ha : a.signed = .ok a') (hb : b.signed = .ok b') (hc : c.signed = .ok c') :
    Stmt.expand texCap (.pixel a b c) = .ok (commandOps 0x02#32 [a', b', c']) := by
  simp only [Stmt.expand, ha, hb, hc]; rfl

theorem expand_rect (ha : a.signed = .ok a') (hb : b.signed = .ok b') :
    Stmt.expand texCap (.rect a b) = .ok (commandOps 0x03#32 [a', b']) := by
  simp only [Stmt.expand, ha, hb]; rfl

theorem expand_rgb (ha : a.signed = .ok a') (hb : b.signed = .ok b') (hc : c.signed = .ok c') :
    Stmt.expand texCap (.rgb a b c) = .ok (commandOps 0x10#32 [a', b', c']) := by
  simp only [Stmt.expand, ha, hb, hc]; rfl

theorem expand_decode (ha : a.signed = .ok a') :
    Stmt.expand texCap (.decode a) = .ok (commandOps 0x11#32 [a']) := by
  simp only [Stmt.expand, ha]; rfl

theorem expand_hsv (ha : a.signed = .ok a') (hb : b.signed = .ok b') (hc : c.signed = .ok c') :
    Stmt.expand texCap (.hsv a b c) = .ok (commandOps 0x12#32 [a', b', c']) := by
  simp only [Stmt.expand, ha, hb, hc]; rfl

theorem expand_grey (ha : a.signed = .ok a') :
    Stmt.expand texCap (.grey a) = .ok (commandOps 0x13#32 [a']) := by
  simp only [Stmt.expand, ha]; rfl

end Expansions

/-- Settles O51: each statement's expansion is its command's accesses, which are listed by the number of operands. -/
theorem commandStatementsExpand : Obligations.CommandStatementsExpand := by
  unfold Obligations.CommandStatementsExpand
  refine ⟨fun v => ⟨signed_int_of_fits, signed_int_of_misfit, unsigned_int_of_fits, unsigned_int_of_misfit⟩,
    fun x => ⟨rfl, rfl⟩, rfl, rfl, fun texCap => ⟨?nop, ?swap, ?config, ?signedOperands, ?romload⟩⟩
  case nop => exact congrArg Except.ok (commandOps_none _)
  case swap => exact congrArg Except.ok (commandOps_none _)
  case config =>
    intro w h w' h' hw hh
    rw [expand_config hw hh, commandOps_two]
  case signedOperands =>
    intro a b c a' b' c' ha hb hc
    refine ⟨?_, ?_, ?_, ?_, ?_, ?_⟩
    · rw [expand_pixel ha hb hc, commandOps_three]
    · rw [expand_rect ha hb, commandOps_two]
    · rw [expand_rgb ha hb hc, commandOps_three]
    · rw [expand_decode ha, commandOps_one]
    · rw [expand_hsv ha hb hc, commandOps_three]
    · rw [expand_grey ha, commandOps_one]
  case romload =>
    intro n0 n1 n2 n3
    exact congrArg Except.ok (commandOps_one _ (.lit (nameWord n0 n1 n2 n3)))

end Sys2Proof.Machine
end

section
/-! PROOF. The palette commands RGB and DECODE: the word each leaves in RESULT, and RGB's domain error. -/

namespace Sys2Proof.Machine

/-! ### Words as numbers -/

/-- Two bit vectors put together, as a number: the first is the high part. -/
theorem toNat_append_eq_add {m n : Nat} (x : BitVec m) (y : BitVec n) :
    (x ++ y).toNat = x.toNat * 2 ^ n + y.toNat := by
  rw [BitVec.toNat_append, ← Nat.shiftLeft_add_eq_or_of_lt y.isLt, Nat.shiftLeft_eq]

/-- A pixel word whose samples are bytes, as a number (R66). -/
theorem pixelWord_toNat {r g b a : Nat} (hr : r < 256) (hg : g < 256) (hb : b < 256) (ha : a < 256) :
    (pixelWord r g b a).toNat = 16777216 * a + 65536 * b + 256 * g + r := by
  have hbytes : (pixelWord r g b a).toNat = ((a * 2 ^ 8 + b) * 2 ^ 8 + g) * 2 ^ 8 + r := by
    simp only [pixelWord, toNat_append_eq_add, BitVec.toNat_ofNat, Nat.mod_eq_of_lt, hr, hg, hb, ha]
  rw [hbytes]
  ring

/-- The code of indices that are no negative numbers, as a register value (R122). -/
theorem ofS32_paletteEncode {r g b : Int} (hr : 0 ≤ r) (hg : 0 ≤ g) (hb : 0 ≤ b) :
    ofS32 (paletteEncode r g b) = BitVec.ofNat 32 (64 * r.toNat + 8 * g.toNat + b.toNat + 1) := by
  have hcode : paletteEncode r g b = ((64 * r.toNat + 8 * g.toNat + b.toNat + 1 : Nat) : Int) := by
    simp only [paletteEncode]
    omega
  rw [hcode]
  exact BitVec.ofInt_natCast 32 _

/-! ### The decoded word of a code (R123) -/

/-- The samples of a valid code are bytes: 252 is the greatest entry of the LUT (R120). -/
theorem lut_lt_256 {k : Nat} (h : k ≤ 7) : lut k < 256 := by
  simp only [lut]
  omega

theorem paletteDecode_of_valid {c : Int} (h : validCode c = true) :
    paletteDecode c = (lut (codeIndices c).1, lut (codeIndices c).2.1, lut (codeIndices c).2.2) := by
  simp only [paletteDecode, h, if_true]

/-- The decoded word of a valid code, by its channel indices. -/
theorem decodeWord_of_valid {c : Int} (h : validCode c = true) :
    (decodeWord c).toNat = 0xFF000000 + 65536 * (36 * (codeIndices c).2.2) + 256 * (36 * (codeIndices c).2.1) +
      36 * (codeIndices c).1 := by
  obtain ⟨hr, hg, hb⟩ := codeIndices_le h
  simp only [decodeWord, paletteDecode_of_valid h]
  rw [pixelWord_toNat (lut_lt_256 hr) (lut_lt_256 hg) (lut_lt_256 hb) (by decide)]
  simp only [lut]
  omega

/-- The channel indices with the subtraction of R121 in natural numbers. -/
theorem codeIndices_eq (c : Int) :
    codeIndices c = ((c.toNat - 1) / 64, (c.toNat - 1) / 8 % 8, (c.toNat - 1) % 8) := by
  have hk : (c - 1).toNat = c.toNat - 1 := Int.toNat_sub' c 1
  simp only [codeIndices, hk]

/-! ### The commands -/

/-- The CMD word 0x00000010 is RGB (R93). -/
theorem decodeCommand_rgb {c : Command} (h : c.op = 0x00000010#32) :
    decodeCommand c = .ok (.rgb c.a0.toInt c.a1.toInt c.a2.toInt) := by
  simp only [decodeCommand, h]
  rfl

/-- The CMD word 0x00000011 is DECODE (R93). -/
theorem decodeCommand_decode {c : Command} (h : c.op = 0x00000011#32) : decodeCommand c = .ok (.decode c.a0.toInt) := by
  simp only [decodeCommand, h]
  rfl

/-- RGB with operands of the domain (R125). -/
theorem exec_rgb_of_inDomain {r g b : Int} (hr : inDomain r = true) (hg : inDomain g = true) (hb : inDomain b = true)
    (s : State) : exec (.rgb r g b) s = .next (complete (setResult (ofS32 (paletteEncode r g b)) s)) :=
  if_pos (by simp only [hr, hg, hb, Bool.and_self])

/-- RGB with an operand outside the domain (R124, R125). -/
theorem exec_rgb_of_not_inDomain {r g b : Int} (h : r < 0 ∨ 7 < r ∨ g < 0 ∨ 7 < g ∨ b < 0 ∨ 7 < b) (s : State) :
    exec (.rgb r g b) s = .next (completeError .domain s) :=
  if_neg fun hdomain => by
    simp only [Bool.and_eq_true, inDomain_iff] at hdomain
    omega

/-- DECODE completes in every state with the decoded word of its operand (R126). -/
theorem exec_decode (c : Int) (s : State) : exec (.decode c) s = .next (complete (setResult (decodeWord c) s)) := rfl

/-- Settles O2: the domain check decides between completing with the code, as a register value, and completing with
DOMAIN. -/
theorem rgbEncodesOrRaisesDomain : Obligations.RgbEncodesOrRaisesDomain := by
  unfold Obligations.RgbEncodesOrRaisesDomain
  refine ⟨fun a0 a1 a2 => decodeCommand_rgb rfl, fun r g b s hr0 hr hg0 hg hb0 hb => ?encodes, fun r g b s h => ?raises⟩
  case encodes =>
    rw [exec_rgb_of_inDomain ((inDomain_iff r).2 ⟨hr0, hr⟩) ((inDomain_iff g).2 ⟨hg0, hg⟩)
      ((inDomain_iff b).2 ⟨hb0, hb⟩), ofS32_paletteEncode hr0 hg0 hb0, complete_eq, setResult]
  case raises => rw [exec_rgb_of_not_inDomain h, completeError_eq]

/-- Settles O3: DECODE leaves the decoded word of its operand, which is known for valid codes and for all others. -/
theorem decodeGivesPixelWord : Obligations.DecodeGivesPixelWord := by
  unfold Obligations.DecodeGivesPixelWord
  refine ⟨fun a0 a1 a2 => decodeCommand_decode rfl,
    fun c s => ⟨decodeWord c, exec_decode c s, fun hc => ?valid, fun hc => ?other⟩⟩
  case valid => rw [decodeWord_of_valid ((validCode_iff c).2 hc), codeIndices_eq]
  case other => exact decodeWord_of_invalid (Bool.eq_false_iff.2 fun hv => hc ((validCode_iff c).1 hv))

end Sys2Proof.Machine
end

section
/-! PROOF. The errors with which ROMLOAD completes: those of the ROM's head, those of the matched record, and those
after the last record read. -/

namespace Sys2Proof.Machine

/-! ### The ROM's head, in the order of R154 -/

section Head
variable {r : Rom} {texCap : Nat} {name : Word}

/-- ROM_IO_ERROR for an absent ROM (R155). -/
theorem romload_absent (hp : r.present = false) : romload r texCap name = .error .romIoError :=
  if_pos (by rw [hp]; rfl)

/-- ROM_IO_ERROR where the read of the magic would pass the end (R155). -/
theorem romload_shorterThanMagic (h : r.bytes.length < 4) : romload r texCap name = .error .romIoError := by
  have hmagic : r.has 0 4 = false := decide_eq_false (Nat.not_le.2 h)
  simp only [romload, hmagic, Bool.not_false, if_true, ite_self]

theorem Rom.head4_eq_take (h : 4 ≤ r.bytes.length) : r.head4 = r.bytes.take 4 := by
  obtain ⟨bytes, _⟩ := r
  match bytes, h with
  | _ :: _ :: _ :: _ :: _, _ => rfl

/-- ROM_BAD_MAGIC (R156). -/
theorem romload_badMagic (hp : r.present = true) (hlen : 4 ≤ r.bytes.length) (hm : r.bytes.take 4 ≠ romMagic) :
    romload r texCap name = .error .romBadMagic := by
  have hmagic : r.has 0 4 = true := (r.has_iff 0 4).2 hlen
  rw [← Rom.head4_eq_take hlen] at hm
  rw [romload, hp, hmagic]
  exact if_pos hm

/-- ROM_IO_ERROR where the ROM ends before the byte N (R155). -/
theorem romload_magicAlone (hb : r.bytes = romMagic) : romload r texCap name = .error .romIoError := by
  obtain ⟨bytes, present⟩ := r
  subst hb
  cases present <;> rfl

/-- Past the magic and the byte N, ROMLOAD answers what the scan of the N records answers. -/
theorem romload_eq_scanRecords {n : Byte} {rest : List Byte} (hp : r.present = true)
    (hb : r.bytes = romMagic ++ [n] ++ rest) :
    romload r texCap name = scanRecords r texCap name n.toNat 5 := by
  obtain ⟨bytes, present⟩ := r
  subst hb hp
  have hlen : 5 ≤ Rom.len ⟨romMagic ++ [n] ++ rest, true⟩ := Nat.le_add_left 5 rest.length
  have hmagic := (Rom.has_iff ⟨romMagic ++ [n] ++ rest, true⟩ 0 4).2 (by omega)
  have hcount := (Rom.has_iff ⟨romMagic ++ [n] ++ rest, true⟩ 4 1).2 hlen
  rw [romload, hmagic, hcount]
  rfl

/-- ROM_IO_ERROR where a record is to come and its header would pass the end (R155, R161). -/
theorem scanRecords_headerCut {left o : Nat} (hleft : 0 < left) (h : r.len < o + 16) :
    scanRecords r texCap name left o = .error .romIoError := by
  obtain ⟨left, rfl⟩ := Nat.exists_eq_succ_of_ne_zero hleft.ne'
  exact if_neg fun hheader => Nat.not_le.2 h ((r.has_iff o 16).1 hheader)

/-- A record of another name leads to the offset after its 2P bytes of pixels, whether they are there or not (R157). -/
theorem scanRecords_otherName {left o p : Nat} (hheader : o + 16 ≤ r.len) (hp : r.read o 4 = p)
    (hname : r.nameAt o ≠ name) :
    scanRecords r texCap name (left + 1) o = scanRecords r texCap name left (o + 16 + 2 * p) := by
  rw [scanRecords, if_pos ((r.has_iff o 16).2 hheader), if_neg hname, hp]

end Head

/-- A ROMLOAD over a ROM that the host has left alone completes with the error that the algorithm of R154 finds, and
changes nothing else. -/
theorem exec_romload_of_error {n0 n1 n2 n3 : Byte} {s : State} {e : ErrCode} (hs : s.romSeen = [])
    (h : romload s.rom s.params.texCap (nameWord n0 n1 n2 n3) = .error e) :
    exec (.romload n0 n1 n2 n3) s = .next { s with
      err := true, errCode := if s.err then s.errCode else e
      lc := none, fsm := .idle, romSeen := [], done := true } := by
  have hrom : s.romForLoad = s.rom := if_pos hs
  rw [← completeError_eq]
  show execRomload n0 n1 n2 n3 s = _
  rw [execRomload, hrom, h]

/-- Settles O12: each head decides the answer of the algorithm, at the latest by the first header of the scan. -/
theorem romHeaderOutcomes : Obligations.RomHeaderOutcomes := by
  unfold Obligations.RomHeaderOutcomes
  refine fun n0 n1 n2 n3 s hs => ⟨fun hp => ?absent, fun _ hlen => ?short, fun hp hlen hm => ?badMagic,
    fun _ hb => ?magicAlone, fun rest hp hb => ?noRecord, fun n rest hp hn hrest hb => ?headerCut⟩ <;>
    apply exec_romload_of_error hs
  case absent => exact romload_absent hp
  case short => exact romload_shorterThanMagic hlen
  case badMagic => exact romload_badMagic hp hlen hm
  case magicAlone => exact romload_magicAlone hb
  case noRecord =>
    rw [romload_eq_scanRecords hp hb]
    rfl
  case headerCut =>
    have hcount : 0 < n.toNat := Nat.pos_of_ne_zero fun h0 => hn (BitVec.eq_of_toNat_eq h0)
    have hcut : s.rom.len < 5 + 16 := by
      simp only [Rom.len, hb, List.length_append, List.length_cons, List.length_nil]
      omega
    rw [romload_eq_scanRecords hp hb]
    exact scanRecords_headerCut hcount hcut

/-! ### The checks on the matched record, in the order of R154 -/

section Checks
variable {r : Rom} {texCap : Nat} {c : RomHit}

/-- R158. -/
theorem checkRecord_sizeMismatch (h : c.p ≠ c.w * c.h) : checkRecord r texCap c = .error .romSizeMismatch := if_pos h

/-- R159. -/
theorem checkRecord_tooLarge (hsize : c.p = c.w * c.h) (h : 1000000 < c.p) :
    checkRecord r texCap c = .error .romTooLarge := by
  rw [checkRecord, if_neg (not_not.2 hsize)]
  exact if_pos h

/-- R160. -/
theorem checkRecord_allocFailed (hsize : c.p = c.w * c.h) (hmax : c.p ≤ 1000000) (h : texCap < c.p) :
    checkRecord r texCap c = .error .romAllocFailed := by
  have hpmax : ¬ c.p > romPixelMax := Nat.not_lt.2 hmax
  rw [checkRecord, if_neg (not_not.2 hsize), if_neg hpmax, if_pos h]

/-- R155, for the pixels. -/
theorem checkRecord_pixelsCut (hsize : c.p = c.w * c.h) (hmax : c.p ≤ 1000000) (hcap : c.p ≤ texCap)
    (h : r.len < c.o + 16 + 2 * c.p) : checkRecord r texCap c = .error .romIoError := by
  have hpmax : ¬ c.p > romPixelMax := Nat.not_lt.2 hmax
  have hpixels : ¬ r.has (c.o + 16) (2 * c.p) = true := fun hhas => Nat.not_le.2 h ((r.has_iff _ _).1 hhas)
  rw [checkRecord, if_neg (not_not.2 hsize), if_neg hpmax, if_neg (Nat.not_lt.2 hcap), if_neg hpixels]

end Checks

/-- Where a written image ends: its last record's header begins after the magic, N and the records before it. -/
theorem len_romImage_concat (count : Nat) (before : List RomRecord) (last : RomRecord) :
    (romImage count (before ++ [last])).len =
      5 + (before.flatMap RomRecord.bytes).length + 16 + last.pixels.length := by
  have hlast := last.length_bytes
  simp only [Rom.len, romImage, List.flatMap_append, List.flatMap_singleton, List.length_append, List.length_cons,
    List.length_nil]
  omega

/-- Settles O13: the scan comes to the record, and the first of its checks that fails decides. -/
theorem matchedRecordIsCheckedInOrder : Obligations.MatchedRecordIsCheckedInOrder := by
  unfold Obligations.MatchedRecordIsCheckedInOrder
  intro before hit count s hb hf hl hc hrom hs
  have hlen := len_romImage_concat count before hit
  refine ⟨fun hsize => ?sizeMismatch, fun hsize hmax => ?tooLarge, fun hsize hmax hcap => ?allocFailed,
    fun hsize hmax hcap hpx => ?pixelsCut⟩ <;>
    (apply exec_romload_of_error hs; rw [hrom, romload_hit before hit count _ hb hf hl hc])
  case sizeMismatch => exact checkRecord_sizeMismatch hsize
  case tooLarge => exact checkRecord_tooLarge hsize hmax
  case allocFailed => exact checkRecord_allocFailed hsize hmax hcap
  case pixelsCut => exact checkRecord_pixelsCut hsize hmax hcap (hlen.trans_lt (Nat.add_lt_add_left hpx _))

/-! ### Past the last record read (R157) -/

/-- In a written image, the scan passes over records of other names, and over the last of them by its P alone: only
those before it need their pixels. -/
theorem romload_romImage_otherNames (n0 n1 n2 n3 : Byte) (before : List RomRecord) (last : RomRecord)
    (left texCap : Nat) (hb : ∀ r ∈ before, r.complete) (hf : last.headerFits)
    (hn : ∀ r ∈ before ++ [last], ¬ (r.n0 = n0 ∧ r.n1 = n1 ∧ r.n2 = n2 ∧ r.n3 = n3))
    (hc : before.length + (left + 1) ≤ 255) :
    let rom := romImage (before.length + (left + 1)) (before ++ [last])
    romload rom texCap (nameWord n0 n1 n2 n3) =
      scanRecords rom texCap (nameWord n0 n1 n2 n3) left
        (5 + (before.flatMap RomRecord.bytes).length + 16 + 2 * last.p) := by
  intro rom
  set head : List Byte := romMagic ++ [BitVec.ofNat 8 (before.length + (left + 1))]
  have himage : rom = ⟨head ++ (before.flatMap RomRecord.bytes ++ last.bytes), true⟩ := by
    simp [rom, romImage, head, romMagic]
  have hskip := scanRecords_skip n0 n1 n2 n3 texCap (left + 1) before head last.bytes true
    fun r hr => ⟨hb r hr, hn r (List.mem_append_left _ hr)⟩
  have hread := last.read hf (head ++ before.flatMap RomRecord.bytes) [] true
  rw [List.append_nil, List.append_assoc, ← himage, List.length_append] at hread
  rw [← himage] at hskip
  obtain ⟨hp, hname, -, -⟩ := hread
  have hheader : 5 + (before.flatMap RomRecord.bytes).length + 16 ≤ rom.len := by
    rw [len_romImage_concat]
    exact Nat.le_add_right _ _
  have hother : rom.nameAt (5 + (before.flatMap RomRecord.bytes).length) ≠ nameWord n0 n1 n2 n3 :=
    fun h => hn last (by simp) ((nameWord_inj ..).1 (hname.symm.trans h))
  calc romload rom texCap (nameWord n0 n1 n2 n3)
      = scanRecords rom texCap (nameWord n0 n1 n2 n3) (before.length + (left + 1)) 5 := romload_romImage _ hc ..
    _ = scanRecords rom texCap (nameWord n0 n1 n2 n3) (left + 1) (5 + (before.flatMap RomRecord.bytes).length) := hskip
    _ = _ := scanRecords_otherName hheader hp hother

/-- Settles O14: past the record no other is left to find, or the ROM has ended before the next header. -/
theorem otherRecordsAreSkippedUnread : Obligations.OtherRecordsAreSkippedUnread := by
  unfold Obligations.OtherRecordsAreSkippedUnread
  intro n0 n1 n2 n3 before last count s hb hf hn hc hrom hs
  have hlen := len_romImage_concat count before last
  refine ⟨fun hcount => ?notFound, fun hcount hpx => ?headerCut⟩ <;> apply exec_romload_of_error hs
  case notFound =>
    subst hcount
    rw [hrom, romload_romImage_otherNames n0 n1 n2 n3 before last 0 _ hb hf hn hc]
    rfl
  case headerCut =>
    obtain ⟨left, rfl⟩ : ∃ left, count = before.length + (left + 1) := ⟨count - before.length - 1, by omega⟩
    rw [hrom, romload_romImage_otherNames n0 n1 n2 n3 before last left _ hb hf hn hc]
    exact scanRecords_headerCut (by omega) (by rw [hlen]; omega)

end Sys2Proof.Machine
end

section
/-! PROOF. The commands of spec/42_drawing.md: NOP, CONFIG, PIXEL, RECT and SWAP. Each completes with the first error
whose check fails, or with an effect on the size and the banks that is given here pixel by pixel. -/

namespace Sys2Proof.Machine

/-! ### The CMD words (R93) -/

section
variable {c : Command}

theorem decodeCommand_nop (h : c.op = 0x00000000#32) : decodeCommand c = .ok .nop := by
  simp only [decodeCommand, h]
  rfl

theorem decodeCommand_pixel (h : c.op = 0x00000002#32) :
    decodeCommand c = .ok (.pixel c.a0.toInt c.a1.toInt c.a2.toInt) := by
  simp only [decodeCommand, h]
  rfl

theorem decodeCommand_rect (h : c.op = 0x00000003#32) : decodeCommand c = .ok (.rect c.a0.toInt c.a1.toInt) := by
  simp only [decodeCommand, h]
  rfl

theorem decodeCommand_swap (h : c.op = 0x00000004#32) : decodeCommand c = .ok .swap := by
  simp only [decodeCommand, h]
  rfl

/-- A CMD word with a reserved bit set is illegal (R94). -/
theorem decodeCommand_reservedBits (h : c.op.extractLsb' 8 24 ≠ 0#24) :
    decodeCommand c = .error .reservedBits := if_pos h

end

/-! ### Steps and completions -/

/-- The turn at the head of the schedule is taken next (R74; log 1). -/
theorem step_of_schedule {s : State} {u : Turn} {rest : List Turn} (h : s.schedule = u :: rest) :
    step s = takeTurn u { s with schedule := rest } := by
  simp only [step, nextTurn, h]

/-- An illegal word completes with ILLEGAL_COMMAND (R94, R216). -/
theorem engineTurn_of_illegal {s : State} {c : Command} {e : DecodeError} (hl : s.lc = some c)
    (hd : decodeCommand c = .error e) : engineTurn s = .next (completeError .illegalCommand s) := by
  simp only [engineTurn, hl, hd, illegalCommand]

/-- The completion of an effect on the memories alone changes nothing else (R213). -/
theorem complete_of_mem {s u : State} (h : u = { s with mem := u.mem }) :
    complete u = { s with mem := u.mem, lc := none, fsm := .idle, romSeen := [], done := true } := by
  rw [complete_eq, h]

/-! ### The commands whose checks pass -/

section
variable {s : State}

theorem exec_config_of_legal {w h : Nat} (hc : s.cfg = false) (hw : 1 ≤ w ∧ w ≤ s.params.wmax)
    (hh : 1 ≤ h ∧ h ≤ s.params.hmax) : exec (.config w h) s = .next (complete (configure w h s)) := by
  simp only [exec, execConfig, hc, hw, hh, Bool.false_eq_true, if_false, and_self, if_true]

theorem exec_pixel_of_configured (x y c : Int) (hc : s.cfg = true) :
    exec (.pixel x y c) s = .next (complete (plot x y c s)) := if_pos hc

theorem exec_rect_of_fits (xoff yoff : Int) (hc : s.cfg = true) (ht : s.texW.toNat * s.texH.toNat ≤ s.params.texCap) :
    exec (.rect xoff yoff) s = .next (complete (drawTexture xoff yoff s)) :=
  (if_pos hc).trans (if_neg (Nat.not_lt.2 ht))

theorem exec_swap_of_configured (hc : s.cfg = true) : exec .swap s = .next (complete (swapBanks s)) := if_pos hc

end

/-! ### The commands whose checks fail -/

section
variable {s : State}

theorem exec_config_of_configured (w h : Nat) (hc : s.cfg = true) :
    exec (.config w h) s = .next (completeError .alreadyConfigured s) := if_pos hc

theorem exec_config_of_illegal {w h : Nat} (hc : s.cfg = false)
    (hsize : w < 1 ∨ s.params.wmax < w ∨ h < 1 ∨ s.params.hmax < h) :
    exec (.config w h) s = .next (completeError .configInvalid s) := by
  have hcfg : ¬ s.cfg = true := Bool.eq_false_iff.1 hc
  exact (if_neg hcfg).trans (if_neg (by omega))

theorem exec_rect_of_exceeds (xoff yoff : Int) (hc : s.cfg = true)
    (ht : s.params.texCap < s.texW.toNat * s.texH.toNat) :
    exec (.rect xoff yoff) s = .next (completeError .texRange s) := (if_pos hc).trans (if_pos ht)

end

/-! ### The banks after each effect, pixel by pixel -/

/-- CONFIG clears the new buffer in both banks (R181). -/
theorem readPixel_configure (w h : Nat) (s : State) (b : BankId) (a : Nat) :
    (configure w h s).readPixel b a = if a < w * h then 0 else s.readPixel b a := by
  cases b with
  | fb0 => exact Bank.read_zero s.epoch 0 s.mem.fb0 (w * h) a
  | fb1 => exact Bank.read_zero s.epoch 1 s.mem.fb1 (w * h) a

/-- SWAP clears the buffer in the bank that was front (R185). -/
theorem readPixel_swapBanks (s : State) (b : BankId) (a : Nat) :
    (swapBanks s).readPixel b a = if b = s.frontSel ∧ a < s.width * s.height then 0 else s.readPixel b a := by
  rw [swapBanks_eq]
  exact readPixel_zeroBank s s.frontSel b (s.width * s.height) a

/-- The address of a pixel at no negative coordinates, in natural numbers (R62). -/
theorem pixelAddr_of_nonneg (s : State) {x y : Int} (hx : 0 ≤ x) (hy : 0 ≤ y) :
    s.pixelAddr x y = y.toNat * s.width + x.toNat := by
  rw [← pixelAddr_natCast, Int.toNat_of_nonneg hx, Int.toNat_of_nonneg hy]

/-- A plot leaves the front bank as it was (R180). -/
theorem readPixel_plot_front (x y c : Int) (s : State) (a : Nat) :
    (plot x y c s).readPixel s.frontSel a = s.readPixel s.frontSel a := by
  rw [readPixel_plot]
  exact if_neg fun ⟨_, _, hbank, _⟩ => BankId.other_ne _ hbank.symm

/-- A plot writes the back bank where the pixel is in the buffer and the code is valid, and only there (R180). -/
theorem readPixel_plot_back (x y c : Int) (s : State) (a : Nat) :
    (plot x y c s).readPixel s.back a =
      if (0 ≤ x ∧ x < s.width) ∧ (0 ≤ y ∧ y < s.height) ∧ (1 ≤ c ∧ c ≤ 512) ∧ a = y.toNat * s.width + x.toNat
      then decodeWord c else s.readPixel s.back a := by
  simp only [readPixel_plot, inBuffer_iff, validCode_iff, true_and]
  refine if_congr ?_ rfl rfl
  constructor
  · rintro ⟨⟨hx, hy⟩, hc, ha⟩
    exact ⟨hx, hy, hc, ha.trans (pixelAddr_of_nonneg s hx.1 hy.1)⟩
  · rintro ⟨hx, hy, hc, ha⟩
    exact ⟨⟨hx, hy⟩, hc, ha.trans (pixelAddr_of_nonneg s hx.1 hy.1).symm⟩

/-- The valid codes as natural numbers (R121). -/
theorem validCode_natCast (n : Nat) : validCode n = true ↔ 1 ≤ n ∧ n ≤ 512 := by
  rw [validCode_iff]
  omega

/-- A texture draw writes nothing from the end of the buffer up (R180, R184). -/
theorem readPixel_drawTexture_outside (xoff yoff : Int) (s : State) (b : BankId) {a : Nat}
    (ha : s.width * s.height ≤ a) : (drawTexture xoff yoff s).readPixel b a = s.readPixel b a := by
  have hkeeps := drawTexture_keeps
    (fun t => t = { s with mem := t.mem } ∧ t.readPixel b a = s.readPixel b a) ?_ xoff yoff s ⟨rfl, rfl⟩
  · exact hkeeps.2
  · rintro x y c t ⟨hframe, hpixel⟩
    have hsize : t.width * t.height = s.width * s.height := by rw [hframe]; rfl
    refine ⟨by rw [plot_eq, hframe], ?_⟩
    rw [readPixel_plot, hpixel]
    refine if_neg fun ⟨hin, _, _, haddr⟩ => ?_
    exact absurd (pixelAddr_lt hin) (by omega)

/-! ### The statements -/

/-- Settles O9: the two checks in order, and past them the texture draw pixel by pixel, in the buffer and beyond it. -/
theorem rectDrawsTheTextureClippedAndSkipped : Obligations.RectDrawsTheTextureClippedAndSkipped := by
  unfold Obligations.RectDrawsTheTextureClippedAndSkipped
  refine ⟨fun _ _ _ => decodeCommand_rect rfl, fun xoff yoff s hc => ?notConfigured,
    fun xoff yoff s hc ht => ?texRange,
    fun xoff yoff s hc ht => ⟨_, exec_rect_of_fits xoff yoff hc ht, complete_of_mem (drawTexture_eq xoff yoff s),
      drawTexture_tex xoff yoff s, readPixel_drawTexture_front xoff yoff s,
      fun a ha => readPixel_drawTexture_outside xoff yoff s _ ha, fun px py hx hy => ?drawn⟩⟩
  case notConfigured => rw [exec_drawing_unconfigured hc (by simp [Instr.opcode]), completeError_eq]
  case texRange => rw [exec_rect_of_exceeds xoff yoff hc ht, completeError_eq]
  case drawn =>
    have hback := readPixel_drawTexture_back xoff yoff s hx hy
    simp only [validCode_natCast] at hback
    exact hback

/-- Settles O7: the two checks in order, and past them the body of CONFIG with both banks read pixel by pixel. -/
theorem configSetsSizeAndClearsBothBanks : Obligations.ConfigSetsSizeAndClearsBothBanks := by
  unfold Obligations.ConfigSetsSizeAndClearsBothBanks
  refine ⟨fun _ _ _ => decodeCommand_config rfl, fun w h s hc => ?alreadyConfigured,
    fun w h s hc hsize => ?configInvalid,
    fun w h s hc hw1 hw hh1 hh => ⟨_, exec_config_of_legal hc ⟨hw1, hw⟩ ⟨hh1, hh⟩, ?frame, rfl,
      readPixel_configure w h s⟩⟩
  case alreadyConfigured => rw [exec_config_of_configured w h hc, completeError_eq]
  case configInvalid => rw [exec_config_of_illegal hc hsize, completeError_eq]
  case frame => rw [complete_eq, configure_eq]; rfl

/-- Settles O8: the check of CFG, and past it one plot. -/
theorem pixelPlotsOnePixelOfTheBackBank : Obligations.PixelPlotsOnePixelOfTheBackBank := by
  unfold Obligations.PixelPlotsOnePixelOfTheBackBank
  refine ⟨fun _ _ _ => decodeCommand_pixel rfl, fun x y c s hc => ?notConfigured,
    fun x y c s hc => ⟨_, exec_pixel_of_configured x y c hc, complete_of_mem (plot_eq x y c s), plot_tex x y c s,
      readPixel_plot_front x y c s, readPixel_plot_back x y c s⟩⟩
  case notConfigured => rw [exec_drawing_unconfigured hc (by simp [Instr.opcode]), completeError_eq]

/-- Settles O10: the check of CFG, and past it the two banks: only the one that was front is cleared. -/
theorem swapExchangesBanksAndClearsTheNewBack : Obligations.SwapExchangesBanksAndClearsTheNewBack := by
  unfold Obligations.SwapExchangesBanksAndClearsTheNewBack
  refine ⟨fun _ _ _ => decodeCommand_swap rfl, fun s hc => ?notConfigured,
    fun s hc => ⟨_, exec_swap_of_configured hc, ?frame, ?texture, fun a => ?newFront, fun a => ?newBack⟩⟩
  case notConfigured => rw [exec_drawing_unconfigured hc (by simp [Instr.opcode]), completeError_eq]
  case frame => rw [complete_eq, swapBanks_eq]
  case texture => rw [complete_mem, swapBanks_eq]; exact Memory.setBank_tex _ _ _
  case newFront => exact (readPixel_swapBanks s _ a).trans (if_neg fun h => BankId.other_ne _ h.1)
  case newBack => exact (readPixel_swapBanks s _ a).trans (if_congr (and_iff_right rfl) rfl rfl)

/-- Settles O1: the accept of the write is the port's, the completion is NOP's whole meaning, and bit 8 is reserved. -/
theorem nopOnlyCompletes : Obligations.NopOnlyCompletes := by
  unfold Obligations.NopOnlyCompletes
  refine ⟨fun _ _ _ => decodeCommand_nop rfl, fun a0 a1 a2 s rest hs hl => ?illegal, fun s hb => ?accepted,
    fun s => ?completes⟩
  case illegal =>
    have hreserved : (0x00000100#32).extractLsb' 8 24 ≠ 0#24 := by decide
    have hturn : engineTurn { s with schedule := rest } = _ :=
      engineTurn_of_illegal hl (decodeCommand_reservedBits hreserved)
    rw [step_of_schedule hs, takeTurn, hturn, completeError_eq]
  case accepted => rw [commandWriteIsAcceptedOrDropped.1 _ s hb]; rfl
  case completes => rfl

end Sys2Proof.Machine
end

section
/-! PROOF. The exceptions of spec/60_exceptions.md that a completion or an access raises by itself: an illegal CMD word,
and an access refused while BUSY = 1. -/

namespace Sys2Proof.Machine

/-! ### Illegal CMD words (R94, R216) -/

/-- The opcode map of R93: no reserved bit is set, and the low byte is one of the ten codes. -/
theorem opcode_mem_map (i : Instr) :
    i.opcode.toNat / 256 = 0 ∧
      i.opcode.toNat % 256 ∈ [0x00, 0x01, 0x02, 0x03, 0x04, 0x10, 0x11, 0x12, 0x13, 0x20] := by
  cases i <;> simp [Instr.opcode]

/-- A CMD word outside the opcode map is illegal, whatever its operands (R94). -/
theorem decodeCommand_error_of_not_mem_map {c : Command}
    (h : c.op.toNat / 256 ≠ 0 ∨
      c.op.toNat % 256 ∉ [0x00, 0x01, 0x02, 0x03, 0x04, 0x10, 0x11, 0x12, 0x13, 0x20]) :
    ∃ e, decodeCommand c = .error e := by
  cases hd : decodeCommand c with
  | error e => exact ⟨e, rfl⟩
  | ok i =>
    obtain ⟨hbits, hbyte⟩ := opcode_mem_map i
    rw [op_of_decodeCommand hd] at h
    exact absurd h (not_or.2 ⟨not_not.2 hbits, not_not.2 hbyte⟩)

/-- Settles O21: the write is the port's accept, and a word outside the opcode map decodes to no command. -/
theorem illegalWordsCompleteWithIllegalCommand : Obligations.IllegalWordsCompleteWithIllegalCommand := by
  unfold Obligations.IllegalWordsCompleteWithIllegalCommand
  refine ⟨fun v s hl => ?accepted, fun s c rest hs hl hop => ?completed⟩
  case accepted =>
    have hidle : s.busy = false := by rw [State.busy, hl]; rfl
    exact commandWriteIsAcceptedOrDropped.1 v s hidle
  case completed =>
    obtain ⟨e, hd⟩ := decodeCommand_error_of_not_mem_map hop
    have hturn : engineTurn { s with schedule := rest } = _ := engineTurn_of_illegal hl hd
    rw [step_of_schedule hs, takeTurn, hturn, completeError_eq]

/-! ### Accesses while BUSY = 1 (R215) -/

/-- The registers whose write is refused while BUSY = 1 (R215). -/
def refusedWrites : List Reg := [.cmd, .texW, .texH, .texAddr, .texData]

/-- The registers of which a read depends on BUSY: STATUS shows it (R29), TEX_DATA is refused (R215). -/
def readsOfBusy : List Reg := [.status, .texData]

/-- The offsets at which R215 refuses a write, by the table of R24. -/
theorem mem_refusedWrites_iff (r : Reg) : r ∈ refusedWrites ↔ 4 * r.slot.val ∈ [0x28, 0x30, 0x34, 0x38, 0x3C] := by
  cases r <;> decide

/-- The offsets whose read depends on BUSY, by the table of R24. -/
theorem mem_readsOfBusy_iff (r : Reg) : r ∈ readsOfBusy ↔ 4 * r.slot.val ∈ [0x0C, 0x3C] := by
  cases r <;> decide

/-- The five offsets of R215's writes are those of the registers it names (R24). -/
theorem slot_of_refused_offset : ∀ slot : Fin 64, 4 * slot.val ∈ [0x28, 0x30, 0x34, 0x38, 0x3C] →
    ∃ r ∈ refusedWrites, slot = r.slot := by
  decide

/-- A refused write sets OVR only (R215). -/
theorem writeReg_refused {r : Reg} {s : State} (hr : r ∈ refusedWrites) (hb : s.busy = true) (v : Word) :
    writeReg r v s = overrun s := by
  simp only [refusedWrites, List.mem_cons, List.not_mem_nil, or_false] at hr
  obtain rfl | rfl | rfl | rfl | rfl := hr <;> exact if_pos hb

/-- Any other write neither depends on the latched command nor changes it (R215). -/
theorem writeReg_lc_irrelevant {r : Reg} (hr : r ∉ refusedWrites) (v : Word) (s : State) :
    writeReg r v s = { writeReg r v { s with lc := none } with lc := s.lc } := by
  cases r
  case cmd | texW | texH | texAddr | texData => exact absurd (by decide) hr
  all_goals rfl

/-- A read of any register but STATUS and TEX_DATA neither depends on the latched command nor changes it (R215). -/
theorem readReg_lc_irrelevant {r : Reg} (hr : r ∉ readsOfBusy) (s : State) :
    readReg r s =
      ((readReg r { s with lc := none }).1, { (readReg r { s with lc := none }).2 with lc := s.lc }) := by
  cases r
  case status | texData => exact absurd (by decide) hr
  all_goals rfl

theorem writeSlot_lc_irrelevant {slot : Fin 64} (hslot : 4 * slot.val ∉ [0x28, 0x30, 0x34, 0x38, 0x3C]) (v : Word)
    (s : State) : writeSlot slot v s = { writeSlot slot v { s with lc := none } with lc := s.lc } := by
  cases hreg : slotReg slot with
  | none => simp only [writeSlot, hreg]
  | some r =>
    obtain rfl := (slotReg_eq_some slot r).1 hreg
    simp only [writeSlot_slot]
    exact writeReg_lc_irrelevant (mt (mem_refusedWrites_iff r).1 hslot) v s

theorem readSlot_lc_irrelevant {slot : Fin 64} (hslot : 4 * slot.val ∉ [0x0C, 0x3C]) (s : State) :
    readSlot slot s =
      ((readSlot slot { s with lc := none }).1, { (readSlot slot { s with lc := none }).2 with lc := s.lc }) := by
  cases hreg : slotReg slot with
  | none => simp only [readSlot, hreg]
  | some r =>
    obtain rfl := (slotReg_eq_some slot r).1 hreg
    simp only [readSlot_slot]
    exact readReg_lc_irrelevant (mt (mem_readsOfBusy_iff r).1 hslot) s

/-- No bit of STATUS but bit 0 depends on the latched command (R29). -/
theorem statusWord_bit_lc_irrelevant {k : Nat} (hk : k ≠ 0) (s : State) (lc : Option Command) :
    s.statusWord.getLsbD k = { s with lc := lc }.statusWord.getLsbD k := by
  simp only [State.statusWord, BitVec.getLsbD_append, Nat.lt_one_iff, hk, if_false]

/-- Settles O36: the six refused accesses are the port's, and the others see BUSY in bit 0 of STATUS only. -/
theorem busyAccessesOverrun : Obligations.BusyAccessesOverrun := by
  unfold Obligations.BusyAccessesOverrun
  refine fun s hb => ⟨fun slot v hslot => ?refusedWrite, ?refusedRead, fun slot v hslot => ?otherWrite,
    fun slot hslot => ?otherRead, s.statusWord, readSlot_slot .status s, ?busyBit, fun k hk => ?otherBits⟩
  case refusedWrite =>
    obtain ⟨r, hr, rfl⟩ := slot_of_refused_offset slot hslot
    exact (writeSlot_slot r v s).trans (writeReg_refused hr hb v)
  case refusedRead => exact (readSlot_slot .texData s).trans (if_pos hb)
  case otherWrite => exact writeSlot_lc_irrelevant hslot v s
  case otherRead => exact readSlot_lc_irrelevant hslot s
  case busyBit => exact (statusWord_busy s).trans hb
  case otherBits =>
    have hread : readSlot 3 { s with lc := none } = _ := readSlot_slot .status _
    rw [hread]
    exact statusWord_bit_lc_irrelevant hk s none

end Sys2Proof.Machine
end

section
/-! PROOF. The encoding of commands: decoding and encoding are inverse, but for the operands that a format ignores, and a
step of the engine runs the command that the latched tuple decodes to. -/

namespace Sys2Proof.Machine

/-! ### The other CMD words (R93) -/

section
variable {c : Command}

theorem decodeCommand_hsv (h : c.op = 0x00000012#32) :
    decodeCommand c = .ok (.hsv c.a0.toInt c.a1.toInt c.a2.toInt) := by
  simp only [decodeCommand, h]
  rfl

theorem decodeCommand_grey (h : c.op = 0x00000013#32) : decodeCommand c = .ok (.grey c.a0.toInt) := by
  simp only [decodeCommand, h]
  rfl

theorem decodeCommand_romload (h : c.op = 0x00000020#32) :
    decodeCommand c =
      .ok (.romload (nameByte c.a0 0) (nameByte c.a0 1) (nameByte c.a0 2) (nameByte c.a0 3)) := by
  simp only [decodeCommand, h]
  rfl

end

/-! ### Encode, then decode -/

/-- A signed operand that fits is read back from the register (R92). -/
theorem toInt_ofS32 {v : Int} (h : inS32 v = true) : (ofS32 v).toInt = v := s32_ofS32 h

/-- An unsigned operand that fits is read back from the register (R92). -/
theorem toNat_ofU32 {v : Nat} (h : inU32 v = true) : (ofU32 v).toNat = v := u32_ofU32 h

/-- Settles O24: by the constructors, each operand read back through its form. -/
theorem decodeInvertsEncode : Obligations.DecodeInvertsEncode := by
  unfold Obligations.DecodeInvertsEncode
  intro i hi
  cases i <;> simp only [Instr.wellFormed, Bool.and_eq_true] at hi
  case nop => exact decodeCommand_nop rfl
  case config w h => rw [decodeCommand_config rfl]; simp only [encode, toNat_ofU32, hi]
  case pixel x y code => rw [decodeCommand_pixel rfl]; simp only [encode, toInt_ofS32, hi]
  case rect xoff yoff => rw [decodeCommand_rect rfl]; simp only [encode, toInt_ofS32, hi]
  case swap => exact decodeCommand_swap rfl
  case rgb r g b => rw [decodeCommand_rgb rfl]; simp only [encode, toInt_ofS32, hi]
  case decode code => rw [decodeCommand_decode rfl]; simp only [encode, toInt_ofS32, hi]
  case hsv h s v => rw [decodeCommand_hsv rfl]; simp only [encode, toInt_ofS32, hi]
  case grey code => rw [decodeCommand_grey rfl]; simp only [encode, toInt_ofS32, hi]
  case romload n0 n1 n2 n3 =>
    rw [decodeCommand_romload rfl]
    simp only [encode, nameByte_nameWord_0, nameByte_nameWord_1, nameByte_nameWord_2, nameByte_nameWord_3]

/-! ### Decode, then encode -/

theorem ofS32_toInt (a : Word) : ofS32 a.toInt = a := ofS32_s32 a

theorem ofU32_toNat (a : Word) : ofU32 a.toNat = a := ofU32_u32 a

theorem inS32_toInt (a : Word) : inS32 a.toInt = true := s32_range a

theorem inU32_toNat (a : Word) : inU32 a.toNat = true := u32_range a

/-- Settles O25: the opcode gives the constructor, whose operands are those of the tuple; an ignored operand is not
among them. -/
theorem encodeInvertsDecodeButForIgnoredOperands : Obligations.EncodeInvertsDecodeButForIgnoredOperands := by
  unfold Obligations.EncodeInvertsDecodeButForIgnoredOperands
  refine ⟨fun c i hd => ?reencoded, fun op a0 a1 a2 b0 b1 b2 => ⟨fun hop => ?none, fun hop => ?one, fun hop => ?two⟩⟩
  case reencoded =>
    have hop := op_of_decodeCommand hd
    rw [hop]
    cases i with
    | nop => exact ⟨rfl, rfl, .inr (.inl rfl), .inr (by decide), .inr (by decide)⟩
    | config w h =>
      cases hd.symm.trans (decodeCommand_config hop)
      simp [Instr.wellFormed, inU32_toNat, encode, ofU32_toNat, Instr.opcode]
    | pixel x y code =>
      cases hd.symm.trans (decodeCommand_pixel hop)
      simp [Instr.wellFormed, inS32_toInt, encode, ofS32_toInt]
    | rect xoff yoff =>
      cases hd.symm.trans (decodeCommand_rect hop)
      simp [Instr.wellFormed, inS32_toInt, encode, ofS32_toInt, Instr.opcode]
    | swap => exact ⟨rfl, rfl, .inr (.inr rfl), .inr (by decide), .inr (by decide)⟩
    | rgb r g b =>
      cases hd.symm.trans (decodeCommand_rgb hop)
      simp [Instr.wellFormed, inS32_toInt, encode, ofS32_toInt]
    | decode code =>
      cases hd.symm.trans (decodeCommand_decode hop)
      simp [Instr.wellFormed, inS32_toInt, encode, ofS32_toInt, Instr.opcode]
    | hsv h s v =>
      cases hd.symm.trans (decodeCommand_hsv hop)
      simp [Instr.wellFormed, inS32_toInt, encode, ofS32_toInt]
    | grey code =>
      cases hd.symm.trans (decodeCommand_grey hop)
      simp [Instr.wellFormed, inS32_toInt, encode, ofS32_toInt, Instr.opcode]
    | romload n0 n1 n2 n3 =>
      cases hd.symm.trans (decodeCommand_romload hop)
      simp [Instr.wellFormed, encode, nameWord_nameByte, Instr.opcode]
  case none =>
    simp only [List.mem_cons, List.not_mem_nil, or_false] at hop
    obtain rfl | rfl := hop
    · rw [decodeCommand_nop rfl, decodeCommand_nop rfl]
    · rw [decodeCommand_swap rfl, decodeCommand_swap rfl]
  case one =>
    simp only [List.mem_cons, List.not_mem_nil, or_false] at hop
    obtain rfl | rfl | rfl := hop
    · rw [decodeCommand_decode rfl, decodeCommand_decode rfl]
    · rw [decodeCommand_grey rfl, decodeCommand_grey rfl]
    · rw [decodeCommand_romload rfl, decodeCommand_romload rfl]
  case two =>
    simp only [List.mem_cons, List.not_mem_nil, or_false] at hop
    obtain rfl | rfl := hop
    · rw [decodeCommand_config rfl, decodeCommand_config rfl]
    · rw [decodeCommand_rect rfl, decodeCommand_rect rfl]

/-- Settles O26: each word is its opcode's, with its operands evaluated. -/
theorem specimenWordsDecode : Obligations.SpecimenWordsDecode := by
  unfold Obligations.SpecimenWordsDecode
  exact ⟨decodeCommand_config rfl, decodeCommand_pixel rfl, decodeCommand_rect rfl, decodeCommand_rgb rfl,
    decodeCommand_grey rfl, decodeCommand_romload rfl, decodeCommand_reservedBits (by decide), rfl⟩

/-! ### The engine's step -/

/-- The engine's turn with a legal command held is that command's meaning (R23). -/
theorem engineTurn_of_decode {s : State} {c : Command} {i : Instr} (hl : s.lc = some c)
    (hd : decodeCommand c = .ok i) : engineTurn s = exec i s := by
  simp only [engineTurn, hl, hd]

/-- Settles O27, by the two ways in which the engine's turn comes. -/
theorem stepRunsTheLatchedCommand : Obligations.StepRunsTheLatchedCommand := by
  unfold Obligations.StepRunsTheLatchedCommand
  refine ⟨fun s c i rest hs hl hd => ?scheduled, fun s c i hs hl hd => ?byDefault⟩
  case scheduled => exact (step_of_schedule hs).trans (engineTurn_of_decode hl hd)
  case byDefault => exact (step_engine hs hl).trans (engineTurn_of_decode hl hd)

/-- A row's bits read as a command exactly where their tuple decodes to it. -/
theorem decodeTableWord_eq_some (nbits w : Nat) (i : Instr) :
    decodeTableWord nbits w = some i ↔ decodeCommand (Command.ofBits nbits w) = .ok i := by
  unfold decodeTableWord
  cases decodeCommand (Command.ofBits nbits w) <;> simp

/-- Settles O28: the placed tuple is held, and the engine's turn is at the head of the schedule. -/
theorem placedWordRunsNext : Obligations.PlacedWordRunsNext := by
  unfold Obligations.PlacedWordRunsNext
  intro s nbits w i hd
  have hturn : step (s.withFetchWord nbits w) = engineTurn { s with lc := some (Command.ofBits nbits w) } :=
    step_of_schedule (u := .engine) (rest := s.schedule) rfl
  exact hturn.trans (engineTurn_of_decode rfl ((decodeTableWord_eq_some nbits w i).1 hd))

end Sys2Proof.Machine
end

section
/-! SUPPORT. What a command can do, said once: it completes with an error, or with one of the effects listed here. -/

namespace Sys2Proof.Machine

/-- The commands that leave a word in RESULT and change nothing else (R36, R125, R126, R129, R131). -/
def codecOpcodes : List Word := [0x00000010#32, 0x00000011#32, 0x00000012#32, 0x00000013#32]

/-- The effect u that a command whose checks pass has on a state s, before its completion. -/
inductive Effect (s : State) : Instr → State → Prop where
  | nop : Effect s .nop s
  | config {w h : Nat} (hc : s.cfg = false) (hw : 1 ≤ w ∧ w ≤ s.params.wmax) (hh : 1 ≤ h ∧ h ≤ s.params.hmax) :
    Effect s (.config w h) (configure w h s)
  | pixel {x y c : Int} : Effect s (.pixel x y c) (plot x y c s)
  | rect {x y : Int} : Effect s (.rect x y) (drawTexture x y s)
  | swap : Effect s .swap (swapBanks s)
  | codec {i : Instr} {v : Word} (hi : i.opcode ∈ codecOpcodes) : Effect s i (setResult v s)
  | romload {n0 n1 n2 n3 : Byte} {c : RomHit} (hcap : c.p ≤ s.params.texCap) :
    Effect s (.romload n0 n1 n2 n3) (loadTexture s.romForLoad c s)

/-- t completes the command i from s: with an error, or with an effect. -/
def CompletesAs (i : Instr) (s t : State) : Prop :=
  (∃ e, e ≠ ErrCode.none ∧ t = completeError e s) ∨ ∃ u, Effect s i u ∧ t = complete u

/-- Every command completes as one of the effects, or with an error. -/
theorem exec_completesAs (i : Instr) (s : State) : EndsIn (CompletesAs i s) (exec i s) := by
  have herror {e : ErrCode} (he : e ≠ .none) : EndsIn (CompletesAs i s) (.next (completeError e s)) :=
    endsIn_next (.inl ⟨e, he, rfl⟩)
  have heffect {u : State} (hu : Effect s i u) : EndsIn (CompletesAs i s) (.next (complete u)) :=
    endsIn_next (.inr ⟨u, hu, rfl⟩)
  cases i with
  | nop => exact heffect .nop
  | config w h =>
    rw [exec, execConfig]
    split
    · exact herror (by decide)
    split
    · rename_i hc hsize
      obtain ⟨hw1, hw, hh⟩ := hsize
      exact heffect (.config (Bool.eq_false_iff.2 hc) ⟨hw1, hw⟩ hh)
    · exact herror (by decide)
  | pixel x y c => exact endsIn_ite (heffect .pixel) (herror (by decide))
  | rect x y => exact endsIn_ite (endsIn_ite (herror (by decide)) (heffect .rect)) (herror (by decide))
  | swap => exact endsIn_ite (heffect .swap) (herror (by decide))
  | rgb r g b => exact endsIn_ite (heffect (.codec (by simp [Instr.opcode, codecOpcodes]))) (herror (by decide))
  | decode c => exact heffect (.codec (by simp [Instr.opcode, codecOpcodes]))
  | hsv h sat v => exact endsIn_ite (heffect (.codec (by simp [Instr.opcode, codecOpcodes]))) (herror (by decide))
  | grey c => exact heffect (.codec (by simp [Instr.opcode, codecOpcodes]))
  | romload n0 n1 n2 n3 =>
    rw [exec, execRomload]
    split
    · rename_i c hok
      obtain ⟨-, -, hcap, -⟩ := romload_ok hok
      exact heffect (.romload hcap)
    · rename_i e herr
      exact herror (romload_error herr)

/-- An effect leaves the host's registers, the flags, the other agents and the inputs (R23). -/
theorem Effect.frame {i : Instr} {s u : State} (h : Effect s i u) :
    u = { s with
      fbW := u.fbW, fbH := u.fbH, result := u.result, texW := u.texW, texH := u.texH
      frontSel := u.frontSel, cfg := u.cfg, mem := u.mem } := by
  cases h with
  | nop | config _ _ _ | swap | codec _ => rfl
  | pixel => rw [plot_eq]
  | rect => rw [drawTexture_eq]
  | romload _ => rw [loadTexture_eq]

/-- What the engine's turn does: nothing where no command is held; else it completes with an error, or with an effect of
the command whose opcode the held word is. -/
theorem engineTurn_completes {s t : State} (ht : engineTurn s = .next t) :
    t = s ∨ (∃ e, e ≠ ErrCode.none ∧ t = completeError e s) ∨
      ∃ c i u, s.lc = some c ∧ c.op = i.opcode ∧ Effect s i u ∧ t = complete u := by
  obtain ⟨-, e⟩ | ⟨c, i, hl, hd, e⟩ | ⟨c, e', -, -, e⟩ := engineTurn_cases s <;> rw [e] at ht
  · cases ht; exact .inl rfl
  · obtain herr | ⟨u, hu, htu⟩ := exec_completesAs i s t ht
    · exact .inr (.inl herr)
    · exact .inr (.inr ⟨c, i, u, hl, op_of_decodeCommand hd, hu, htu⟩)
  · cases ht; exact .inr (.inl ⟨_, by decide, rfl⟩)

end Sys2Proof.Machine
end

section
/-! PROOF. The invariant of R47: it holds after reset, every agent's turn keeps it, and what it says of the pixels and of
the ROM decoder's offset register. -/

namespace Sys2Proof.Machine

/-! ### Completions -/

/-- What a command's effect has to keep for its completion to meet the invariant: all of it but the ROM decoder's part,
which the completion restores. -/
def State.EffectInv (s : State) : Prop := s.params.Legal ∧ s.SizeInv ∧ s.MemInv ∧ s.ErrInv

theorem State.Inv.effectInv {s : State} (h : s.Inv) : s.EffectInv := by
  obtain ⟨hp, hs, hm, he, -⟩ := h
  exact ⟨hp, hs, hm, he⟩

/-- A completion puts the ROM decoder to rest (R23, R153). -/
theorem complete_inv {s : State} (h : s.EffectInv) : (complete s).Inv := by
  obtain ⟨hp, hs, hm, he⟩ := h
  exact ⟨hp, hs, hm, he, fun _ => ⟨rfl, rfl⟩, RomFsm.idle_fits⟩

/-- The record of an error sets ERRCODE with ERR, or finds both set (R212, R219). -/
theorem completeError_inv {s : State} (h : s.EffectInv) {e : ErrCode} (hne : e ≠ .none) :
    (completeError e s).Inv := by
  obtain ⟨hp, hs, hm, he⟩ := h
  rw [completeError_eq]
  refine ⟨hp, hs, hm, iff_of_true rfl ?_, fun _ => ⟨rfl, rfl⟩, RomFsm.idle_fits⟩
  dsimp only
  split
  · rename_i herr
    exact he.1 herr
  · exact hne

/-- The size's invariant speaks of CFG, the size and the parameters only. -/
theorem sizeInv_of_sameSize {s t : State} (hs : s.SizeInv) (hp : t.params = s.params) (h : SameSize s t) :
    t.SizeInv := by
  obtain ⟨hc, hw, hh⟩ := h
  simpa only [State.SizeInv, State.width, State.height, hp, hc, hw, hh] using hs

/-- An effect that leaves the parameters, CFG, the size, ERR and ERRCODE has to keep the memories' invariant only. -/
theorem effectInv_of_memInv {s t : State} (h : s.EffectInv) (hp : t.params = s.params) (hsame : SameSize s t)
    (herr : t.err = s.err ∧ t.errCode = s.errCode) (hm : t.MemInv) : t.EffectInv := by
  obtain ⟨hlegal, hs, -, he⟩ := h
  exact ⟨by rw [hp]; exact hlegal, sizeInv_of_sameSize hs hp hsame, hm, by rw [State.ErrInv, herr.1, herr.2]; exact he⟩

/-- CONFIG of a legal size while CFG = 0 sets CFG and the size together (R181). -/
theorem configure_effectInv {s : State} (h : s.EffectInv) (hc : s.cfg = false) {w ht : Nat}
    (hw : 1 ≤ w ∧ w ≤ s.params.wmax) (hh : 1 ≤ ht ∧ ht ≤ s.params.hmax) : (configure w ht s).EffectInv := by
  obtain ⟨hp, hs, hm, he⟩ := h
  have ⟨_, hwmax, _, hhmax, _⟩ := hp
  have hzero : s.width * s.height = 0 := by
    simp only [State.SizeInv, hc] at hs
    rw [hs.1, Nat.zero_mul]
  have hmem := configure_memInv hm hzero (w := w) (ht := ht) (by omega) (by omega)
  have hsize (n : Nat) (hn : n < 4294967296) : (ofU32 n).toNat = n := toNat_ofU32 ((inU32_iff n).2 hn)
  refine ⟨hp, ?_, hmem, he⟩
  have hwn := hsize w (by omega)
  have hhn := hsize ht (by omega)
  rw [configure_eq]
  simp only [State.SizeInv, State.width, State.height, hwn, hhn, if_true]
  exact ⟨hw.1, hw.2, hh.1, hh.2⟩

/-- Every effect of a command keeps that part of the invariant. -/
theorem Effect.effectInv {i : Instr} {s u : State} (h : Effect s i u) (hs : s.EffectInv) : u.EffectInv := by
  have ⟨_, _, hm, _⟩ := hs
  cases h with
  | nop | codec _ => exact hs
  | config hc hw hh => exact configure_effectInv hs hc hw hh
  | @pixel x y c =>
    exact effectInv_of_memInv hs (by rw [plot_eq]) (by rw [plot_eq]; exact ⟨rfl, rfl, rfl⟩)
      (by rw [plot_eq]; exact ⟨rfl, rfl⟩) (plot_memInv hm x y c)
  | @rect x y =>
    exact effectInv_of_memInv hs (by rw [drawTexture_eq]) (by rw [drawTexture_eq]; exact ⟨rfl, rfl, rfl⟩)
      (by rw [drawTexture_eq]; exact ⟨rfl, rfl⟩) (drawTexture_memInv hm x y)
  | swap =>
    exact effectInv_of_memInv hs (by rw [swapBanks_eq]) (by rw [swapBanks_eq]; exact ⟨rfl, rfl, rfl⟩)
      (by rw [swapBanks_eq]; exact ⟨rfl, rfl⟩) (swapBanks_memInv hm)
  | romload hcap =>
    exact effectInv_of_memInv hs (by rw [loadTexture_eq]) (by rw [loadTexture_eq]; exact ⟨rfl, rfl, rfl⟩)
      (by rw [loadTexture_eq]; exact ⟨rfl, rfl⟩) (loadTexture_memInv hm _ hcap)

/-- The engine's turn keeps the invariant. -/
theorem engineTurn_inv {s t : State} (h : s.Inv) (ht : engineTurn s = .next t) : t.Inv := by
  obtain rfl | ⟨e, he, rfl⟩ | ⟨c, i, u, -, -, hu, rfl⟩ := engineTurn_completes ht
  · exact h
  · exact completeError_inv h.effectInv he
  · exact complete_inv (hu.effectInv h.effectInv)

/-! ### The other agents' turns -/

/-- A host write keeps the invariant: TEX_DATA lists no entry that does not exist, STATUS clears ERR and ERRCODE
together, and CMD finds the ROM decoder at rest. -/
theorem writeSlot_inv {s : State} (h : s.Inv) (slot : Fin 64) (v : Word) : (writeSlot slot v s).Inv := by
  have hframe := writeSlot_frame slot v s
  have htex := writeSlot_tex slot v s
  have herr := writeSlot_err slot v s
  have hlc := writeSlot_lc slot v s
  generalize writeSlot slot v s = t at *
  obtain ⟨hp, hs, ⟨hwf, h0, h1, ht⟩, he, hd, hfits⟩ := h
  have hparams : t.params = s.params := by rw [hframe]
  refine ⟨by rw [hparams]; exact hp, sizeInv_of_sameSize hs hparams (by rw [hframe]; exact ⟨rfl, rfl, rfl⟩),
    ⟨?wf, ?fb0, ?fb1, ?tex⟩, ?err, fun hpend => ?decoder, ?fits⟩
  case wf =>
    obtain ⟨hf0, hf1, hrising⟩ := (Memory.wf_iff _).1 hwf
    have hrising' : cellsRising t.mem.tex = true := by
      obtain e | ⟨-, -, -, e⟩ := htex <;> rw [e]
      · exact hrising
      · exact cellsPut_rising hrising _ _
    rw [Memory.wf_iff, hframe]
    exact ⟨hf0, hf1, hrising'⟩
  case fb0 => rw [hframe]; exact h0
  case fb1 => rw [hframe]; exact h1
  case tex =>
    rw [hparams]
    obtain e | ⟨hcap, -, -, e⟩ := htex <;> rw [e]
    · exact ht
    · intro c hc
      obtain rfl | hc := mem_cellsPut hc
      · exact hcap
      · exact ht c hc
  case err =>
    rw [State.ErrInv]
    obtain ⟨e, ec⟩ | ⟨e, ec, -⟩ := herr <;> rw [e, ec]
    · exact he
    · decide
  case decoder =>
    have hrest : s.romloadPending = false := by
      obtain e | ⟨e, -⟩ := hlc
      · rw [State.romloadPending, e] at hpend; exact hpend
      · rw [State.romloadPending, e]
    rw [hframe]
    exact hd hrest
  case fits => rw [hframe]; exact hfits

/-- A host read keeps the invariant. -/
theorem readSlot_inv {s : State} (h : s.Inv) (slot : Fin 64) : (readSlot slot s).2.Inv := by
  rw [readSlot_frame]
  exact h

theorem hostTurn_inv {s : State} (h : s.Inv) : (hostTurn s).Inv := by
  obtain ⟨-, a, e⟩ | ⟨slot, v, a, -, e⟩ | ⟨slot, a, -, e⟩ := hostTurn_access s <;> rw [e]
  · exact h
  · exact writeSlot_inv h slot v
  · exact readSlot_inv h slot

/-- The ROM decoder moves only while a ROMLOAD is pending (R153). -/
theorem decoderTurn_inv {s : State} (h : s.Inv) : (decoderTurn s).Inv := by
  unfold decoderTurn
  split
  · rename_i c hl
    split
    · rename_i hop
      have hpending : s.romloadPending = true := by simp only [State.romloadPending, hl, hop, decide_true]
      obtain ⟨hp, hs, hm, he, -, hfits⟩ := h
      exact ⟨hp, hs, hm, he, fun hidle => absurd (hpending.symm.trans hidle) (by decide), RomFsm.tick_fits hfits _ _ _⟩
    · exact h
  · exact h

/-- A change of the ROM is put on record only while a ROMLOAD is pending (R250; log 9). -/
theorem romTurn_inv {s : State} (h : s.Inv) (r : Rom) : (romTurn r s).Inv := by
  unfold romTurn
  split
  · rename_i hpending
    obtain ⟨hp, hs, hm, he, -, hfits⟩ := h
    exact ⟨hp, hs, hm, he, fun hidle => absurd (hpending.symm.trans hidle) (by decide), hfits⟩
  · exact h

/-- Reset leaves the invariant, whatever was before it (R240). -/
theorem resetTurn_inv {s : State} (hp : s.params.Legal) : (resetTurn s).Inv := by
  have hdrawn : Bank.Drawn 0 ⟨0, []⟩ := ⟨rfl, by simp⟩
  exact ⟨hp, ⟨rfl, rfl⟩, ⟨reset_mem_wf, hdrawn, hdrawn, by simp [resetTurn, State.reset]⟩,
    iff_of_false nofun (not_not.2 rfl), fun _ => ⟨rfl, rfl⟩, RomFsm.idle_fits⟩

/-! ### The statements -/

/-- Settles O49: each agent's turn keeps the invariant. -/
theorem everyStepKeepsTheInvariant : Obligations.EveryStepKeepsTheInvariant := by
  unfold Obligations.EveryStepKeepsTheInvariant
  intro s t hs h
  exact step_turns (fun _ s t => s.Inv → t.Inv) (fun _ _ _ _ h => h) (fun _ => hostTurn_inv)
    (fun _ _ ht h => engineTurn_inv h ht) (fun _ => decoderTurn_inv) (fun _ _ h => h) (fun r _ h => romTurn_inv h r)
    (fun _ h => resetTurn_inv h.1) h hs

/-- The parameters of Config are legal, whatever they are (R9; log 2). -/
theorem reset_params_legal : State.reset.params.Legal := by
  simp only [State.reset, Params.Legal, Config.wmax, Config.hmax, Config.texCap]
  omega

/-- Settles O48: State.reset is what a reset step leaves of it, in all that the invariant speaks of. -/
theorem invariantHoldsAtReset : Obligations.InvariantHoldsAtReset :=
  resetTurn_inv reset_params_legal

/-- What is found is listed. -/
theorem mem_of_cellsFind {α : Type} {a : Nat} {v : α} {m : List (Nat × α)} (h : cellsFind a m = some v) :
    (a, v) ∈ m := by
  induction m with
  | nil => cases h
  | cons c m ih =>
    obtain ⟨b, w⟩ := c
    simp only [cellsFind] at h
    split at h
    · rename_i hab
      cases h; subst hab
      exact List.mem_cons_self
    · exact List.mem_cons_of_mem _ (ih h)

/-- A pixel of a drawn bank's zeroed part is zero or a palette word (R47 b). -/
theorem Bank.Drawn.read {n a : Nat} {b : Bank} (h : b.Drawn n) (ha : a < n) (epoch number : Nat) :
    b.read epoch number a = 0 ∨ PaletteWord (b.read epoch number a) := by
  obtain ⟨hz, hcells⟩ := h
  unfold Bank.read
  cases hf : cellsFind a b.cells with
  | some v => exact .inr (hcells _ (mem_of_cellsFind hf)).2
  | none => exact .inl (if_pos (hz ▸ ha))

/-- Both banks are drawn within the buffer. -/
theorem State.MemInv.bank {s : State} (h : s.MemInv) (b : BankId) : (s.mem.bank b).Drawn (s.width * s.height) := by
  obtain ⟨-, h0, h1, -⟩ := h
  cases b
  · exact h0
  · exact h1

/-- Settles O50: every pixel of a drawn bank is zero or a palette word, and those are opaque. -/
theorem pixelsAreZeroOrPaletteWords : Obligations.PixelsAreZeroOrPaletteWords := by
  unfold Obligations.PixelsAreZeroOrPaletteWords
  intro s b a hs ha
  obtain ⟨-, -, hm, -, -⟩ := hs
  obtain hz | ⟨c, hc, hv⟩ := (hm.bank b).read ha s.epoch b.number
  · exact .inl hz
  · obtain ⟨hc1, hc2⟩ := (validCode_iff c).1 hc
    have hv' : s.readPixel b a = decodeWord c := hv
    exact .inr ⟨by rw [hv']; exact decodeWord_alpha c, c, hc1, hc2, hv'⟩

/-- Settles O17: the decoder's turn by the held command, and the bound by the widths that the invariant keeps. -/
theorem decoderTurnMovesOneState : Obligations.DecoderTurnMovesOneState := by
  unfold Obligations.DecoderTurnMovesOneState
  refine ⟨fun s c rest hs hl hop => ?moves, fun s rest hs hno => ?idle, fun s hs => ?width⟩
  case moves => simp only [step_of_schedule hs, takeTurn, decoderTurn, hl, hop, if_true]
  case idle =>
    rw [step_of_schedule hs, takeTurn]
    cases hl : s.lc with
    | none => rfl
    | some c => simp only [decoderTurn, hno c hl, if_false]
  case width =>
    obtain ⟨-, -, -, -, -, hn, hi, -, ho, -⟩ := hs
    omega

end Sys2Proof.Machine
end

section
/-! PROOF. The palette commands HSV and GREY, and the laws of the codec. -/

namespace Sys2Proof.Machine

/-! ### HSV in integers (R127; log 13) -/

/-- The quotient of two numbers, rounded down, as the rationals have it. -/
theorem floor_natCast_div (n d : Nat) : ((n : Rat) / (d : Rat)).floor = ((n / d : Nat) : Int) :=
  Rat.floor_natCast_div_natCast n d

/-- What is left of a quotient above its floor. -/
theorem natCast_div_sub_floor (n : Nat) {d : Nat} (hd : 0 < d) :
    (n : Rat) / (d : Rat) - (((n / d : Nat) : Int) : Rat) = ((n % d : Nat) : Rat) / (d : Rat) := by
  have hne : (d : Rat) ≠ 0 := Nat.cast_ne_zero.2 hd.ne'
  have hdiv : (n : Rat) = d * ((n / d : Nat) : Rat) + ((n % d : Nat) : Rat) := by
    exact_mod_cast (Nat.div_add_mod n d).symm
  rw [hdiv, Int.cast_natCast, add_div, mul_div_cancel_left₀ _ hne, add_sub_cancel_left]

/-- The nearest integer to n/49 for a channel value n/343 of at most 1, halves up (R127). -/
theorem channel_eq {c : Rat} {n : Nat} (hc : c = (n : Rat) / 343) (hn : n ≤ 343) :
    clamp7 (roundHalfAway (7 * c)) = (((2 * n + 49) / 98 : Nat) : Int) := by
  have hnonneg : 0 ≤ 7 * c := by rw [hc]; positivity
  have hhalf : 7 * c + 1 / 2 = ((2 * n + 49 : Nat) : Rat) / ((98 : Nat) : Rat) := by
    rw [hc]; push_cast; ring
  rw [roundHalfAway, if_pos hnonneg, hhalf, floor_natCast_div, clamp7]
  omega

/-- The code of indices that are natural numbers (R122). -/
theorem paletteEncode_natCast (r g b : Nat) :
    paletteEncode r g b = ((64 * r + 8 * g + b + 1 : Nat) : Int) := by
  simp only [paletteEncode]
  omega

/-- The sextant formula in exact rationals is the one over the common denominator 49: the hue is 6h sevenths, and each
of val, p, q and t is a number of 343rds. -/
theorem hsvCode_eq (h : Nat) {s v : Nat} (hs : s ≤ 7) (hv : v ≤ 7) : hsvCode h s v = (hsvByIntegers h s v : Int) := by
  have hhue : 360 * ((h : Int) : Rat) / 7 / 60 = ((6 * h : Nat) : Rat) / ((7 : Nat) : Rat) := by
    push_cast; ring
  have hsextant : (((6 * h / 7 : Nat) : Int) % 6).toNat = 6 * h / 7 % 6 := by omega
  unfold hsvCode hsvByIntegers
  simp only [hhue, floor_natCast_div, natCast_div_sub_floor _ (by decide : 0 < 7), hsextant]
  rw [Nat.cast_ofNat]
  generalize hf : 6 * h % 7 = f
  have hf7 : f ≤ 7 := hf ▸ (Nat.mod_lt _ (by decide)).le
  have hsf : s * f ≤ 49 := (Nat.mul_le_mul hs hf7).trans (by decide)
  have hsg : s * (7 - f) ≤ 49 := (Nat.mul_le_mul hs (Nat.sub_le 7 f)).trans (by decide)
  have hbound (n : Nat) (hn : n ≤ 49) : v * n ≤ 343 := (Nat.mul_le_mul hv hn).trans (by decide)
  have hval : ((v : Int) : Rat) / 7 = ((49 * v : Nat) : Rat) / 343 := by push_cast; ring
  have hp : ((v : Int) : Rat) / 7 * (1 - ((s : Int) : Rat) / 7) = ((7 * (v * (7 - s)) : Nat) : Rat) / 343 := by
    push_cast [Nat.cast_sub hs]; ring
  have hq : ((v : Int) : Rat) / 7 * (1 - ((s : Int) : Rat) / 7 * ((f : Rat) / 7)) =
      ((v * (49 - s * f) : Nat) : Rat) / 343 := by
    push_cast [Nat.cast_sub hsf]; ring
  have ht : ((v : Int) : Rat) / 7 * (1 - ((s : Int) : Rat) / 7 * (1 - (f : Rat) / 7)) =
      ((v * (49 - s * (7 - f)) : Nat) : Rat) / 343 := by
    push_cast [Nat.cast_sub hsg, Nat.cast_sub hf7]; ring
  have hpn : 7 * (v * (7 - s)) ≤ 343 := by
    rw [Nat.mul_left_comm]
    exact hbound _ (by omega)
  have hvn : (2 * (49 * v) + 49) / 98 = v := by omega
  rw [channel_eq hval (by omega), channel_eq hp hpn, channel_eq hq (hbound _ (Nat.sub_le _ _)),
    channel_eq ht (hbound _ (Nat.sub_le _ _)), hvn]
  generalize 6 * h / 7 % 6 = sextant
  match sextant with
  | 0 | 1 | 2 | 3 | 4 | _ + 5 => exact paletteEncode_natCast _ _ _

/-- HSV with operands of the domain (R129). -/
theorem exec_hsv_of_inDomain {h sat v : Int} (hh : inDomain h = true) (hs : inDomain sat = true)
    (hv : inDomain v = true) (s : State) :
    exec (.hsv h sat v) s = .next (complete (setResult (ofS32 (hsvCode h sat v)) s)) :=
  if_pos (by simp only [hh, hs, hv, Bool.and_self])

/-- HSV with an operand outside the domain (R124, R129). -/
theorem exec_hsv_of_not_inDomain {h sat v : Int} (hout : h < 0 ∨ 7 < h ∨ sat < 0 ∨ 7 < sat ∨ v < 0 ∨ 7 < v)
    (s : State) : exec (.hsv h sat v) s = .next (completeError .domain s) :=
  if_neg fun hdomain => by
    simp only [Bool.and_eq_true, inDomain_iff] at hdomain
    omega

/-- Settles O4: the domain check decides, and the formula in rationals is the one in integers. -/
theorem hsvFollowsSextantFormula : Obligations.HsvFollowsSextantFormula := by
  unfold Obligations.HsvFollowsSextantFormula
  have hdomain {n : Nat} (hn : n ≤ 7) : inDomain n = true := (inDomain_iff n).2 (by omega)
  refine ⟨fun a0 a1 a2 => decodeCommand_hsv rfl, fun h sat v s hh hs hv => ?formula, fun h sat v s hout => ?raises⟩
  case formula =>
    rw [exec_hsv_of_inDomain (hdomain hh) (hdomain hs) (hdomain hv), hsvCode_eq h hs hv, ofS32, BitVec.ofInt_natCast,
      complete_eq, setResult]
  case raises => rw [exec_hsv_of_not_inDomain hout, completeError_eq]

/-! ### GREY (R130) -/

/-- The grey of a valid code: its level is at most 6, the three samples being at most 252. -/
theorem greyCode_of_valid {c : Int} (h : validCode c = true) :
    ∃ k : Nat, k ≤ 6 ∧ greyCode c = paletteEncode k k k ∧
      k = 84 * ((c.toNat - 1) / 64 + (c.toNat - 1) / 8 % 8 + (c.toNat - 1) % 8) / 255 := by
  obtain ⟨hr, hg, hb⟩ := codeIndices_le h
  rw [codeIndices_eq] at hr hg hb
  refine ⟨_, ?_, ?_, rfl⟩
  · dsimp only at hr hg hb
    omega
  · simp only [greyCode, paletteDecode_of_valid h, codeIndices_eq, lut]
    generalize (c.toNat - 1) / 64 = r at *
    generalize (c.toNat - 1) / 8 % 8 = g at *
    generalize (c.toNat - 1) % 8 = b at *
    dsimp only at hr hg hb
    have hlevel : clamp7 (((r * 36 + g * 36 + b * 36) / 3 * 7 / 255 : Nat) : Int) =
        ((84 * (r + g + b) / 255 : Nat) : Int) := by
      rw [clamp7]
      omega
    rw [hlevel]

/-- The grey of a number that is no code is black. -/
theorem greyCode_of_invalid {c : Int} (h : validCode c = false) : greyCode c = paletteEncode 0 0 0 := by
  simp only [greyCode, paletteDecode, h, Bool.false_eq_true, if_false]
  rfl

/-- The CMD word of GREY completes in every state with the grey code of its operand (R131). -/
theorem exec_grey (c : Int) (s : State) : exec (.grey c) s = .next (complete (setResult (ofS32 (greyCode c)) s)) := rfl

/-- Settles O5: the grey code of a valid and of an invalid code, as a register value. -/
theorem greyGivesLevelOfChannelSum : Obligations.GreyGivesLevelOfChannelSum := by
  unfold Obligations.GreyGivesLevelOfChannelSum
  refine ⟨fun a0 a1 a2 => decodeCommand_grey rfl, fun c s h1 h2 => ?level, fun c s hc => ?black⟩
  case level =>
    obtain ⟨k, -, hk, hlevel⟩ := greyCode_of_valid ((validCode_iff c).2 ⟨h1, h2⟩)
    have hcode : 64 * k + 8 * k + k + 1 = 73 * k + 1 := by omega
    rw [exec_grey, hk, ofS32_paletteEncode (by omega) (by omega) (by omega), Int.toNat_natCast, hcode, hlevel]
    rfl
  case black =>
    rw [exec_grey, greyCode_of_invalid (Bool.eq_false_iff.2 fun hv => hc ((validCode_iff c).1 hv))]
    rfl

/-! ### The laws of the codec (R132) -/

/-- The code of three channel indices is a code. -/
theorem paletteEncode_bounds {r g b : Nat} (hr : r ≤ 7) (hg : g ≤ 7) (hb : b ≤ 7) :
    1 ≤ paletteEncode r g b ∧ paletteEncode r g b ≤ 512 := by
  simp only [paletteEncode]
  omega

/-- The channel indices of their code are those encoded (R121, R122). -/
theorem codeIndices_paletteEncode {r g b : Nat} (hr : r ≤ 7) (hg : g ≤ 7) (hb : b ≤ 7) :
    codeIndices (paletteEncode r g b) = (r, g, b) := by
  have hk : (paletteEncode r g b).toNat - 1 = 64 * r + 8 * g + b := by
    simp only [paletteEncode]
    omega
  rw [codeIndices_eq, hk]
  simp only [Prod.mk.injEq]
  omega

/-- A valid code is the code of its channel indices (R122). -/
theorem paletteEncode_codeIndices {c : Int} (h : validCode c = true) :
    paletteEncode (codeIndices c).1 (codeIndices c).2.1 (codeIndices c).2.2 = c := by
  rw [validCode_iff] at h
  simp only [codeIndices_eq, paletteEncode]
  omega

/-- Valid codes with one decoded word have the same channel indices. -/
theorem codeIndices_of_decodeWord_eq {c d : Int} (hc : validCode c = true) (hd : validCode d = true)
    (h : decodeWord c = decodeWord d) : codeIndices c = codeIndices d := by
  have hword := congrArg BitVec.toNat h
  rw [decodeWord_of_valid hc, decodeWord_of_valid hd] at hword
  have hcl := codeIndices_le hc
  have hdl := codeIndices_le hd
  simp only [Prod.ext_iff]
  omega

/-- Settles O6: encoding and the channel indices are inverse on codes, and the decoded word shows the indices. -/
theorem codecLaws : Obligations.CodecLaws := by
  unfold Obligations.CodecLaws
  refine ⟨fun r g b hr hg hb => ⟨?decode, paletteEncode_bounds hr hg hb⟩,
    fun r g b r' g' b' hr hg hb hr' hg' hb' he => ?injective, fun c h1 h2 => ?onto, fun c => ?grey,
    fun c d hc1 hc2 hd1 hd2 he => ?words, fun c hc => ?noCode⟩
  case decode =>
    rw [paletteDecode_of_valid ((validCode_iff _).2 (paletteEncode_bounds hr hg hb)),
      codeIndices_paletteEncode hr hg hb]
    simp only [lut, Nat.mul_comm]
  case injective =>
    have hindices := congrArg codeIndices he
    rw [codeIndices_paletteEncode hr hg hb, codeIndices_paletteEncode hr' hg' hb'] at hindices
    simpa only [Prod.mk.injEq] using hindices
  case onto =>
    have hv := (validCode_iff c).2 ⟨h1, h2⟩
    obtain ⟨hr, hg, hb⟩ := codeIndices_le hv
    exact ⟨_, _, _, hr, hg, hb, paletteEncode_codeIndices hv⟩
  case grey =>
    cases hv : validCode c with
    | true =>
      obtain ⟨k, hk, he, -⟩ := greyCode_of_valid hv
      exact ⟨k, hk, he⟩
    | false => exact ⟨0, Nat.zero_le 6, greyCode_of_invalid hv⟩
  case words =>
    have hc := (validCode_iff c).2 ⟨hc1, hc2⟩
    have hd := (validCode_iff d).2 ⟨hd1, hd2⟩
    rw [← paletteEncode_codeIndices hc, ← paletteEncode_codeIndices hd, codeIndices_of_decodeWord_eq hc hd he]
  case noCode =>
    rw [decodeWord_of_invalid (Bool.eq_false_iff.2 fun hv => hc ((validCode_iff c).1 hv))]
    decide

end Sys2Proof.Machine
end

section
/-! PROOF. What a command neither reads nor writes, and what follows for every command at once: it completes with success
or one error, whatever the ROM decoder's registers, ERR and ERRCODE hold, and no step stops. -/

namespace Sys2Proof.Machine

/-! ### The part of the state that commands work on -/

/-- The part of s that commands work on, within the rest of o. -/
def State.within (s o : State) : State :=
  { o with
    params := s.params, fbW := s.fbW, fbH := s.fbH, result := s.result, texW := s.texW, texH := s.texH
    frontSel := s.frontSel, cfg := s.cfg, mem := s.mem, epoch := s.epoch }

theorem plot_within (x y c : Int) (s o : State) : plot x y c (s.within o) = (plot x y c s).within o := by
  have h := apply_ite (State.within · o) (s.inBuffer x y && !skipCode c)
    (s.writePixel s.back (s.pixelAddr x y) (decodeWord c)) s
  exact h.symm

theorem drawTexture_within (xoff yoff : Int) (s o : State) :
    drawTexture xoff yoff (s.within o) = (drawTexture xoff yoff s).within o := by
  unfold drawTexture
  refine forUpto_map _ (State.within · o) (fun ty u => ?_) _ s
  refine forUpto_map _ (State.within · o) (fun tx v => ?_) _ u
  exact plot_within _ _ _ v o

theorem loadTexture_within (r : Rom) (d : RomHit) (s o : State) :
    loadTexture r d (s.within o) = (loadTexture r d s).within o := by
  have hloop := forUpto_map (fun k t => t.writeTexel k (BitVec.ofNat 16 (r.read (d.o + 16 + 2 * k) 2)))
    (State.within · o) (fun _ _ => rfl) d.p s
  simp only [loadTexture, hloop]
  rfl

/-- Two completions alike: x of an effect on the part of s that commands work on, and x' of the same effect within the
rest of o; or both of one error. -/
def CompleteAlike (s o : State) (x x' : Host.Outcome State Fault Refusal) : Prop :=
  (∃ t, t = t.within s ∧ x = .next (complete t) ∧ x' = .next (complete (t.within o))) ∨
    ∃ e, e ≠ ErrCode.none ∧ x = .next (completeError e s) ∧ x' = .next (completeError e (s.within o))

section
variable {s o : State}

theorem completeAlike_of_effect {t t' : State} (ht : t = t.within s) (ht' : t' = t.within o) :
    CompleteAlike s o (.next (complete t)) (.next (complete t')) :=
  .inl ⟨t, ht, rfl, by rw [ht']⟩

theorem completeAlike_of_error {e : ErrCode} (he : e ≠ .none) :
    CompleteAlike s o (.next (completeError e s)) (.next (completeError e (s.within o))) :=
  .inr ⟨e, he, rfl, rfl⟩

theorem completeAlike_ite {p : Prop} [Decidable p] {x x' y y' : Host.Outcome State Fault Refusal}
    (hx : CompleteAlike s o x x') (hy : CompleteAlike s o y y') :
    CompleteAlike s o (if p then x else y) (if p then x' else y') := by
  split
  · exact hx
  · exact hy

end

/-- A command completes alike within any rest of the state, but for the ROM that a ROMLOAD reads. -/
theorem exec_within (i : Instr) (s o : State) (hrom : (s.within o).romForLoad = s.romForLoad) :
    CompleteAlike s o (exec i s) (exec i (s.within o)) := by
  have herror {e : ErrCode} (he : e ≠ .none) := completeAlike_of_error (s := s) (o := o) he
  have hresult (v : Word) : CompleteAlike s o _ (.next (complete (setResult v (s.within o)))) :=
    completeAlike_of_effect (t := setResult v s) rfl rfl
  cases i with
  | nop => exact completeAlike_of_effect rfl rfl
  | config w h =>
    exact completeAlike_ite (herror (by decide))
      (completeAlike_ite (completeAlike_of_effect rfl rfl) (herror (by decide)))
  | pixel x y c =>
    exact completeAlike_ite (completeAlike_of_effect (by rw [plot_eq]; rfl) (plot_within x y c s o))
      (herror (by decide))
  | rect x y =>
    exact completeAlike_ite
      (completeAlike_ite (herror (by decide))
        (completeAlike_of_effect (by rw [drawTexture_eq]; rfl) (drawTexture_within x y s o)))
      (herror (by decide))
  | swap => exact completeAlike_ite (completeAlike_of_effect rfl rfl) (herror (by decide))
  | rgb r g b => exact completeAlike_ite (hresult _) (herror (by decide))
  | decode c => exact hresult _
  | hsv h sat v => exact completeAlike_ite (hresult _) (herror (by decide))
  | grey c => exact hresult _
  | romload n0 n1 n2 n3 =>
    have hparams : (s.within o).params = s.params := rfl
    simp only [exec, execRomload, hrom, hparams]
    cases hr : romload s.romForLoad s.params.texCap (nameWord n0 n1 n2 n3) with
    | ok d => exact completeAlike_of_effect (by rw [loadTexture_eq]; rfl) (loadTexture_within _ d s o)
    | error e => exact herror (romload_error hr)

/-- A completed effect within the state that it came from. -/
theorem complete_within_self {s t : State} (ht : t = t.within s) : complete t = complete (t.within s) :=
  congrArg complete ht

/-! ### The ROM decoder's registers are invisible (R153) -/

/-- No command's completion depends on the ROM decoder's registers: it puts them to rest. -/
theorem exec_fsm_irrelevant (i : Instr) (s : State) (f : RomFsm) : exec i { s with fsm := f } = exec i s := by
  obtain ⟨t, ht, h, h'⟩ | ⟨e, -, h, h'⟩ := exec_within i s { s with fsm := f } rfl
  · exact h'.trans (by rw [h, complete_within_self ht]; rfl)
  · exact h'.trans (by rw [h, completeError_eq, completeError_eq]; rfl)

theorem readReg_fsm_irrelevant (r : Reg) (s : State) (f : RomFsm) :
    readReg r { s with fsm := f } = ((readReg r s).1, { (readReg r s).2 with fsm := f }) := by
  have hbusy : State.busy { s with fsm := f } = s.busy := rfl
  cases r
  case texData =>
    simp only [readReg, readTexData, hbusy]
    cases s.busy
    · rfl
    · rfl
  all_goals rfl

theorem writeReg_fsm_irrelevant (r : Reg) (v : Word) (s : State) (f : RomFsm) :
    writeReg r v { s with fsm := f } = { writeReg r v s with fsm := f } := by
  have hbusy : State.busy { s with fsm := f } = s.busy := rfl
  cases r
  case cmd | texW | texH | texAddr =>
    simp only [writeReg, hbusy]
    cases s.busy
    · rfl
    · rfl
  case texData =>
    cases hb : s.busy with
    | false => rw [writeReg, writeReg, writeTexData_idle v hb, writeTexData_idle v (hbusy.trans hb)]
    | true =>
      simp only [writeReg, writeTexData, hbusy, hb]
      rfl
  all_goals rfl

/-- Settles O18: a completion puts the registers to rest, and the port is written register by register. -/
theorem romDecoderIsInvisible : Obligations.RomDecoderIsInvisible := by
  unfold Obligations.RomDecoderIsInvisible
  refine ⟨exec_fsm_irrelevant, fun slot s f => ?read, fun slot v s f => ?write⟩
  case read =>
    unfold readSlot
    cases slotReg slot with
    | none => rfl
    | some r => exact readReg_fsm_irrelevant r s f
  case write =>
    unfold writeSlot
    cases slotReg slot with
    | none => rfl
    | some r => exact writeReg_fsm_irrelevant r v s f

/-! ### Completion (R210, R213, R219) -/

/-- Settles O20: a completion is of an error or of an effect, and ERR and ERRCODE are no part of what commands work
on. -/
theorem everyCommandCompletesAndErrorsAreAllOrNothing :
    Obligations.EveryCommandCompletesAndErrorsAreAllOrNothing := by
  unfold Obligations.EveryCommandCompletesAndErrorsAreAllOrNothing
  refine ⟨fun i s => ?completes, fun i s herr => ?errorSet⟩
  case completes =>
    obtain ⟨e, he, h⟩ | ⟨t, h, ht⟩ := exec_completes i s
    · rw [completeError_eq] at h
      exact ⟨_, h, rfl, rfl, .inr ⟨e, he, rfl⟩⟩
    · exact ⟨_, h, rfl, rfl, .inl ⟨by rw [ht]; rfl, by rw [ht]; rfl⟩⟩
  case errorSet =>
    obtain ⟨t, ht, h, h'⟩ | ⟨e, -, h, h'⟩ := exec_within i s { s with err := false, errCode := .none } rfl
    · refine ⟨_, h', ?_⟩
      rw [h, complete_within_self ht, complete_eq, complete_eq, ← herr]
      rfl
    · refine ⟨_, h', ?_⟩
      rw [h, completeError_eq, completeError_eq, if_pos herr]
      rfl

/-- Every command has a next state. -/
theorem exec_next (i : Instr) (s : State) : ∃ t, exec i s = .next t := by
  obtain ⟨e, -, h⟩ | ⟨t, h, -⟩ := exec_completes i s <;> exact ⟨_, h⟩

/-- The engine's turn has a next state, in which no command is held (R23). -/
theorem engineTurn_next (s : State) : ∃ t, engineTurn s = .next t ∧ t.lc = none := by
  obtain ⟨hl, e⟩ | ⟨c, i, -, -, e⟩ | ⟨c, e', -, -, e⟩ := engineTurn_cases s
  · exact ⟨s, e, hl⟩
  · obtain ⟨t, ht⟩ := exec_next i s
    exact ⟨t, e.trans ht, by rw [exec_frame ht]⟩
  · exact ⟨_, e, rfl⟩

/-- Settles O22, agent by agent. -/
theorem noStepStops : Obligations.NoStepStops := by
  unfold Obligations.NoStepStops
  intro s
  unfold step
  cases (nextTurn s).1 with
  | engine =>
    obtain ⟨t, ht, -⟩ := engineTurn_next (nextTurn s).2
    exact ⟨t, ht⟩
  | host | decoder | display _ | rom _ | reset => exact ⟨_, rfl⟩

/-! ### Progress (R253; log 1) -/

/-- No agent's turn changes the schedule. -/
theorem takeTurn_schedule {u : Turn} {s t : State} (h : takeTurn u s = .next t) : t.schedule = s.schedule := by
  cases u with
  | engine => rw [engineTurn_frame h]
  | host => cases h; rw [hostTurn_frame]
  | decoder => cases h; rw [decoderTurn_frame]
  | rom r => cases h; rw [romTurn_frame]
  | display _ | reset => cases h; rfl

/-- A command is held for no more than the scheduled steps and one. -/
theorem completed_within_schedule (sched : List Turn) (s : State) (hs : s.schedule = sched) (hb : s.busy = true) :
    ∃ (n : Nat) (t : State), n ≤ sched.length + 1 ∧ core.run n s = .next t ∧ t.busy = false := by
  induction sched generalizing s with
  | nil =>
    obtain ⟨c, hl⟩ := Option.isSome_iff_exists.1 hb
    obtain ⟨t, ht, hnone⟩ := engineTurn_next s
    exact ⟨1, t, Nat.le_refl 1, run_succ ((step_engine hs hl).trans ht) 0, by rw [State.busy, hnone]; rfl⟩
  | cons u rest ih =>
    obtain ⟨t, ht⟩ := noStepStops s
    have hrest : t.schedule = rest := takeTurn_schedule ((step_of_schedule hs).symm.trans ht)
    cases htb : t.busy with
    | false => exact ⟨1, t, by simp, run_succ ht 0, htb⟩
    | true =>
      obtain ⟨n, v, hn, hrun, hv⟩ := ih t hrest htb
      exact ⟨n + 1, v, Nat.succ_le_succ hn, (run_succ ht n).trans hrun, hv⟩

/-- Settles O23: by the schedule, at whose end the engine's turn is the default. -/
theorem acceptedCommandIsCompleted : Obligations.AcceptedCommandIsCompleted :=
  fun s hb => completed_within_schedule s.schedule s rfl hb

end Sys2Proof.Machine
end

section
/-! PROOF. ROMLOAD over a record that it finds, the state machine of R153 against the algorithm of R154, and a ROM that
changes under a ROMLOAD. -/

namespace Sys2Proof.Machine

/-! ### The texture that is found (R162) -/

/-- A ROMLOAD over a ROM that the host has left alone completes with the texture that the algorithm of R154 finds. -/
theorem exec_romload_of_ok {n0 n1 n2 n3 : Byte} {s : State} {c : RomHit} (hs : s.romSeen = [])
    (h : romload s.rom s.params.texCap (nameWord n0 n1 n2 n3) = .ok c) :
    exec (.romload n0 n1 n2 n3) s = .next (complete (loadTexture s.rom c s)) := by
  have hrom : s.romForLoad = s.rom := if_pos hs
  show execRomload n0 n1 n2 n3 s = _
  rw [execRomload, hrom, h]

/-- What such a completion changes: the texture entries, TEX_W, TEX_H and RESULT. -/
theorem complete_loadTexture_eq (r : Rom) (c : RomHit) (s : State) :
    complete (loadTexture r c s) = { s with
      texW := BitVec.ofNat 32 c.w, texH := BitVec.ofNat 32 c.h, result := BitVec.ofNat 32 c.p
      mem := { s.mem with tex := (complete (loadTexture r c s)).mem.tex }
      lc := none, fsm := .idle, romSeen := [], done := true } := by
  rw [complete_eq, loadTexture_eq]
  rfl

/-- Two bytes of the ROM as a number (R65). -/
theorem Rom.read_two (r : Rom) (a : Nat) : r.read a 2 = (r.byte a).toNat + 256 * (r.byte (a + 1)).toNat := rfl

/-- Settles O11: the load's frame, and its entries as the two bytes that they are read from. -/
theorem romloadWritesTheTextureItFound : Obligations.RomloadWritesTheTextureItFound := by
  unfold Obligations.RomloadWritesTheTextureItFound
  refine ⟨fun a0 a1 a2 => decodeCommand_romload rfl, fun n0 n1 n2 n3 c s hs hfound =>
    ⟨_, exec_romload_of_ok hs hfound, complete_loadTexture_eq s.rom c s, fun k => ?entry⟩⟩
  case entry =>
    have hoffset : c.o + 16 + 2 * k + 1 = c.o + 17 + 2 * k := by omega
    have hentry := readTexel_loadTexture s.rom c s k
    rw [Rom.read_two, hoffset] at hentry
    exact hentry

/-! ### The round trip (R165 a) -/

/-- A record that passes the four checks is answered as it is (R154). -/
theorem checkRecord_of_fits {r : Rom} {texCap : Nat} {c : RomHit} (hsize : c.p = c.w * c.h) (hmax : c.p ≤ 1000000)
    (hcap : c.p ≤ texCap) (hlen : c.o + 16 + 2 * c.p ≤ r.len) : checkRecord r texCap c = .ok c := by
  have hpmax : ¬ c.p > romPixelMax := Nat.not_lt.2 hmax
  have hpixels : r.has (c.o + 16) (2 * c.p) = true := (r.has_iff _ _).2 hlen
  rw [checkRecord, if_neg (not_not.2 hsize), if_neg hpmax, if_neg (Nat.not_lt.2 hcap), if_pos hpixels]

/-- The bytes of a row of codes. -/
theorem length_flatMap_le16 (codes : List Texel) : (codes.flatMap fun v => le16 v.toNat).length = 2 * codes.length := by
  induction codes with
  | nil => rfl
  | cons c cs ih =>
    rw [List.flatMap_cons, List.length_append, ih, List.length_cons, Nat.mul_succ]
    exact Nat.add_comm 2 _

/-- The last record's pixels stand right after its header (R151). -/
theorem read_romImage_pixels (count : Nat) (before : List RomRecord) (hit : RomRecord) (k n : Nat) :
    (romImage count (before ++ [hit])).read (5 + (before.flatMap RomRecord.bytes).length + 16 + k) n =
      Rom.read ⟨hit.pixels, true⟩ k n := by
  set head : List Byte := romMagic ++ [BitVec.ofNat 8 count] ++ before.flatMap RomRecord.bytes ++
    (le32 hit.p ++ [hit.n0, hit.n1, hit.n2, hit.n3] ++ le32 hit.w ++ le32 hit.h) with hhead
  have himage : romImage count (before ++ [hit]) = ⟨head ++ hit.pixels, true⟩ := by
    simp [romImage, hhead, romMagic, RomRecord.bytes]
  have hlen : head.length = 5 + (before.flatMap RomRecord.bytes).length + 16 := by
    simp only [hhead, List.length_append, romMagic, le32, List.length_cons, List.length_nil]
  rw [himage, ← hlen, Rom.read_append]

/-- Settles O15: the scan comes to the record, its checks pass, and its pixels are the codes. -/
theorem romRoundTrip : Obligations.RomRoundTrip := by
  unfold Obligations.RomRoundTrip
  intro before hit codes tail count s hb hl hc hw hh hp hcodes hpx hmax hcap hrom hs
  have hlen := len_romImage_concat count before hit
  have hpxlen : 2 * hit.p ≤ hit.pixels.length := by
    rw [hpx, List.length_append, length_flatMap_le16, hcodes]
    exact Nat.le_add_right _ _
  set c : RomHit := ⟨5 + (before.flatMap RomRecord.bytes).length, hit.p, hit.w, hit.h⟩ with hcdef
  have hfound : romload s.rom s.params.texCap (nameWord hit.n0 hit.n1 hit.n2 hit.n3) = .ok c := by
    rw [hrom, romload_hit before hit count _ hb ⟨by omega, hw, hh⟩ hl hc]
    exact checkRecord_of_fits hp hmax hcap (by rw [hlen]; exact Nat.add_le_add_left hpxlen _)
  have hentry (k : Nat) := readTexel_loadTexture s.rom c s k
  refine ⟨_, exec_romload_of_ok hs hfound, complete_loadTexture_eq s.rom c s, fun k hk => ?loaded, fun k hk => ?kept⟩
  case loaded =>
    have hread : s.rom.read (c.o + 16 + 2 * k) 2 = codes[k].toNat := by
      rw [hrom, hcdef, read_romImage_pixels, hpx, Rom.read_codes codes tail k hk]
    have hkp : k < c.p := hk.trans_eq hcodes
    exact (hentry k).trans (by rw [if_pos hkp, hread, BitVec.ofNat_toNat, BitVec.setWidth_eq])
  case kept =>
    have hkp : ¬ k < c.p := Nat.not_lt.2 (hcodes.symm.trans_le hk)
    exact (hentry k).trans (if_neg hkp)

/-! ### The state machine (R153) against the algorithm (R154) -/

/-- The rest of the algorithm of R154 from where the state machine stands: what it answers from there on. -/
def RomFsm.rest (r : Rom) (texCap : Nat) (name : Word) (f : RomFsm) : Except ErrCode RomHit :=
  match f.phase with
  | .idle => romload r texCap name
  | .opening => romload r texCap name
  | .magic =>
    if !r.has 0 4 then .error .romIoError
    else if r.head4 ≠ romMagic then .error .romBadMagic
    else if !r.has 4 1 then .error .romIoError
    else scanRecords r texCap name (r.byte 4).toNat 5
  | .count =>
    if !r.has 4 1 then .error .romIoError
    else scanRecords r texCap name (r.byte 4).toNat 5
  | .hdr => scanRecords r texCap name (f.n - f.i) f.o
  | .matching =>
    if f.name = name then checkRecord r texCap ⟨f.o, f.p, f.w, f.h⟩
    else scanRecords r texCap name (f.n - f.i - 1) (f.o + 16 + 2 * f.p)
  | .skip => scanRecords r texCap name (f.n - f.i - 1) (f.o + 16 + 2 * f.p)
  | .check => checkRecord r texCap ⟨f.o, f.p, f.w, f.h⟩
  | .copy => .ok ⟨f.o, f.p, f.w, f.h⟩
  | .ok => .ok ⟨f.o, f.p, f.w, f.h⟩
  | .fail e => .error e

/-- The machine has answered. -/
def RomPhase.answered : RomPhase → Bool
  | .ok => true
  | .fail _ => true
  | .idle => false
  | .opening => false
  | .magic => false
  | .count => false
  | .hdr => false
  | .matching => false
  | .skip => false
  | .check => false
  | .copy => false

/-- A bound on the moves to the answer: at most 255 records of three moves each, then a copy of fewer than 2^32
entries. -/
def RomFsm.movesLeft (f : RomFsm) : Nat :=
  match f.phase with
  | .idle => 2 ^ 32 + 1003
  | .opening => 2 ^ 32 + 1002
  | .magic => 2 ^ 32 + 1001
  | .count => 2 ^ 32 + 1000
  | .hdr => 2 ^ 32 + 3 * (f.n - f.i) + 3
  | .matching => 2 ^ 32 + 3 * (f.n - f.i) + 2
  | .skip => 2 ^ 32 + 3 * (f.n - f.i) + 1
  | .check => f.p + 2
  | .copy => f.p - f.k + 1
  | .ok => 0
  | .fail _ => 0

section
variable {r : Rom} {texCap : Nat} {name : Word}

/-- A move carries out the next part of the algorithm, and the rest of it is left. -/
theorem RomFsm.rest_tick {f : RomFsm} (hf : f.Fits) :
    (f.tick r texCap name).rest r texCap name = f.rest r texCap name := by
  obtain ⟨-, -, hrecord, -⟩ := hf
  cases hph : f.phase <;> simp only [hph, RomPhase.inRecord] at hrecord <;> simp only [RomFsm.tick, hph]
  case idle => simp only [RomFsm.rest, hph]
  case opening =>
    cases hp : r.present <;> simp [RomFsm.rest, hph, romload, hp]
  case magic =>
    split
    · rename_i h4
      simp [RomFsm.rest, hph, h4]
    split
    · rename_i h4 hm
      simp [RomFsm.rest, hph, h4, hm]
    · rename_i h4 hm
      simp [RomFsm.rest, hph, h4, hm]
  case count =>
    split
    · rename_i h5
      simp [RomFsm.rest, hph, h5]
    · rename_i h5
      rw [RomFsm.rest, RomFsm.rest, hph]
      by_cases hn : 0 < (r.byte 4).toNat
      · simp [hn, h5]
      · simp [h5, Nat.eq_zero_of_not_pos hn, scanRecords]
  case hdr =>
    obtain ⟨left, hleft⟩ : ∃ left, f.n - f.i = left + 1 := ⟨f.n - f.i - 1, by have := hrecord trivial; omega⟩
    split
    · rename_i h16
      simp [RomFsm.rest, hph, hleft, scanRecords, h16]
    · rename_i h16
      simp [RomFsm.rest, hph, hleft, scanRecords, h16]
  case matching =>
    by_cases hname : f.name = name <;> simp [RomFsm.rest, hph, hname]
  case skip =>
    have hi := hrecord trivial
    by_cases hlast : f.i + 1 < f.n
    · simp [RomFsm.rest, hph, hlast, Nat.sub_sub]
    · have hleft : f.n - f.i - 1 = 0 := by omega
      simp [RomFsm.rest, hph, hlast, hleft, scanRecords]
  case check =>
    split
    · rename_i c hc
      obtain ⟨rfl, -⟩ := checkRecord_ok hc
      simp [RomFsm.rest, hph, hc]
    · rename_i e hc
      simp [RomFsm.rest, hph, hc]
  case copy =>
    split <;> simp [RomFsm.rest, hph]

/-- A move brings the answer nearer. -/
theorem RomFsm.movesLeft_tick {f : RomFsm} (hf : f.Fits) (hopen : f.phase.answered = false) :
    (f.tick r texCap name).movesLeft < f.movesLeft := by
  obtain ⟨hn, hi, hrecord, -, hp, -, -, hk, -⟩ := hf
  cases hph : f.phase <;> simp only [hph, RomPhase.inRecord] at hrecord <;> simp only [RomFsm.tick, hph]
  case idle => simp [RomFsm.movesLeft, hph]
  case opening => split <;> simp [RomFsm.movesLeft, hph]
  case magic => (repeat' split) <;> simp [RomFsm.movesLeft, hph]
  case count =>
    have hb : (r.byte 4).toNat < 256 := (r.byte 4).isLt
    split
    · simp [RomFsm.movesLeft, hph]
    · by_cases hn : 0 < (r.byte 4).toNat <;> simp [RomFsm.movesLeft, hph, hn]
      omega
  case hdr => split <;> simp [RomFsm.movesLeft, hph]
  case matching =>
    by_cases hname : f.name = name <;> simp [RomFsm.movesLeft, hph, hname]
    omega
  case skip =>
    have hi := hrecord trivial
    by_cases hlast : f.i + 1 < f.n <;> simp [RomFsm.movesLeft, hph, hlast]
    omega
  case check => split <;> simp [RomFsm.movesLeft, hph]
  case copy =>
    split
    · simp only [RomFsm.movesLeft, hph]
      omega
    · simp [RomFsm.movesLeft, hph]
  case ok | fail e => simp [hph, RomPhase.answered] at hopen

/-- A move first, and then the others. -/
theorem RomFsm.ticks_tick (n : Nat) (f : RomFsm) :
    RomFsm.ticks r texCap name n (f.tick r texCap name) = RomFsm.ticks r texCap name (n + 1) f := by
  induction n with
  | zero => rfl
  | succ n ih => rw [RomFsm.ticks, ih, ← RomFsm.ticks]

/-- Moves keep the registers within their widths, and leave the rest of the algorithm. -/
theorem RomFsm.ticks_rest {f : RomFsm} (hf : f.Fits) (n : Nat) :
    (RomFsm.ticks r texCap name n f).Fits ∧
      (RomFsm.ticks r texCap name n f).rest r texCap name = f.rest r texCap name := by
  induction n with
  | zero => exact ⟨hf, rfl⟩
  | succ n ih =>
    obtain ⟨hfits, hrest⟩ := ih
    exact ⟨RomFsm.tick_fits hfits r texCap name, (RomFsm.rest_tick hfits).trans hrest⟩

/-- The machine answers within its bound. -/
theorem RomFsm.answers (m : Nat) {f : RomFsm} (hf : f.Fits) (hm : f.movesLeft ≤ m) :
    ∃ n, (RomFsm.ticks r texCap name n f).phase.answered = true := by
  induction m generalizing f with
  | zero =>
    refine ⟨0, ?_⟩
    by_contra hopen
    exact absurd (RomFsm.movesLeft_tick (r := r) (texCap := texCap) (name := name) hf
      (Bool.eq_false_iff.2 hopen)) (by omega)
  | succ m ih =>
    by_cases hopen : f.phase.answered = true
    · exact ⟨0, hopen⟩
    · have hless := RomFsm.movesLeft_tick (r := r) (texCap := texCap) (name := name) hf
        (Bool.eq_false_iff.2 hopen)
      obtain ⟨n, hn⟩ := ih (RomFsm.tick_fits hf r texCap name) (by omega)
      exact ⟨n + 1, by rw [← RomFsm.ticks_tick]; exact hn⟩

end

theorem RomPhase.answered_iff (p : RomPhase) : p.answered = true ↔ p = .ok ∨ ∃ e, p = .fail e := by
  cases p <;> simp [RomPhase.answered]

/-- Settles O16: the rest of the algorithm is the same after every move, and an answer is the rest of it. -/
theorem romDecoderRefinesTheAlgorithm : Obligations.RomDecoderRefinesTheAlgorithm := by
  unfold Obligations.RomDecoderRefinesTheAlgorithm
  intro r texCap name
  have hrest (n : Nat) : (RomFsm.ticks r texCap name n .idle).rest r texCap name = romload r texCap name :=
    (RomFsm.ticks_rest RomFsm.idle_fits n).2
  refine ⟨fun n hok => ?found, fun n e hfail => ?failed, ?answers⟩
  case found => rw [← hrest n, RomFsm.rest, hok]
  case failed => rw [← hrest n, RomFsm.rest, hfail]
  case answers =>
    obtain ⟨n, hn⟩ := RomFsm.answers (r := r) (texCap := texCap) (name := name) _ RomFsm.idle_fits le_rfl
    exact ⟨n, (RomPhase.answered_iff _).1 hn⟩

/-! ### A ROM that changes under a ROMLOAD (R79, R250; log 9) -/

/-- A pick is one of the versions. -/
theorem pickRom_mem {versions : List Rom} (h : versions ≠ []) (pick : Nat) (dflt : Rom) :
    pickRom versions pick dflt ∈ versions := by
  have hlt : pick % versions.length < versions.length := Nat.mod_lt _ (List.length_pos_iff.2 h)
  rw [pickRom, List.getD_eq_getElem _ _ hlt]
  exact List.getElem_mem hlt

/-- The byte of a ROM at an address that it has. -/
theorem Rom.getElem?_of_lt {r : Rom} {a : Nat} (h : a < r.len) : r.bytes[a]? = some (r.byte a) := by
  have hlt : a < r.bytes.length := h
  rw [Rom.byte, List.getD_eq_getElem _ _ hlt, List.getElem?_eq_getElem hlt]

section
variable {pick : Nat → Nat} {versions : List Rom} {now : Rom}

theorem mixRom_len : (mixRom pick versions now).bytes.length = (pickRom versions (pick 0) now).len := by
  simp [mixRom]

/-- Each byte of a mix is that of some version long enough to have it. -/
theorem mixRom_byte {a : Nat} (h : versions ≠ []) (ha : a < (mixRom pick versions now).bytes.length) :
    ∃ v ∈ versions, a < v.bytes.length ∧ (mixRom pick versions now).bytes[a]? = v.bytes[a]? := by
  rw [mixRom_len] at ha
  have hlong : versions.filter (fun r => decide (a < r.len)) ≠ [] :=
    List.ne_nil_of_mem (List.mem_filter.2 ⟨pickRom_mem h (pick 0) now, decide_eq_true ha⟩)
  obtain ⟨hmem, hlen⟩ := List.mem_filter.1 (pickRom_mem hlong (pick (a + 2)) now)
  refine ⟨_, hmem, of_decide_eq_true hlen, ?_⟩
  rw [Rom.getElem?_of_lt (of_decide_eq_true hlen)]
  simp [mixRom, ha]

end

/-- The ROM that a completing ROMLOAD reads is the one that stands, or a mix of those since the accept. -/
theorem romForLoad_cases (s : State) :
    (s.romForLoad = s.rom) ∨ s.romForLoad = mixRom (Config.romPick s.draws) (s.romSeen ++ [s.rom]) s.rom := by
  unfold State.romForLoad
  split
  · exact .inl rfl
  · exact .inr rfl

/-- Settles O19: the turn by the held command, a ROMLOAD's outcome over the ROM that it reads, and that ROM as a mix. -/
theorem changedRomIsReadAsAMix : Obligations.ChangedRomIsReadAsAMix := by
  unfold Obligations.ChangedRomIsReadAsAMix
  refine ⟨fun s r rest hs hno => ?replaced, fun s r rest c hs hl hop => ?recorded, fun n0 n1 n2 n3 s => ?loaded,
    fun s => ?mixed⟩
  case replaced =>
    have hpending : s.romloadPending = false := by
      unfold State.romloadPending
      split
      · rename_i c hl
        exact decide_eq_false (hno c hl)
      · rfl
    have hturn : romTurn r { s with schedule := rest } = _ := if_neg (Bool.eq_false_iff.1 hpending)
    rw [step_of_schedule hs, takeTurn, hturn]
  case recorded =>
    have hpending : s.romloadPending = true := by simp only [State.romloadPending, hl, hop, decide_true]
    have hturn : romTurn r { s with schedule := rest } = _ := if_pos hpending
    rw [step_of_schedule hs, takeTurn, hturn]
    exact ⟨_, rfl, rfl, rfl, rfl⟩
  case loaded =>
    obtain ⟨t, ht, h, h'⟩ | ⟨e, -, h, h'⟩ :=
      exec_within (.romload n0 n1 n2 n3) s { s with rom := s.romForLoad, romSeen := [] } (if_pos rfl)
    · have hself := complete_within_self ht
      exact ⟨_, h, h'.trans (by rw [hself]; rfl), by rw [hself]; rfl, rfl⟩
    · exact ⟨_, h, h'.trans (by rw [completeError_eq, completeError_eq]; rfl), by rw [completeError_eq], rfl⟩
  case mixed =>
    have hne : s.romSeen ++ [s.rom] ≠ [] := by simp
    have hnow : s.rom ∈ s.romSeen ++ [s.rom] := by simp
    obtain h | h := romForLoad_cases s <;> rw [h]
    · exact ⟨⟨_, hnow, rfl⟩, ⟨_, hnow, rfl⟩, fun a ha => ⟨_, hnow, ha, rfl⟩⟩
    · exact ⟨⟨_, pickRom_mem hne _ _, mixRom_len⟩, ⟨_, pickRom_mem hne _ _, rfl⟩, fun a ha => mixRom_byte hne ha⟩

end Sys2Proof.Machine
end

section
/-! PROOF. The register port: STATUS bit by bit, the IRQ level, and what the port ignores. -/

namespace Sys2Proof.Machine

/-! ### STATUS bit by bit (R29), beside `statusWord_busy`, `statusWord_err` and `statusWord_cfg` -/

theorem statusWord_done (s : State) : s.statusWord.getLsbD 1 = s.done := by
  simp only [State.statusWord, BitVec.getLsbD_append]; simp

theorem statusWord_ovr (s : State) : s.statusWord.getLsbD 3 = s.ovr := by
  simp only [State.statusWord, BitVec.getLsbD_append]; simp

theorem statusWord_front (s : State) : s.statusWord.getLsbD 4 = decide (s.frontSel = .fb1) := by
  simp only [State.statusWord, BitVec.getLsbD_append]
  cases s.frontSel <;> simp [BankId.bit]

/-- Bits 7:6 are RAZ. -/
theorem statusWord_raz {k : Nat} (hk : k = 6 ∨ k = 7) (s : State) : s.statusWord.getLsbD k = false := by
  obtain rfl | rfl := hk <;> simp only [State.statusWord, BitVec.getLsbD_append] <;> simp

/-- A bit past the low part of two bit vectors put together is one of the high part. -/
theorem getLsbD_append_of_le {m n : Nat} {x : BitVec m} {y : BitVec n} {k : Nat} (h : n ≤ k) :
    (x ++ y).getLsbD k = x.getLsbD (k - n) := by
  rw [BitVec.getLsbD_append, if_neg (Nat.not_lt.2 h)]

/-- Bits 15:8 are the error code's number, and above them are zeros. -/
@[simp] theorem statusWord_errCode (k : Nat) (s : State) :
    s.statusWord.getLsbD (8 + k) = s.errCode.byte.getLsbD k := by
  have hsub : 8 + k - (1 + 1 + 1 + 1 + 1 + 1 + 2) = k := Nat.add_sub_cancel_left 8 k
  rw [State.statusWord]
  simp (disch := omega) only [getLsbD_append_of_le, Nat.sub_sub]
  rw [hsub, BitVec.getLsbD_append]
  split
  · rfl
  · rename_i hk
    rw [BitVec.getLsbD_of_ge _ _ (Nat.not_lt.1 hk), BitVec.getLsbD_zero]

/-- Settles O31: each bit by its lemma, and the error code's byte by its table. -/
theorem statusWordShowsTheFlags : Obligations.StatusWordShowsTheFlags := by
  unfold Obligations.StatusWordShowsTheFlags
  intro s
  have hread : readSlot 3 s = (s.statusWord, s) := readSlot_slot .status s
  have hbyte : s.statusWord.extractLsb' 8 8 = s.errCode.byte :=
    BitVec.eq_of_getLsbD_eq fun k hk => by simp [hk]
  rw [hread]
  refine ⟨rfl, statusWord_busy s, statusWord_done s, statusWord_err s, statusWord_ovr s, statusWord_front s,
    statusWord_cfg s, ?_⟩
  rw [hbyte]
  cases s.errCode <;> rfl

/-! ### What the port ignores (R25, R30, R31) -/

theorem slotReg_reserved : ∀ slot : Fin 64, 0x48 ≤ 4 * slot.val → slotReg slot = none := by decide

/-- The registers whose writes are ignored (R24, R25). -/
def readOnlyRegs : List Reg := [.id, .cap0, .cap1, .fbW, .fbH, .result, .fbData]

/-- The seven read-only offsets are those of the registers named (R24). -/
theorem slot_of_readOnly_offset : ∀ slot : Fin 64, 4 * slot.val ∈ [0x00, 0x04, 0x08, 0x14, 0x18, 0x2C, 0x44] →
    ∃ r ∈ readOnlyRegs, slot = r.slot := by
  decide

theorem writeReg_readOnly {r : Reg} (hr : r ∈ readOnlyRegs) (v : Word) (s : State) : writeReg r v s = s := by
  simp only [readOnlyRegs, List.mem_cons, List.not_mem_nil, or_false] at hr
  obtain rfl | rfl | rfl | rfl | rfl | rfl | rfl := hr <;> rfl

/-- IRQ_EN reads back the low three bits of what was written (R31). -/
theorem irqEnWord_write (v : Word) (s : State) :
    State.irqEnWord { s with irqEn := irqEnOf v } = v &&& 0x00000007#32 := by
  apply BitVec.eq_of_toNat_eq
  have hlow : v.toNat &&& 7 = v.toNat % 8 := Nat.and_two_pow_sub_one_eq_mod v.toNat 3
  have hstored : (irqEnOf v).toNat = v.toNat % 8 := rfl
  rw [State.irqEnWord, toNat_append_eq_add, BitVec.toNat_and, BitVec.toNat_ofNat, hstored]
  exact (Nat.zero_add _).trans hlow.symm

/-- A write of STATUS clears the error code with ERR, and no other bit of STATUS but the flags (R30). -/
theorem statusWord_ackStatus (v : Word) (s : State) {k : Nat} (hk : k = 0 ∨ 4 ≤ k) :
    (ackStatus v s).statusWord.getLsbD k =
      if 8 ≤ k ∧ v.getLsbD 2 = true then false else s.statusWord.getLsbD k := by
  rw [ackStatus_eq]
  by_cases h8 : 8 ≤ k
  · obtain ⟨j, rfl⟩ := Nat.exists_eq_add_of_le h8
    simp only [statusWord_errCode, h8, true_and]
    cases v.getLsbD 2
    · rfl
    · exact BitVec.getLsbD_zero
  · obtain rfl | rfl | rfl | hraz : k = 0 ∨ k = 4 ∨ k = 5 ∨ (k = 6 ∨ k = 7) := by omega
    · rw [statusWord_busy, statusWord_busy]; rfl
    · rw [statusWord_front, statusWord_front]; rfl
    · rw [statusWord_cfg, statusWord_cfg]; rfl
    · rw [statusWord_raz hraz, if_neg fun h => h8 h.1, statusWord_raz hraz]

/-- Settles O30: the reserved slots, the read-only registers, the RAZ bits, and the errors that an access leaves. -/
theorem portIgnoresWhatItMustIgnore : Obligations.PortIgnoresWhatItMustIgnore := by
  unfold Obligations.PortIgnoresWhatItMustIgnore
  have hread (s : State) : readSlot 3 s = (s.statusWord, s) := readSlot_slot .status s
  have hwrite (v : Word) (s : State) : writeSlot 3 v s = ackStatus v s := writeSlot_slot .status v s
  refine ⟨fun slot v s hslot => ?reserved, fun slot v s hslot => ?readOnly, fun v s => ?irqEn, fun s k hk => ?raz,
    fun v s k hk => ?status, fun slot v s => ⟨?read, ?err, ?errCode⟩⟩
  case reserved =>
    have hnone := slotReg_reserved slot hslot
    rw [readSlot, writeSlot, hnone]
    exact ⟨rfl, rfl⟩
  case readOnly =>
    obtain ⟨r, hr, rfl⟩ := slot_of_readOnly_offset slot hslot
    exact (writeSlot_slot r v s).trans (writeReg_readOnly hr v s)
  case irqEn =>
    have hset : writeSlot 4 v s = { s with irqEn := irqEnOf v } := writeSlot_slot .irqEn v s
    have hget (t : State) : readSlot 4 t = (t.irqEnWord, t) := readSlot_slot .irqEn t
    rw [hset, hget]
    exact irqEnWord_write v s
  case raz =>
    rw [hread]
    obtain hk | hk | hk := hk
    · exact statusWord_raz (.inl hk) s
    · exact statusWord_raz (.inr hk) s
    · obtain ⟨j, rfl⟩ := Nat.exists_eq_add_of_le (Nat.le_trans (by decide : 8 ≤ 16) hk)
      exact (statusWord_errCode j s).trans (BitVec.getLsbD_of_ge _ _ (by omega))
  case status =>
    rw [hwrite, hread, hread]
    exact statusWord_ackStatus v s hk
  case read =>
    rw [readSlot_frame]
    exact ⟨rfl, rfl⟩
  case err =>
    obtain ⟨h, -⟩ | ⟨h, -⟩ := writeSlot_err slot v s <;> rw [h]
    · exact id
    · exact nofun
  case errCode =>
    obtain ⟨-, h⟩ | ⟨-, h, -⟩ := writeSlot_err slot v s
    · exact .inl h
    · exact .inr h

/-! ### IRQ (R217) -/

/-- IRQ_EN reads its three enables in bits 2:0 (R31). -/
theorem irqEnWord_getLsbD {k : Nat} (hk : k < 3) (s : State) : s.irqEnWord.getLsbD k = s.irqEn.getLsbD k := by
  rw [State.irqEnWord, BitVec.getLsbD_append, if_pos hk]

/-- Settles O33: the level's three terms are the bits of the two registers. -/
theorem irqLevelFollowsFlagsAndEnables : Obligations.IrqLevelFollowsFlagsAndEnables := by
  unfold Obligations.IrqLevelFollowsFlagsAndEnables
  refine ⟨fun s => ?level, fun s => ⟨?enables, ?flags⟩, rfl⟩
  case level =>
    have hstatus : readSlot 3 s = (s.statusWord, s) := readSlot_slot .status s
    have henable : readSlot 4 s = (s.irqEnWord, s) := readSlot_slot .irqEn s
    rw [hstatus, henable]
    simp only [State.irq, statusWord_done, statusWord_err, statusWord_ovr, irqEnWord_getLsbD, Nat.reduceLT]
  case enables =>
    have hwrite : writeSlot 4 0x00000000#32 s = { s with irqEn := 0#3 } := writeSlot_slot .irqEn _ s
    rw [hwrite]
    simp [State.irq]
  case flags =>
    have hwrite : writeSlot 3 0x0000000E#32 s = _ := (writeSlot_slot .status _ s).trans (ackStatus_eq _ s)
    rw [hwrite]
    rfl

end Sys2Proof.Machine
end

section
/-! PROOF. Whole-machine rules of the two memories and RESULT: which steps and which commands change them. -/

namespace Sys2Proof.Machine

/-! ### The pixels of the front bank and outside the buffer (R41, R42, R186 a) -/

/-- Pixels read alike where both banks and the epoch are the same. -/
theorem readPixel_congr {s t : State} (h0 : t.mem.fb0 = s.mem.fb0) (h1 : t.mem.fb1 = s.mem.fb1)
    (he : t.epoch = s.epoch) (b : BankId) (a : Nat) : t.readPixel b a = s.readPixel b a := by
  cases b
  · simp only [State.readPixel, Memory.bank, h0, he]
  · simp only [State.readPixel, Memory.bank, h1, he]

/-- A texture load leaves every pixel. -/
theorem readPixel_loadTexture (r : Rom) (c : RomHit) (s : State) (b : BankId) (a : Nat) :
    (loadTexture r c s).readPixel b a = s.readPixel b a := by
  rw [loadTexture_eq]
  exact readPixel_congr (s := s) rfl rfl rfl b a

/-- The selector and the front bank as they were. -/
def SameFront (s t : State) : Prop :=
  t.frontSel = s.frontSel ∧ ∀ a : Nat, t.readPixel s.frontSel a = s.readPixel s.frontSel a

theorem SameFront.refl (s : State) : SameFront s s := ⟨rfl, fun _ => rfl⟩

/-- Only SWAP and CONFIG change the front bank or the selector. -/
theorem Effect.sameFront {i : Instr} {s u : State} (h : Effect s i u) (hswap : i.opcode ≠ 0x00000004#32)
    (hconfig : i.opcode ≠ 0x00000001#32) : SameFront s u := by
  cases h with
  | nop | codec _ => exact SameFront.refl s
  | config _ _ _ => exact absurd rfl hconfig
  | @pixel x y c => exact ⟨by rw [plot_eq], readPixel_plot_front x y c s⟩
  | @rect x y => exact ⟨by rw [drawTexture_eq], readPixel_drawTexture_front x y s⟩
  | swap => exact absurd rfl hswap
  | romload _ => exact ⟨by rw [loadTexture_eq], readPixel_loadTexture _ _ s s.frontSel⟩

/-- A turn that completes no SWAP and no CONFIG keeps the front bank. -/
def FrontRule (u : Turn) (s t : State) : Prop :=
  u ≠ .reset → (∀ c : Command, u = .engine → s.lc = some c → c.op ≠ 0x00000004#32 ∧ c.op ≠ 0x00000001#32) →
    SameFront s t

theorem engineTurn_frontRule {s t : State} (ht : engineTurn s = .next t) : FrontRule .engine s t := by
  intro _ hop
  obtain rfl | ⟨e, -, rfl⟩ | ⟨c, i, u, hl, hi, hu, rfl⟩ := engineTurn_completes ht
  · exact SameFront.refl t
  · rw [completeError_eq]; exact SameFront.refl s
  · obtain ⟨hswap, hconfig⟩ := hop c rfl hl
    exact hu.sameFront (hi ▸ hswap) (hi ▸ hconfig)

theorem hostTurn_sameFront (s : State) : SameFront s (hostTurn s) := by
  rw [hostTurn_frame]
  exact ⟨rfl, readPixel_congr (s := s) rfl rfl rfl s.frontSel⟩

/-- Settles O40: only the engine's turn and reset reach the banks, and of the commands only SWAP and CONFIG the front
one. -/
theorem frontBankChangesOnlyBySwapOrConfig : Obligations.FrontBankChangesOnlyBySwapOrConfig := by
  unfold Obligations.FrontBankChangesOnlyBySwapOrConfig
  intro s t h
  exact step_turns FrontRule (fun _ _ _ _ h => h) (fun s _ _ => hostTurn_sameFront s)
    (fun _ _ => engineTurn_frontRule) (fun s _ _ => by rw [decoderTurn_frame]; exact SameFront.refl s)
    (fun _ s _ _ => SameFront.refl s) (fun r s _ _ => by rw [romTurn_frame]; exact SameFront.refl s)
    (fun _ hu => absurd rfl hu) h

/-- The pixels of both banks from the end of the buffer up, as it is after the command, are as they were. -/
def SameOutside (s t : State) : Prop :=
  ∀ (b : BankId) (a : Nat), t.width * t.height ≤ a → t.readPixel b a = s.readPixel b a

/-- No command writes a pixel outside the buffer (R180, R181, R185). -/
theorem Effect.sameOutside {i : Instr} {s u : State} (h : Effect s i u) (hp : s.params.Legal) : SameOutside s u := by
  intro b a ha
  cases h with
  | nop | codec _ => rfl
  | @config w ht _ hw hh =>
    obtain ⟨-, hwmax, -, hhmax, -⟩ := hp
    have hwidth : (configure w ht s).width = w := toNat_ofU32 ((inU32_iff w).2 (by omega))
    have hheight : (configure w ht s).height = ht := toNat_ofU32 ((inU32_iff ht).2 (by omega))
    rw [hwidth, hheight] at ha
    exact (readPixel_configure w ht s b a).trans (if_neg (Nat.not_lt.2 ha))
  | @pixel x y c =>
    have hsize : (plot x y c s).width * (plot x y c s).height = s.width * s.height := by rw [plot_eq]; rfl
    rw [readPixel_plot]
    refine if_neg fun ⟨hin, _, _, haddr⟩ => ?_
    exact absurd (pixelAddr_lt hin) (by omega)
  | @rect x y =>
    have hsize : (drawTexture x y s).width * (drawTexture x y s).height = s.width * s.height := by
      rw [drawTexture_eq]; rfl
    exact readPixel_drawTexture_outside x y s b (hsize ▸ ha)
  | swap => exact (readPixel_swapBanks s b a).trans (if_neg fun h => Nat.not_lt.2 ha h.2)
  | romload _ => exact readPixel_loadTexture _ _ s b a

/-- Settles O46: an error changes no pixel, and an effect none outside the buffer. -/
theorem noCommandWritesOutsideTheBuffer : Obligations.NoCommandWritesOutsideTheBuffer := by
  unfold Obligations.NoCommandWritesOutsideTheBuffer
  intro i s t hp h
  obtain ⟨e, -, rfl⟩ | ⟨u, hu, rfl⟩ := exec_completesAs i s t h
  · rw [completeError_eq]
    exact fun _ _ _ => rfl
  · exact hu.sameOutside hp

/-! ### RESULT and the texture memory (R36, R44) -/

/-- The commands that leave a value in RESULT (R36). -/
def valueOpcodes : List Word := [0x00000010#32, 0x00000011#32, 0x00000012#32, 0x00000013#32, 0x00000020#32]

/-- A command that leaves no value leaves RESULT. -/
theorem Effect.sameResult {i : Instr} {s u : State} (h : Effect s i u) (hi : i.opcode ∉ valueOpcodes) :
    u.result = s.result := by
  cases h with
  | nop | config _ _ _ | swap => rfl
  | pixel => rw [plot_eq]
  | rect => rw [drawTexture_eq]
  | codec hcodec =>
    have hvalue : codecOpcodes ⊆ valueOpcodes := by decide
    exact absurd (hvalue hcodec) hi
  | romload _ => exact absurd (by decide : (0x00000020#32 : Word) ∈ valueOpcodes) hi

/-- Only ROMLOAD changes the texture memory (R44). -/
theorem Effect.sameTex {i : Instr} {s u : State} (h : Effect s i u) (hi : i.opcode ≠ 0x00000020#32) :
    u.mem.tex = s.mem.tex ∧ u.epoch = s.epoch := by
  cases h with
  | nop | config _ _ _ | codec _ => exact ⟨rfl, rfl⟩
  | @pixel x y c => exact ⟨plot_tex x y c s, by rw [plot_eq]⟩
  | @rect x y => exact ⟨drawTexture_tex x y s, by rw [drawTexture_eq]⟩
  | swap => exact ⟨Memory.setBank_tex _ _ _, rfl⟩
  | romload _ => exact absurd rfl hi

/-- What a turn that changes RESULT is. -/
def ResultRule (u : Turn) (s t : State) : Prop :=
  u ≠ .reset → t.result ≠ s.result →
    u = .engine ∧ t.err = s.err ∧ t.errCode = s.errCode ∧ ∃ c : Command, s.lc = some c ∧ c.op ∈ valueOpcodes

theorem resultRule_of_eq {u : Turn} {s t : State} (h : t.result = s.result) : ResultRule u s t :=
  fun _ hne => absurd h hne

/-- A completion that changes RESULT is of an effect, which records no error (R36, R245). -/
theorem engineTurn_resultRule {s t : State} (ht : engineTurn s = .next t) : ResultRule .engine s t := by
  obtain rfl | ⟨e, -, rfl⟩ | ⟨c, i, u, hl, hi, hu, rfl⟩ := engineTurn_completes ht
  · exact resultRule_of_eq rfl
  · exact resultRule_of_eq (by rw [completeError_eq])
  · intro _ hne
    have hvalue : i.opcode ∈ valueOpcodes := by_contra fun hno => hne (hu.sameResult hno)
    exact ⟨rfl, by rw [hu.frame]; rfl, by rw [hu.frame]; rfl, c, hl, hi ▸ hvalue⟩

/-- Settles O43: only the engine's turn and reset reach RESULT, and of the commands only those that leave a value. -/
theorem resultChangesOnlyByValueCommands : Obligations.ResultChangesOnlyByValueCommands := by
  unfold Obligations.ResultChangesOnlyByValueCommands
  intro s t h
  exact step_turns ResultRule (fun _ _ _ _ h => h) (fun s => resultRule_of_eq (by rw [hostTurn_frame]))
    (fun _ _ => engineTurn_resultRule) (fun s => resultRule_of_eq (by rw [decoderTurn_frame]))
    (fun _ _ => resultRule_of_eq rfl) (fun r s => resultRule_of_eq (by rw [romTurn_frame]))
    (fun _ hu => absurd rfl hu) h

/-- What a turn that changes entry a of the texture memory is. -/
def TexelRule (a : Nat) (u : Turn) (s t : State) : Prop :=
  u ≠ .reset → t.readTexel a ≠ s.readTexel a →
    (u = .host ∧ s.busy = false ∧ a = s.texAddr.toNat ∧ a < s.params.texCap ∧
      ∃ v : Word, s.host.nextAccess = some (.w 0x3C v)) ∨
    (u = .engine ∧ ∃ c : Command, s.lc = some c ∧ c.op = 0x00000020#32)

/-- Entries read alike where the texture memory and the epoch are the same. -/
theorem readTexel_congr {s t : State} (h : t.mem.tex = s.mem.tex ∧ t.epoch = s.epoch) (a : Nat) :
    t.readTexel a = s.readTexel a := by
  rw [State.readTexel, State.readTexel, h.1, h.2]

theorem texelRule_of_eq {a : Nat} {u : Turn} {s t : State} (h : t.mem.tex = s.mem.tex ∧ t.epoch = s.epoch) :
    TexelRule a u s t :=
  fun _ hne => absurd (readTexel_congr h a) hne

theorem hostTurn_texelRule (a : Nat) (s : State) : TexelRule a .host s (hostTurn s) := by
  obtain ⟨-, h, e⟩ | ⟨slot, v, h, hacc, e⟩ | ⟨slot, h, -, e⟩ := hostTurn_access s <;> rw [e]
  · exact texelRule_of_eq ⟨rfl, rfl⟩
  · have hepoch : (writeSlot slot v s).epoch = s.epoch := by rw [writeSlot_frame]
    obtain htex | ⟨hcap, hb, rfl, htex⟩ := writeSlot_tex slot v s
    · exact texelRule_of_eq ⟨htex, hepoch⟩
    · intro _ hne
      have ha : a = s.texAddr.toNat := by
        by_contra hother
        have hput : State.readTexel { writeSlot 15 v s with host := h } a =
            (s.writeTexel s.texAddr.toNat (v.setWidth 16)).readTexel a :=
          readTexel_congr (s := s.writeTexel s.texAddr.toNat (v.setWidth 16)) ⟨htex, hepoch⟩ a
        exact hne (by rw [hput, readTexel_writeTexel, if_neg hother])
      exact .inl ⟨rfl, hb, ha, ha ▸ hcap, v, hacc⟩
  · rw [readSlot_frame]
    exact texelRule_of_eq ⟨rfl, rfl⟩

theorem engineTurn_texelRule (a : Nat) {s t : State} (ht : engineTurn s = .next t) : TexelRule a .engine s t := by
  obtain rfl | ⟨e, -, rfl⟩ | ⟨c, i, u, hl, hi, hu, rfl⟩ := engineTurn_completes ht
  · exact texelRule_of_eq ⟨rfl, rfl⟩
  · exact texelRule_of_eq (by rw [completeError_eq]; exact ⟨rfl, rfl⟩)
  · by_cases hop : i.opcode = 0x00000020#32
    · exact fun _ _ => .inr ⟨rfl, c, hl, hi.trans hop⟩
    · exact texelRule_of_eq (hu.sameTex hop)

/-- Settles O44: the host's turn by its access, the engine's by its command. -/
theorem textureChangesOnlyByTexDataOrRomload : Obligations.TextureChangesOnlyByTexDataOrRomload := by
  unfold Obligations.TextureChangesOnlyByTexDataOrRomload
  intro s t a h
  exact step_turns (TexelRule a) (fun _ _ _ _ h => h) (hostTurn_texelRule a) (fun _ _ => engineTurn_texelRule a)
    (fun s => texelRule_of_eq (by rw [decoderTurn_frame]; exact ⟨rfl, rfl⟩)) (fun _ _ => texelRule_of_eq ⟨rfl, rfl⟩)
    (fun r s => texelRule_of_eq (by rw [romTurn_frame]; exact ⟨rfl, rfl⟩)) (fun _ hu => absurd rfl hu) h

end Sys2Proof.Machine
end

section
/-! PROOF. The flags DONE, ERR and OVR: which steps clear one. -/

namespace Sys2Proof.Machine

/-- A flag, bit k of STATUS, that went from 1 to 0 in a turn of u: the host wrote a 1 to its bit. -/
def ClearedByHost (u : Turn) (s : State) (k : Nat) (old new : Bool) : Prop :=
  old = true → new = false →
    u = .host ∧ ∃ v : Word, s.host.nextAccess = some (.w 0x0C v) ∧ v.getLsbD k = true

/-- What every turn but reset does to the flags. -/
def FlagRule (u : Turn) (s t : State) : Prop :=
  u ≠ .reset → ClearedByHost u s 1 s.done t.done ∧ ClearedByHost u s 2 s.err t.err ∧ ClearedByHost u s 3 s.ovr t.ovr

theorem clearedByHost_of_kept {u : Turn} {s : State} {k : Nat} {old new : Bool} (h : old = true → new = true) :
    ClearedByHost u s k old new :=
  fun hold hnew => absurd (hnew.symm.trans (h hold)) (by decide)

/-- No flag is cleared. -/
def KeepsFlags (s t : State) : Prop :=
  (s.done = true → t.done = true) ∧ (s.err = true → t.err = true) ∧ (s.ovr = true → t.ovr = true)

theorem flagRule_of_kept {u : Turn} {s t : State} (h : KeepsFlags s t) : FlagRule u s t := by
  obtain ⟨hd, he, ho⟩ := h
  exact fun _ => ⟨clearedByHost_of_kept hd, clearedByHost_of_kept he, clearedByHost_of_kept ho⟩

theorem KeepsFlags.refl (s : State) : KeepsFlags s s := ⟨id, id, id⟩

theorem keepsFlags_overrun (s : State) : KeepsFlags s (overrun s) := ⟨id, id, fun _ => rfl⟩

/-- A write of any register but STATUS clears no flag. -/
theorem writeReg_keepsFlags {r : Reg} (hr : r ≠ .status) (v : Word) (s : State) : KeepsFlags s (writeReg r v s) := by
  cases r
  case status => exact absurd rfl hr
  case cmd | texW | texH | texAddr =>
    simp only [writeReg]
    split
    · exact keepsFlags_overrun s
    · exact KeepsFlags.refl s
  case texData =>
    cases hb : s.busy with
    | false => rw [writeReg, writeTexData_idle v hb]; exact KeepsFlags.refl s
    | true => rw [writeReg, writeTexData, if_pos hb]; exact keepsFlags_overrun s
  all_goals exact KeepsFlags.refl s

theorem readSlot_keepsFlags (slot : Fin 64) (s : State) : KeepsFlags s (readSlot slot s).2 := by
  unfold readSlot
  split
  · rename_i r _
    cases r
    case texData =>
      simp only [readReg, readTexData]
      split
      · exact keepsFlags_overrun s
      · exact KeepsFlags.refl s
    all_goals exact KeepsFlags.refl s
  · exact KeepsFlags.refl s

theorem hostTurn_flagRule (s : State) : FlagRule .host s (hostTurn s) := by
  obtain ⟨-, h, e⟩ | ⟨slot, v, h, hacc, e⟩ | ⟨slot, h, -, e⟩ := hostTurn_access s <;> rw [e]
  · exact flagRule_of_kept (KeepsFlags.refl s)
  · by_cases hslot : slot = Reg.status.slot
    · subst hslot
      have hflag {k : Nat} {old : Bool} : ClearedByHost .host s k old (old && !v.getLsbD k) := fun hold hnew =>
        ⟨rfl, v, hacc, by simpa [hold] using hnew⟩
      rw [writeSlot_slot]
      exact fun _ => ⟨hflag, hflag, hflag⟩
    · have hkept : KeepsFlags s (writeSlot slot v s) := by
        unfold writeSlot
        split
        · rename_i r hreg
          refine writeReg_keepsFlags (fun hr => hslot ?_) v s
          rw [← hr]
          exact (slotReg_eq_some slot r).1 hreg
        · exact KeepsFlags.refl s
      exact flagRule_of_kept hkept
  · exact flagRule_of_kept (readSlot_keepsFlags slot s)

theorem engineTurn_keepsFlags {s t : State} (ht : engineTurn s = .next t) : KeepsFlags s t := by
  obtain rfl | ⟨e, -, rfl⟩ | ⟨c, i, u, -, -, hu, rfl⟩ := engineTurn_completes ht
  · exact KeepsFlags.refl t
  · rw [completeError_eq]; exact ⟨fun _ => rfl, fun _ => rfl, id⟩
  · rw [hu.frame]; exact ⟨fun _ => rfl, id, id⟩

/-- Settles O42: the host's turn by its access, and no other turn but reset clears a flag. -/
theorem flagsAreSticky : Obligations.FlagsAreSticky := by
  unfold Obligations.FlagsAreSticky
  intro s t h
  exact step_turns FlagRule (fun _ _ _ _ h => h) hostTurn_flagRule
    (fun _ _ h => flagRule_of_kept (engineTurn_keepsFlags h))
    (fun s => by rw [decoderTurn_frame]; exact flagRule_of_kept (KeepsFlags.refl s))
    (fun _ s => flagRule_of_kept (KeepsFlags.refl s))
    (fun r s => by rw [romTurn_frame]; exact flagRule_of_kept (KeepsFlags.refl s)) (fun _ hu => absurd rfl hu) h

end Sys2Proof.Machine
end

section
/-! PROOF. What a step leaves while a command is held, and what reset leaves. -/

namespace Sys2Proof.Machine

/-! ### Between accept and complete (R23) -/

/-- What a command reads and writes, and the command, as they were. -/
def SameUnderCommand (s t : State) : Prop :=
  t.lc = s.lc ∧ t.mem = s.mem ∧ t.epoch = s.epoch ∧ t.result = s.result ∧ t.fbW = s.fbW ∧ t.fbH = s.fbH ∧
    t.texW = s.texW ∧ t.texH = s.texH ∧ t.texAddr = s.texAddr ∧ t.frontSel = s.frontSel ∧ t.cfg = s.cfg

theorem SameUnderCommand.refl (s : State) : SameUnderCommand s s :=
  ⟨rfl, rfl, rfl, rfl, rfl, rfl, rfl, rfl, rfl, rfl, rfl⟩

/-- While BUSY = 1 a write is refused, or is of a register that no command reads or writes (R215). -/
theorem writeReg_sameUnderCommand {s : State} (hb : s.busy = true) (r : Reg) (v : Word) :
    SameUnderCommand s (writeReg r v s) := by
  cases r
  case cmd | texW | texH | texAddr | texData =>
    rw [writeReg_refused (by decide) hb]
    exact SameUnderCommand.refl s
  all_goals exact SameUnderCommand.refl s

theorem readReg_sameUnderCommand {s : State} (hb : s.busy = true) (r : Reg) : SameUnderCommand s (readReg r s).2 := by
  cases r
  case texData =>
    rw [readReg, readTexData, if_pos hb]
    exact SameUnderCommand.refl s
  all_goals exact SameUnderCommand.refl s

theorem hostTurn_sameUnderCommand {s : State} (hb : s.busy = true) : SameUnderCommand s (hostTurn s) := by
  obtain ⟨-, h, e⟩ | ⟨slot, v, h, -, e⟩ | ⟨slot, h, -, e⟩ := hostTurn_access s <;> rw [e]
  · exact SameUnderCommand.refl s
  · unfold writeSlot
    split
    · exact writeReg_sameUnderCommand hb _ v
    · exact SameUnderCommand.refl s
  · unfold readSlot
    split
    · exact readReg_sameUnderCommand hb _
    · exact SameUnderCommand.refl s

/-- Settles O45, agent by agent. -/
theorem nothingChangesWhileBusy : Obligations.NothingChangesWhileBusy := by
  unfold Obligations.NothingChangesWhileBusy
  intro s t hb h
  exact step_turns (fun u s t => s.busy = true → u ≠ .reset → u ≠ .engine → SameUnderCommand s t)
    (fun _ _ _ _ h => h) (fun _ hb _ _ => hostTurn_sameUnderCommand hb) (fun _ _ _ _ _ hu => absurd rfl hu)
    (fun s _ _ _ => by rw [decoderTurn_frame]; exact SameUnderCommand.refl s)
    (fun _ s _ _ _ => SameUnderCommand.refl s)
    (fun r s _ _ _ => by rw [romTurn_frame]; exact SameUnderCommand.refl s) (fun _ _ hu => absurd rfl hu) h hb

/-! ### Reset (R46, R240) -/

/-- The state that reset leaves, with what outlives it taken from s. -/
def State.afterReset (s : State) : State :=
  { State.reset with
    params := s.params, rom := s.rom, epoch := s.epoch, draws := s.draws, hostData := s.hostData
    soData := s.soData, host := s.host, schedule := s.schedule }

theorem frontPixel_afterReset (s : State) (a : Word) : s.afterReset.frontPixel a = 0 := if_neg fun h => by cases h.1

/-- The registers that read 0 after reset: all but the identification registers and TEX_DATA (R46). -/
def clearedRegs : List Reg :=
  [.status, .irqEn, .fbW, .fbH, .arg0, .arg1, .arg2, .cmd, .result, .texW, .texH, .texAddr, .fbAddr, .fbData]

theorem readReg_afterReset {r : Reg} (hr : r ∈ clearedRegs) (s : State) : (readReg r s.afterReset).1 = 0 := by
  cases r
  case id | cap0 | cap1 | texData => exact absurd hr (by decide)
  case status =>
    show 0#16 ++ ErrCode.byte .none ++ 0#2 ++ 0#1 ++ 0#1 ++ 0#1 ++ 0#1 ++ 0#1 ++ 0#1 = 0#32
    decide
  case irqEn =>
    show 0#29 ++ 0#3 = 0#32
    decide
  case fbData => exact frontPixel_afterReset s s.afterReset.fbAddr
  all_goals rfl

/-- What is in each slot past CAP1 but that of TEX_DATA: nothing, or a register that reset clears (R24). -/
theorem slotReg_past_cap1 : ∀ slot : Fin 64, 3 ≤ slot.val → slot.val ≠ 15 →
    slotReg slot = none ∨ ∃ r ∈ clearedRegs, slotReg slot = some r := by
  decide

theorem readSlot_afterReset (s : State) (slot : Fin 64) (hslot : 3 ≤ slot.val) (hne : slot.val ≠ 15) :
    (readSlot slot s.afterReset).1 = 0x00000000#32 := by
  obtain hnone | ⟨r, hr, hreg⟩ := slotReg_past_cap1 slot hslot hne
  · simp only [readSlot, hnone]
    rfl
  · simp only [readSlot, hreg]
    exact readReg_afterReset hr s

/-- A bank that nothing has zeroed or written since reset holds the free values (R240; log 5). -/
theorem Bank.read_untouched (epoch number a : Nat) :
    Bank.read epoch number ⟨0, []⟩ a = Config.fbPowerUp epoch number a := by
  rw [Bank.read, cellsFind]
  exact if_neg (Nat.not_lt_zero a)

/-- A reset step, as a state that reset leaves, with a new epoch. -/
theorem step_reset {s : State} {rest : List Turn} (hs : s.schedule = .reset :: rest) :
    step s = .next (State.afterReset { s with epoch := s.epoch + 1, schedule := rest }) :=
  step_of_schedule hs

/-- Settles O47: State.reset and a reset step leave the same state but for what outlives it. -/
theorem resetLeavesTheSpecifiedState : Obligations.ResetLeavesTheSpecifiedState := by
  unfold Obligations.ResetLeavesTheSpecifiedState
  refine ⟨fun t ht => ?state, fun s rest hs => ⟨_, step_reset hs, rfl, rfl, rfl, rfl, rfl⟩⟩
  have hshape : ∃ s : State, t = s.afterReset := by
    obtain rfl | ⟨s, rest, hs, h⟩ := ht
    · exact ⟨State.reset, rfl⟩
    · rw [step_reset hs] at h
      cases h
      exact ⟨_, rfl⟩
  obtain ⟨s, rfl⟩ := hshape
  refine ⟨rfl, rfl, rfl, readSlot_afterReset s, rfl, rfl, rfl, rfl, rfl, frontPixel_afterReset s, fun b a => ?bank,
    fun a => rfl⟩
  cases b <;> exact Bank.read_untouched s.epoch _ a

end Sys2Proof.Machine
end

section
/-! PROOF. One turn of the host: the access that it makes (R107), and the turns of WAIT and CHECK (R99 to R101). -/

namespace Sys2Proof.Machine

/-- Settles O53, by the access that the turn makes. -/
theorem hostTurnMakesTheAccessItsEncodingNames : Obligations.HostTurnMakesTheAccessItsEncodingNames := by
  unfold Obligations.HostTurnMakesTheAccessItsEncodingNames
  refine ⟨fun s hnone => ?none, fun s off v hw => ?write, fun s off hr => ?read⟩ <;>
    obtain ⟨hacc, h, e⟩ | ⟨slot, v', h, hacc, e⟩ | ⟨slot, h, hacc, e⟩ := hostTurn_access s
  case none.inl => rw [e]
  case write.inr.inl =>
    cases hacc.symm.trans hw
    exact ⟨slot, rfl, by rw [e]⟩
  case read.inr.inr =>
    cases hacc.symm.trans hr
    exact ⟨slot, rfl, by rw [e]⟩
  case none.inr.inl | none.inr.inr => cases hacc.symm.trans hnone
  case write.inl | write.inr.inr => cases hacc.symm.trans hw
  case read.inl | read.inr.inl => cases hacc.symm.trans hr

/-- The write of 4 to STATUS clears ERR and ERRCODE and nothing else (R30, R101). -/
theorem writeSlot_status_four (s : State) : writeSlot Reg.status.slot 4#32 s = { s with err := false, errCode := .none } := by
  rw [writeSlot_slot]
  exact ackStatus_eq 4#32 s

/-- CHECK's second turn, where the first has found ERR = 1. -/
theorem hostTurn_clearErr {s : State} {rest : List HostOp}
    (hp : s.host.program = .wr Reg.status.slot (.lit 4#32) :: rest) :
    hostTurn s = { s with err := false, errCode := .none, host := { s.host with program := rest } } := by
  have hturn : hostTurn s = (writeSlot Reg.status.slot 4#32 s).setProgram rest := by simp only [hostTurn, hp]; rfl
  rw [hturn, writeSlot_status_four]
  rfl

/-- CHECK's first turn, where it finds ERR = 0: `$e` is bound to 0. -/
theorem hostTurn_check_noError {s : State} {x : Nat} {rest : List HostOp} (hp : s.host.program = .check x :: rest)
    (herr : s.err = false) :
    hostTurn s = { s with
      hostData := some s.statusWord
      host := { (s.host.setVar statusVar s.statusWord).setVar x 0 with program := rest } } := by
  have hturn : hostTurn s = hostCheck x rest s := by simp only [hostTurn, hp]
  rw [hturn, hostCheck_eq]
  simp only [herr, Bool.false_eq_true, if_false]

/-- CHECK's first turn, where it finds ERR = 1: `$e` is bound to the error code, and the clearing of ERR is next. -/
theorem hostTurn_check_error {s : State} {x : Nat} {rest : List HostOp} (hp : s.host.program = .check x :: rest)
    (herr : s.err = true) :
    hostTurn s = { s with
      hostData := some s.statusWord
      host :=
        { (s.host.setVar statusVar s.statusWord).setVar x ((s.statusWord.extractLsb' 8 8).setWidth 32) with
          program := .wr Reg.status.slot (.lit 4#32) :: rest } } := by
  have hturn : hostTurn s = hostCheck x rest s := by simp only [hostTurn, hp]
  rw [hturn, hostCheck_eq]
  simp only [herr, if_true]

/-- The variables after `$s` and then `$x` are bound. -/
theorem getVar_setVar_setVar (h : HostAgent) (v w : Word) {x y : Nat} :
    ((h.setVar statusVar v).setVar x w).getVar y =
      if y = x then w else if y = statusVar then v else h.getVar y := by
  rw [HostAgent.getVar_setVar, HostAgent.getVar_setVar]

/-- Settles O52: the turns of WAIT and CHECK, and the variables that they bind. -/
theorem waitPollsAndCheckReadsAndClears : Obligations.WaitPollsAndCheckReadsAndClears := by
  unfold Obligations.WaitPollsAndCheckReadsAndClears
  refine ⟨fun s rest hp => ?wait, fun s x rest hp herr => ?noError, fun s x rest hp herr => ?error⟩
  case wait =>
    have hturn : hostTurn s = hostWait rest s := by simp only [hostTurn, hp]
    refine ⟨_, hturn.trans (hostWait_eq rest s hp), rfl, ?_, fun y hy => ?_, rfl⟩
    · exact (HostAgent.getVar_setVar ..).trans (if_pos rfl)
    · exact (HostAgent.getVar_setVar ..).trans (if_neg hy)
  case noError =>
    have hvar (y : Nat) := getVar_setVar_setVar s.host s.statusWord 0 (x := x) (y := y)
    refine ⟨_, hostTurn_check_noError hp herr, (hvar x).trans (if_pos rfl), rfl, fun hx => ?_, fun y hs hx => ?_, rfl⟩
    · exact (hvar statusVar).trans ((if_neg hx.symm).trans (if_pos rfl))
    · exact (hvar y).trans ((if_neg hx).trans (if_neg hs))
  case error =>
    have hvar (y : Nat) := getVar_setVar_setVar s.host s.statusWord
      ((s.statusWord.extractLsb' 8 8).setWidth 32) (x := x) (y := y)
    refine ⟨_, _, hostTurn_check_error hp herr, hostTurn_clearErr rfl, ?_, fun hx => ?_, fun y hs hx => ?_, rfl, rfl⟩
    · rw [BitVec.ofNat_toNat]
      exact (hvar x).trans (if_pos rfl)
    · exact (hvar statusVar).trans ((if_neg hx.symm).trans (if_pos rfl))
    · exact (hvar y).trans ((if_neg hx).trans (if_neg hs))

end Sys2Proof.Machine
end

section
/-! PROOF. The end of a run (R256; log 14). -/

namespace Sys2Proof.Machine

/-- A run of no steps. -/
theorem run_zero (s : State) : core.run 0 s = .next s := rfl

/-- The run's end, one step at a time. -/
theorem runToEnd_succ_of_not_ended {s t : State} (hs : s.runEnded = false) (h : step s = .next t) (n : Nat) :
    runToEnd (n + 1) s = runToEnd n t := by
  simp only [runToEnd, hs, h, Bool.false_eq_true, if_false]

theorem runToEnd_of_ended {s : State} (hs : s.runEnded = true) (n : Nat) : runToEnd n s = some s := by
  cases n <;> simp only [runToEnd, hs, if_true]

/-- A state within n steps that is an end, with no end before it. -/
def FirstEnd (n : Nat) (s t : State) : Prop :=
  ∃ m, m ≤ n ∧ core.run m s = .next t ∧ t.runEnded = true ∧
    ∀ k, k < m → ∀ u, core.run k s = .next u → State.runEnded u = false

/-- From an end, that end is the first. -/
theorem firstEnd_of_ended {s t : State} (hs : s.runEnded = true) (n : Nat) : FirstEnd n s t ↔ s = t := by
  constructor
  · rintro ⟨m, -, hrun, -, hbefore⟩
    cases m with
    | zero => cases hrun; rfl
    | succ m => exact absurd (hs.symm.trans (hbefore 0 m.succ_pos s (run_zero s))) (by decide)
  · rintro rfl
    exact ⟨0, n.zero_le, run_zero s, hs, fun k hk => absurd hk k.not_lt_zero⟩

/-- From a state that is no end, the first end is that of the next state. -/
theorem firstEnd_succ {s v t : State} (hs : s.runEnded = false) (h : step s = .next v) (n : Nat) :
    FirstEnd (n + 1) s t ↔ FirstEnd n v t := by
  constructor
  · rintro ⟨m, hm, hrun, hend, hbefore⟩
    cases m with
    | zero =>
      cases hrun
      exact absurd (hs.symm.trans hend) (by decide)
    | succ m =>
      rw [run_succ h] at hrun
      refine ⟨m, Nat.le_of_succ_le_succ hm, hrun, hend, fun k hk u hu => ?_⟩
      exact hbefore (k + 1) (Nat.succ_lt_succ hk) u ((run_succ h k).trans hu)
  · rintro ⟨m, hm, hrun, hend, hbefore⟩
    refine ⟨m + 1, Nat.succ_le_succ hm, (run_succ h m).trans hrun, hend, fun k hk u hu => ?_⟩
    cases k with
    | zero => cases hu; exact hs
    | succ k => exact hbefore k (Nat.lt_of_succ_lt_succ hk) u ((run_succ h k).symm.trans hu)

/-- The run's end is the first end within its steps. -/
theorem runToEnd_eq_some (n : Nat) (s t : State) : runToEnd n s = some t ↔ FirstEnd n s t := by
  induction n generalizing s with
  | zero =>
    cases hs : s.runEnded with
    | true => rw [runToEnd_of_ended hs, firstEnd_of_ended hs, Option.some_inj]
    | false =>
      simp only [runToEnd, hs, Bool.false_eq_true, if_false]
      refine iff_of_false nofun fun ⟨m, hm, hrun, hend, _⟩ => ?_
      cases Nat.le_zero.1 hm
      cases hrun
      exact absurd (hs.symm.trans hend) (by decide)
  | succ n ih =>
    cases hs : s.runEnded with
    | true => rw [runToEnd_of_ended hs, firstEnd_of_ended hs, Option.some_inj]
    | false =>
      obtain ⟨v, hv⟩ := noStepStops s
      rw [runToEnd_succ_of_not_ended hs hv, firstEnd_succ hs hv, ih]

/-- What an end is (R256; log 14). -/
theorem runEnded_iff (s : State) :
    s.runEnded = true ↔
      s.host.program = [] ∧ s.host.refused = false ∧ s.lc = none ∧ ∀ a, Turn.display a ∉ s.schedule := by
  have hdisplay : (s.schedule.any Turn.isDisplay) = false ↔ ∀ a, Turn.display a ∉ s.schedule := by
    rw [List.any_eq_false]
    refine ⟨fun h a ha => h _ ha rfl, fun h u hu => ?_⟩
    cases u with
    | display a => exact absurd hu (h a)
    | host | engine | decoder | rom _ | reset => exact nofun
  simp only [State.runEnded, State.busy, Bool.and_eq_true, List.isEmpty_iff, Bool.not_eq_true', hdisplay,
    Option.isSome_eq_false_iff, Option.isNone_iff_eq_none, and_assoc]

/-- Settles O58: the first end by the recursion of `runToEnd`, and the host of an end has nothing left to do. -/
theorem runEndsAtTheFirstEndState : Obligations.RunEndsAtTheFirstEndState := by
  unfold Obligations.RunEndsAtTheFirstEndState
  refine ⟨runToEnd_eq_some, runEnded_iff, fun s hend hs => ?stays⟩
  case stays =>
    obtain ⟨hp, -, hl, -⟩ := (runEnded_iff s).1 hend
    have hturn : hostTurn s = s := by simp only [hostTurn, hp]
    rw [step_host hs hl, hturn]

end Sys2Proof.Machine
end

section
/-! PROOF. The driver's stand-ins for integers that no register holds, and why each keeps the result (R106). -/

namespace Sys2Proof.Machine

/-- The driver passes what the register holds, or the stand-in. -/
theorem mapSigned_eq (standIn v : Int) : mapSigned standIn v = .int (heldOr standIn v) := by
  simp only [mapSigned, heldOr, inS32_iff]

/-- A stand-in that a register holds is in its place where the value is not held. -/
theorem not_held_of_heldOr_ne {standIn v : Int} (h : heldOr standIn v ≠ v) : v < -2147483648 ∨ 2147483647 < v := by
  by_contra hheld
  exact h (if_pos (by omega))

theorem heldOr_neg_one_eq_iff (v : Int) : heldOr (-1) v = v ↔ inS32 v = true := by
  rw [inS32_iff, heldOr]
  split <;> omega

/-- What the driver passes fits its operand. -/
theorem signed_heldOr {standIn : Int} (hs : inS32 standIn = true) (v : Int) :
    ∃ a, Operand.signed (.int (heldOr standIn v)) = .ok a := by
  have hfits : inS32 (heldOr standIn v) = true := by
    rw [inS32_iff] at hs ⊢
    rw [heldOr]
    split <;> omega
  exact ⟨_, if_pos hfits⟩

/-- A statement's own operations, after the read of RESULT where one of them needs it (R97; log 11). -/
def ResultView.before (view : ResultView) (own : List HostOp) : List HostOp :=
  (if own.any HostOp.usesResult then view.fetch else []) ++ own

/-- A program expands statement by statement. -/
theorem expandFrom_cons {texCap : Nat} {view : ResultView} {st : Stmt} {rest : List Stmt} {own more : List HostOp}
    (hown : st.expand texCap = .ok own)
    (hmore : expandFrom texCap ((view.before own).foldl ResultView.after view) rest = .ok more) :
    expandFrom texCap view (st :: rest) = .ok (view.before own ++ more) := by
  rw [expandFrom, hown]
  show Except.bind (expandFrom texCap ((view.before own).foldl ResultView.after view) rest) _ = _
  rw [hmore]
  rfl

/-- PIXELs with the stand-ins are accepted, wherever the program stands with `$RESULT`. -/
theorem expandFrom_pixels (texCap : Nat) (view : ResultView) (points : List (Int × Int × Option Int)) :
    ∃ ops, expandFrom texCap view (emulatedDrawing points) = .ok ops := by
  induction points generalizing view with
  | nil => exact ⟨[], rfl⟩
  | cons p ps ih =>
    obtain ⟨x, hx⟩ := signed_heldOr (by decide : inS32 (-1) = true) p.1
    obtain ⟨y, hy⟩ := signed_heldOr (by decide : inS32 (-1) = true) p.2.1
    obtain ⟨c, hc⟩ := signed_heldOr (by decide : inS32 0 = true) (p.2.2.getD 1)
    rw [← mapSigned_eq] at hx hy hc
    have hown : (pixelStmt p.1 p.2.1 (p.2.2.getD 1)).expand texCap = _ := expand_pixel hx hy hc
    obtain ⟨more, hmore⟩ := ih _
    exact ⟨_, expandFrom_cons hown hmore⟩

/-- A pixel at a coordinate that no register holds is off the buffer, and so is one at -1 (R106). -/
theorem inBuffer_of_not_held {s : State} (hw : s.fbW.toNat ≤ 65535) (hh : s.fbH.toNat ≤ 65535) (x y : Int) :
    (heldOr (-1) x ≠ x → s.inBuffer x y = false ∧ s.inBuffer (-1) y = false) ∧
      (heldOr (-1) y ≠ y → s.inBuffer x y = false ∧ s.inBuffer x (-1) = false) := by
  have hwidth : s.width ≤ 65535 := hw
  have hheight : s.height ≤ 65535 := hh
  simp only [Bool.eq_false_iff, ne_eq, inBuffer_iff]
  refine ⟨fun h => ?_, fun h => ?_⟩
  · have := not_held_of_heldOr_ne h
    omega
  · have := not_held_of_heldOr_ne h
    omega

/-- Settles O57: the driver's statements with their stand-ins, and why each stand-in keeps the result. -/
theorem driverStandInsKeepTheResult : Obligations.DriverStandInsKeepTheResult := by
  unfold Obligations.DriverStandInsKeepTheResult
  have hskip {c : Int} (h : c < 1 ∨ 512 < c) : validCode c = false := by
    rw [Bool.eq_false_iff, ne_eq, validCode_iff]
    omega
  refine ⟨fun x y c => ?pixel, fun c => ?grey, fun r g b => ?palette, fun w h codes x y => ?rect,
    fun points => ⟨?drawing, fun texCap => expandFrom_pixels texCap .unread points⟩, fun c => rfl, fun c hc => ?code,
    fun c hc => ?texel, fun x y s hw hh => inBuffer_of_not_held hw hh x y, fun r hr => ?domain⟩
  case pixel => simp only [driver, pixelStmt, mapSigned_eq]
  case grey => simp only [driver, mapSigned_eq]
  case palette => simp only [driver, mapSigned_eq, and_self]
  case rect => simp only [driver, heldOr_neg_one_eq_iff, Bool.and_eq_true]
  case drawing => simp only [emulatedDrawing, pixelStmt, mapSigned_eq]
  case code =>
    have hnot := not_held_of_heldOr_ne hc
    have hc' : validCode c = false := hskip (by omega)
    have h0 : validCode 0 = false := hskip (by decide)
    rw [skipCode_eq, skipCode_eq, hc', h0, decodeWord_of_invalid hc', decodeWord_of_invalid h0,
      greyCode_of_invalid hc', greyCode_of_invalid h0]
    exact ⟨rfl, rfl, rfl, rfl⟩
  case texel =>
    rw [skipCode_eq, skipCode_eq, hskip (by omega), hskip (by decide)]
    exact ⟨rfl, rfl⟩
  case domain =>
    have hnot := not_held_of_heldOr_ne hr
    simp only [Bool.eq_false_iff, ne_eq, inDomain_iff]
    omega

end Sys2Proof.Machine
end

section
/-! SUPPORT. Runs of the host from an idle block with nothing scheduled, one operation at a time: what each leaves. -/

namespace Sys2Proof.Machine

/-- A run from s comes to t after some number of steps. -/
def Reaches (s t : State) : Prop := ∃ k, ∀ n, core.run (k + n) s = core.run n t

theorem Reaches.trans {s t u : State} (h : Reaches s t) (h' : Reaches t u) : Reaches s u := by
  obtain ⟨k, hk⟩ := h
  obtain ⟨l, hl⟩ := h'
  exact ⟨k + l, fun n => by rw [Nat.add_assoc, hk, hl]⟩

theorem Reaches.refl (s : State) : Reaches s s := ⟨0, fun n => by rw [Nat.zero_add]⟩

theorem Reaches.run {s t : State} (h : Reaches s t) : ∃ n, core.run n s = .next t := by
  obtain ⟨k, hk⟩ := h
  exact ⟨k, hk 0⟩

theorem reaches_of_run {s t : State} {k : Nat} (h : ∀ n, core.run (n + k) s = core.run n t) : Reaches s t :=
  ⟨k, fun n => by rw [Nat.add_comm]; exact h n⟩

/-- What an operand evaluates to does not depend on what the host still has to do. -/
theorem HostAgent.eval_congr {h h' : HostAgent} (hv : h'.vars = h.vars) (hr : h'.result = h.result) (v : HostVal) :
    h'.eval v = h.eval v := by
  induction v with
  | lit _ => rfl
  | var x => simp only [HostAgent.eval, HostAgent.getVar, hv]
  | result => exact hr
  | texel c ih => simp only [HostAgent.eval, ih]

/-- The host's WAIT has ended at t, with `rest` left to do: `$s` holds STATUS (R100). -/
def State.waited (t : State) (rest : List HostOp) : State :=
  { t with hostData := some t.statusWord, host := { t.host.setVar statusVar t.statusWord with program := rest } }

/-- The host has read RESULT, with `rest` left to do: `$RESULT` is its value (R97). -/
def State.resultRead (s : State) (rest : List HostOp) : State :=
  { s with hostData := some s.result, host := { s.host with result := s.result, program := rest } }

section
variable {s : State} {rest : List HostOp}

/-- One operation's turn. -/
theorem reaches_host (hs : s.schedule = []) (hl : s.lc = none) : Reaches s (hostTurn s) :=
  reaches_of_run (k := 1) (run_succ (step_host hs hl))

theorem reaches_wr {r : Reg} {v : HostVal} (hs : s.schedule = []) (hl : s.lc = none)
    (hp : s.host.program = .wr r.slot v :: rest) : Reaches s ((writeReg r (s.host.eval v) s).setProgram rest) := by
  rw [← writeSlot_slot]
  exact reaches_of_run (k := 1) (run_wr hs hl hp)

/-- A read into a variable, of a register that a read leaves alone; RESULT is not such a one, as the host keeps it
for `$RESULT`. -/
theorem reaches_rd_var {r : Reg} {x : Nat} {v : Word} (hs : s.schedule = []) (hl : s.lc = none)
    (hp : s.host.program = .rd r.slot (some x) :: rest) (hr : readReg r s = (v, s)) (hne : r.slot ≠ Reg.result.slot) :
    Reaches s { s with hostData := some v, host := { s.host.setVar x v with program := rest } } := by
  have hturn : (hostRd r.slot (some x) s).setProgram rest =
      { s with hostData := some v, host := { s.host.setVar x v with program := rest } } := by
    simp only [hostRd, hostRead, readSlot_slot, hr, if_neg hne]
    rfl
  exact hturn ▸ reaches_of_run (k := 1) (run_rd hs hl hp)

/-- The read of RESULT that stands before a statement that uses `$RESULT` (log 11). -/
theorem reaches_rd_result (hs : s.schedule = []) (hl : s.lc = none)
    (hp : s.host.program = .rd Reg.result.slot none :: rest) : Reaches s (s.resultRead rest) := by
  have hturn : (hostRd Reg.result.slot none s).setProgram rest = s.resultRead rest := by
    simp only [hostRd, hostRead, readSlot_slot, if_true]
    rfl
  exact hturn ▸ reaches_of_run (k := 1) (run_rd hs hl hp)

theorem reaches_wait (hs : s.schedule = []) (hl : s.lc = none) (hp : s.host.program = .wait :: rest) :
    Reaches s (s.waited rest) :=
  reaches_of_run (k := 1) (run_wait hs hl hp)

/-- A write of an operand, evaluated by what the host's variables and `$RESULT` were before. -/
theorem reaches_wr_of {h : HostAgent} {r : Reg} {v : HostVal} (hs : s.schedule = []) (hl : s.lc = none)
    (hp : s.host.program = .wr r.slot v :: rest) (hvars : s.host.vars = h.vars) (hresult : s.host.result = h.result) :
    Reaches s ((writeReg r (h.eval v) s).setProgram rest) :=
  HostAgent.eval_congr hvars hresult v ▸ reaches_wr hs hl hp

/-! A write of TEX_W, TEX_H or TEX_ADDR while BUSY = 0 -/

theorem writeReg_texW_idle (hl : s.lc = none) (v : Word) : writeReg .texW v s = { s with texW := v } :=
  if_neg (by rw [State.busy, hl]; decide)

theorem writeReg_texH_idle (hl : s.lc = none) (v : Word) : writeReg .texH v s = { s with texH := v } :=
  if_neg (by rw [State.busy, hl]; decide)

theorem writeReg_texAddr_idle (hl : s.lc = none) (v : Word) : writeReg .texAddr v s = { s with texAddr := v } :=
  if_neg (by rw [State.busy, hl]; decide)

/-- The write of CMD and the engine's turn. -/
theorem reaches_command {v : HostVal} {t : State} (hs : s.schedule = []) (hl : s.lc = none)
    (hp : s.host.program = .wr Reg.cmd.slot v :: rest)
    (ht : engineTurn { s with
      lc := some ⟨s.host.eval v, s.arg0, s.arg1, s.arg2⟩, host := { s.host with program := rest } } = .next t) :
    Reaches s t :=
  reaches_of_run (k := 2) (run_command hs hl hp ht)

end

/-- The state in which a command statement with these ARGs has been accepted, its WAIT still to come. -/
def State.accepted (s : State) (c : Command) (rest : List HostOp) : State :=
  { s with arg0 := c.a0, arg1 := c.a1, arg2 := c.a2, lc := some c, host := { s.host with program := .wait :: rest } }

section
variable {s : State} {op : Word} {a b c : HostVal} {rest : List HostOp} {i : Instr} {t : State}

/-- The end of a command statement: the command that was accepted is completed, and the host has seen it. -/
theorem reaches_waited {cmd : Command} (hs : s.schedule = []) (ht : exec i (s.accepted cmd rest) = .next t) :
    Reaches t (t.waited rest) := by
  have hframe := exec_frame ht
  exact reaches_wait (by rw [hframe]; exact hs) (by rw [hframe]) (by rw [hframe]; rfl)

/-- The writes of ARG0 and ARG1. -/
theorem reaches_args_two (hs : s.schedule = []) (hl : s.lc = none)
    (hp : s.host.program = .wr Reg.arg0.slot a :: .wr Reg.arg1.slot b :: rest) :
    Reaches s { s with
      arg0 := s.host.eval a, arg1 := s.host.eval b, host := { s.host with program := rest } } := by
  have harg0 := reaches_wr hs hl hp
  exact harg0.trans (reaches_wr_of (h := s.host) (r := .arg1) (v := b) hs hl rfl rfl rfl)

/-- A command statement of two operands (R98). -/
theorem reaches_commandOps_two (hs : s.schedule = []) (hl : s.lc = none)
    (hp : s.host.program = commandOps op [a, b] ++ rest)
    (hd : decodeCommand ⟨op, s.host.eval a, s.host.eval b, s.arg2⟩ = .ok i)
    (ht : exec i (s.accepted ⟨op, s.host.eval a, s.host.eval b, s.arg2⟩ rest) = .next t) :
    Reaches s (t.waited rest) := by
  have hargs := reaches_args_two (rest := .wr Reg.cmd.slot (.lit op) :: .wait :: rest) hs hl hp
  have hcmd := hargs.trans (reaches_command hs hl rfl ((engineTurn_of_decode rfl hd).trans ht))
  exact hcmd.trans (reaches_waited hs ht)

/-- A command statement of three operands (R98). -/
theorem reaches_commandOps_three (hs : s.schedule = []) (hl : s.lc = none)
    (hp : s.host.program = commandOps op [a, b, c] ++ rest)
    (hd : decodeCommand ⟨op, s.host.eval a, s.host.eval b, s.host.eval c⟩ = .ok i)
    (ht : exec i (s.accepted ⟨op, s.host.eval a, s.host.eval b, s.host.eval c⟩ rest) = .next t) :
    Reaches s (t.waited rest) := by
  have hargs := reaches_args_two
    (rest := .wr Reg.arg2.slot c :: .wr Reg.cmd.slot (.lit op) :: .wait :: rest) hs hl hp
  have harg2 := hargs.trans (reaches_wr_of (h := s.host) hs hl rfl rfl rfl)
  have hcmd := harg2.trans (reaches_command hs hl rfl ((engineTurn_of_decode rfl hd).trans ht))
  exact hcmd.trans (reaches_waited hs ht)

end

end Sys2Proof.Machine
end

section
/-! PROOF. GETTEX, run by the host alone (R103). -/

namespace Sys2Proof.Machine

/-- The first four turns of GETTEX: `$w` and `$h` hold the texture's size, and TEX_ADDR is 0. -/
theorem reaches_readTex {s : State} {cap tv wv hv : Nat} {rest : List HostOp} (hs : s.schedule = []) (hl : s.lc = none)
    (hne : wv ≠ hv)
    (hp : s.host.program = .wait :: .rd Reg.texW.slot (some wv) :: .rd Reg.texH.slot (some hv) ::
      .wr Reg.texAddr.slot (.lit 0) :: .readTex cap tv wv hv 0 :: rest) :
    ∃ u : State, Reaches s u ∧
      u = { s with
        texAddr := 0, hostData := u.hostData
        host := { s.host with program := .readTex cap tv wv hv 0 :: rest, vars := u.host.vars } } ∧
      u.host.getVar wv = s.texW ∧ u.host.getVar hv = s.texH := by
  have htexW := (reaches_wait hs hl hp).trans (reaches_rd_var (r := .texW) hs hl rfl rfl (by decide))
  have hsize := htexW.trans (reaches_rd_var (r := .texH) hs hl rfl rfl (by decide))
  have hrun := hsize.trans (reaches_wr (r := .texAddr) hs hl rfl)
  rw [writeReg_texAddr_idle (by exact hl)] at hrun
  refine ⟨_, hrun, rfl, ?_, ?_⟩
  · exact (HostAgent.getVar_setVar ..).trans ((if_neg hne).trans ((HostAgent.getVar_setVar ..).trans (if_pos rfl)))
  · exact (HostAgent.getVar_setVar ..).trans (if_pos rfl)

section
variable {s : State} {cap x w h : Nat} {rest : List HostOp}

/-- The loop of GETTEX on a texture of no texels binds the empty list and makes no access. -/
theorem reaches_readTex_empty (hs : s.schedule = []) (hl : s.lc = none)
    (hp : s.host.program = .readTex cap x w h 0 :: rest) (hn : s.host.texels w h = 0) :
    Reaches s { s with host := { s.host.setTex x [] with program := rest } } := by
  have hturn : hostTurn s = { s with host := { s.host.setTex x [] with program := rest } } := by
    simp only [hostTurn, hp, hostReadTex, hn, Nat.not_lt_zero, if_false]
    rfl
  exact hturn ▸ reaches_host hs hl

/-- The loop of GETTEX on more than TEX_CAP texels is refused without an access (log 11). -/
theorem reaches_readTex_refused (hs : s.schedule = []) (hl : s.lc = none)
    (hp : s.host.program = .readTex cap x w h 0 :: rest) (hn : cap < s.host.texels w h) : Reaches s s.refuse := by
  have hturn : hostTurn s = s.refuse := by simp only [hostTurn, hp, hostReadTex, hn, if_true]
  exact hturn ▸ reaches_host hs hl

end

/-- Settles O56: the head of the statement, and then its loop by the number of texels. -/
theorem gettexReadsTheTextureBack : Obligations.GettexReadsTheTextureBack := by
  unfold Obligations.GettexReadsTheTextureBack
  intro s tv wv hv ops rest hexp hne hlegal hs hl hp href
  cases hexp
  obtain ⟨u, hrun, hu, hw, hh⟩ := reaches_readTex hs hl hne hp
  have hus : u.schedule = [] := by rw [hu]; exact hs
  have hul : u.lc = none := by rw [hu]; exact hl
  have hup : u.host.program = .readTex s.params.texCap tv wv hv 0 :: rest := by rw [hu]; rfl
  have hparams : u.params = s.params := by rw [hu]
  have hmem : u.mem = s.mem := by rw [hu]
  have hurefused : u.host.refused = false := by rw [hu]; exact href
  have htexels : u.host.texels wv hv = s.texW.toNat * s.texH.toNat := by rw [HostAgent.texels, hw, hh]
  refine ⟨fun hfits => ?fits, fun hexceeds => ?refused⟩
  case fits =>
    rcases Nat.eq_zero_or_pos (s.texW.toNat * s.texH.toNat) with hzero | hpos
    · obtain ⟨n, hn⟩ := (hrun.trans (reaches_readTex_empty hus hul hup (htexels.trans hzero))).run
      refine ⟨n, _, hn, rfl, hurefused, hmem, hw, hh, ?_⟩
      rw [hzero]
      simp [HostAgent.getTex, HostAgent.setTex]
    · obtain ⟨m, hm⟩ : ∃ m, s.texW.toNat * s.texH.toNat = m + 1 := Nat.exists_eq_succ_of_ne_zero hpos.ne'
      obtain ⟨-, -, -, -, -, hcap⟩ := hlegal
      obtain ⟨t, htrun, ht, hlist⟩ := run_readTex m (i := 0) hus hul hup (by omega) (by omega)
        (by rw [hparams]; exact hcap) (by rw [hparams]; omega) (by rw [hu]; rfl)
      have htexel (k : Nat) : u.readTexel k = s.readTexel k := by rw [hu]; rfl
      obtain ⟨n, hn⟩ := (hrun.trans ⟨m + 1, htrun⟩).run
      refine ⟨n, t, hn, by rw [ht], by rw [ht]; exact hurefused, by rw [ht]; exact hmem, by rw [ht]; exact hw,
        by rw [ht]; exact hh, ?_⟩
      rw [hlist, hm]
      simp only [if_true, List.nil_append, Nat.zero_add, htexel, BitVec.ofNat_toNat]
  case refused =>
    obtain ⟨n, hn⟩ := (hrun.trans (reaches_readTex_refused hus hul hup (by omega))).run
    exact ⟨n, _, hn, rfl, rfl, hmem, by rw [hu]; rfl, by rw [hu]; rfl⟩

end Sys2Proof.Machine
end

section
/-! SUPPORT. What the assembler's acceptance of a statement says: each operand was written, and the statement's own
operations follow the read of RESULT, where they need one. -/

namespace Sys2Proof.Machine

/-- A chain of two accepted, both are. -/
theorem ok_of_bind_eq_ok {α β : Type} {e : Except AsmError α} {f : α → Except AsmError β} {b : β} (h : e >>= f = .ok b) :
    ∃ a, e = .ok a ∧ f a = .ok b := by
  cases e with
  | error _ => cases h
  | ok a => exact ⟨a, rfl, h⟩

/-- An accepted integer fits, and is written as it is (R97). -/
theorem signed_int_eq_ok {v : Int} {a : HostVal} (h : Operand.signed (.int v) = .ok a) :
    inS32 v = true ∧ a = .lit (ofS32 v) := by
  rw [Operand.signed] at h
  split at h
  · cases h
    exact ⟨‹_›, rfl⟩
  · cases h

/-- An accepted program is its first statement's operations and then the rest's (the converse of `expandFrom_cons`). -/
theorem expandFrom_cons_eq_ok {texCap : Nat} {view : ResultView} {st : Stmt} {rest : List Stmt} {ops : List HostOp}
    (h : expandFrom texCap view (st :: rest) = .ok ops) :
    ∃ own more, st.expand texCap = .ok own ∧
      expandFrom texCap ((view.before own).foldl ResultView.after view) rest = .ok more ∧
      ops = view.before own ++ more := by
  obtain ⟨own, hown, hrest⟩ := ok_of_bind_eq_ok h
  obtain ⟨more, hmore, hops⟩ := ok_of_bind_eq_ok hrest
  cases hops
  exact ⟨own, more, hown, hmore, rfl⟩

/-- An accepted program of one statement is that statement's operations. -/
theorem expandFrom_singleton_eq_ok {texCap : Nat} {view : ResultView} {st : Stmt} {ops : List HostOp}
    (h : expandFrom texCap view [st] = .ok ops) : ∃ own, st.expand texCap = .ok own ∧ ops = view.before own := by
  obtain ⟨own, more, hown, hmore, rfl⟩ := expandFrom_cons_eq_ok h
  cases hmore
  exact ⟨own, hown, List.append_nil _⟩

section
variable {texCap : Nat} {a b c : Operand} {own : List HostOp}

theorem expand_pixel_eq_ok (h : Stmt.expand texCap (.pixel a b c) = .ok own) :
    ∃ a' b' c', a.signed = .ok a' ∧ b.signed = .ok b' ∧ c.signed = .ok c' ∧ own = commandOps 0x02#32 [a', b', c'] := by
  obtain ⟨a', ha, h⟩ := ok_of_bind_eq_ok h
  obtain ⟨b', hb, h⟩ := ok_of_bind_eq_ok h
  obtain ⟨c', hc, h⟩ := ok_of_bind_eq_ok h
  cases h
  exact ⟨a', b', c', ha, hb, hc, rfl⟩

theorem expand_rgb_eq_ok (h : Stmt.expand texCap (.rgb a b c) = .ok own) :
    ∃ a' b' c', a.signed = .ok a' ∧ b.signed = .ok b' ∧ c.signed = .ok c' ∧ own = commandOps 0x10#32 [a', b', c'] := by
  obtain ⟨a', ha, h⟩ := ok_of_bind_eq_ok h
  obtain ⟨b', hb, h⟩ := ok_of_bind_eq_ok h
  obtain ⟨c', hc, h⟩ := ok_of_bind_eq_ok h
  cases h
  exact ⟨a', b', c', ha, hb, hc, rfl⟩

end

end Sys2Proof.Machine
end

section
/-! PROOF. `$RESULT`: RGB, the host's read of RESULT, and PIXEL (R97). -/

namespace Sys2Proof.Machine

section
variable {s : State} {a b c : HostVal} {rest : List HostOp}

/-- RGB in the domain, run from an idle block: RESULT holds the code, and the memories and the size stay (R124). -/
theorem reaches_rgb {r g b : Int} (hs : s.schedule = []) (hl : s.lc = none)
    (hp : s.host.program = commandOps 0x10#32 [.lit (ofS32 r), .lit (ofS32 g), .lit (ofS32 b)] ++ rest)
    (hr : inDomain r = true) (hg : inDomain g = true) (hb : inDomain b = true) :
    ∃ t : State, Reaches s t ∧ t.host.program = rest ∧ t.result = ofS32 (paletteEncode r g b) ∧ t.schedule = [] ∧
      t.lc = none ∧ t.cfg = s.cfg ∧ t.fbW = s.fbW ∧ t.fbH = s.fbH ∧ t.frontSel = s.frontSel ∧ t.mem = s.mem ∧
      t.epoch = s.epoch := by
  have hfits {v : Int} (hv : inDomain v = true) : (ofS32 v).toInt = v := by
    rw [inDomain_iff] at hv
    exact toInt_ofS32 ((inS32_iff v).2 (by omega))
  have hd : decodeCommand ⟨0x10#32, ofS32 r, ofS32 g, ofS32 b⟩ = .ok (.rgb r g b) := by
    rw [decodeCommand_rgb rfl, hfits hr, hfits hg, hfits hb]
  exact ⟨_, reaches_commandOps_three hs hl hp hd (exec_rgb_of_inDomain hr hg hb _), rfl, rfl, hs, rfl, rfl, rfl, rfl, rfl,
    rfl, rfl⟩

/-- PIXEL run from an idle, configured block: the memories are those after the plot (R183). -/
theorem reaches_pixel (hs : s.schedule = []) (hl : s.lc = none) (hc : s.cfg = true)
    (hp : s.host.program = commandOps 0x02#32 [a, b, c] ++ rest) {x y code : Int} (hx : (s.host.eval a).toInt = x)
    (hy : (s.host.eval b).toInt = y) (hcode : (s.host.eval c).toInt = code) :
    ∃ t : State, Reaches s t ∧ t.host.program = rest ∧ t.lc = none ∧ t.host.result = s.host.result ∧
      t.mem.tex = s.mem.tex ∧ ∀ bank addr, t.readPixel bank addr = (plot x y code s).readPixel bank addr := by
  subst hx hy hcode
  refine ⟨_, reaches_commandOps_three hs hl hp (decodeCommand_pixel rfl) (exec_pixel_of_configured _ _ _ hc), rfl, rfl,
    ?_, plot_tex .., fun bank addr => ?_⟩
  · show (plot _ _ _ _).host.result = _
    rw [plot_eq]
    rfl
  · exact (readPixel_plot ..).trans (readPixel_plot _ _ _ s bank addr).symm

end

/-- Settles O55: RGB leaves the code in RESULT, the host reads it, and PIXEL plots it. -/
theorem resultOperandIsThePreviousResult : Obligations.ResultOperandIsThePreviousResult := by
  unfold Obligations.ResultOperandIsThePreviousResult
  intro s r g b x y ops hexp hr0 hr7 hg0 hg7 hb0 hb7 hs hl hc hp
  obtain ⟨own, more, hrgb, hmore, rfl⟩ := expandFrom_cons_eq_ok hexp
  obtain ⟨r', g', b', hr', hg', hb', rfl⟩ := expand_rgb_eq_ok hrgb
  obtain ⟨-, rfl⟩ := signed_int_eq_ok hr'
  obtain ⟨-, rfl⟩ := signed_int_eq_ok hg'
  obtain ⟨-, rfl⟩ := signed_int_eq_ok hb'
  obtain ⟨own, hpixel, rfl⟩ := expandFrom_singleton_eq_ok hmore
  obtain ⟨x', y', c', hx', hy', hc', rfl⟩ := expand_pixel_eq_ok hpixel
  obtain ⟨hx, rfl⟩ := signed_int_eq_ok hx'
  obtain ⟨hy, rfl⟩ := signed_int_eq_ok hy'
  cases hc'
  obtain ⟨t, hrun, hprogram, hresult, hts, htl, htc, hw, hh, hfront, hmem, hepoch⟩ := reaches_rgb hs hl hp
    ((inDomain_iff r).2 ⟨hr0, hr7⟩) ((inDomain_iff g).2 ⟨hg0, hg7⟩) ((inDomain_iff b).2 ⟨hb0, hb7⟩)
  have hread := hrun.trans (reaches_rd_result hts htl hprogram)
  have hcode : (ofS32 (paletteEncode r g b)).toInt = 64 * r + 8 * g + b + 1 :=
    toInt_ofS32 ((inS32_iff _).2 (by rw [paletteEncode]; omega))
  obtain ⟨u, hurun, huprogram, hul, huresult, hutex, hupixel⟩ := reaches_pixel
    (s := t.resultRead _) (a := .lit (ofS32 x)) (b := .lit (ofS32 y)) (c := .result) (rest := []) hts htl
    (htc.trans hc) rfl (toInt_ofS32 hx) (toInt_ofS32 hy) ((congrArg BitVec.toInt hresult).trans hcode)
  have hbanks (bank : BankId) (a : Nat) : t.readPixel bank a = s.readPixel bank a :=
    readPixel_congr (congrArg Memory.fb0 hmem) (congrArg Memory.fb1 hmem) hepoch bank a
  obtain ⟨n, hn⟩ := (hread.trans hurun).run
  refine ⟨n, u, hn, huprogram, hul, ?result, hutex.trans (congrArg Memory.tex hmem), fun a => ?front, fun a => ?back⟩
  case result =>
    rw [huresult, ← ofS32_paletteEncode hr0 hg0 hb0]
    exact hresult
  case front =>
    rw [hupixel, ← hbanks, ← hfront]
    exact readPixel_plot_front ..
  case back =>
    rw [hupixel, ← hbanks, ← hfront, ← hw, ← hh]
    refine (readPixel_plot_back ..).trans (if_congr ?_ rfl rfl)
    have hvalid : 1 ≤ 64 * r + 8 * g + b + 1 ∧ 64 * r + 8 * g + b + 1 ≤ 512 := by omega
    exact and_congr_right fun _ => and_congr_right fun _ => and_iff_right hvalid

end Sys2Proof.Machine
end

section
/-! SUPPORT. The parts of FILL, run by the host and the engine alone from an idle block: the read of RESULT that may
stand before it, the accesses of SETTEX, and RECT. -/

namespace Sys2Proof.Machine

/-! ### What FILL's acceptance says -/

/-- An accepted SETTEX of one code over fits TEX_CAP, and is its accesses in order (R102). -/
theorem settexOps_replicate_eq_ok {texCap w h : Nat} {code : Operand} {ops : List HostOp}
    (hok : settexOps texCap w h (List.replicate (w * h) code) = .ok ops) :
    w * h ≤ texCap ∧ inU32 w = true ∧ inU32 h = true ∧
      ops = .wait :: .wr Reg.texW.slot (.lit (ofU32 w)) :: .wr Reg.texH.slot (.lit (ofU32 h)) ::
        .wr Reg.texAddr.slot (.lit 0) :: List.replicate (w * h) (.wr Reg.texData.slot code.texel) := by
  rw [settexOps] at hok
  split at hok
  · cases hok
  next hcap =>
    rw [if_neg (fun h => h List.length_replicate)] at hok
    split at hok
    next hfits =>
      cases hok
      rw [Bool.and_eq_true] at hfits
      exact ⟨Nat.not_lt.1 hcap, hfits.1, hfits.2, by rw [List.map_replicate]; rfl⟩
    · cases hok

theorem expand_fill_eq_ok {texCap w h : Nat} {x y code : Operand} {own : List HostOp}
    (hok : Stmt.expand texCap (.fill x y w h code) = .ok own) :
    ∃ tex x' y', settexOps texCap w h (List.replicate (w * h) code) = .ok tex ∧ x.signed = .ok x' ∧ y.signed = .ok y' ∧
      own = tex ++ commandOps 0x03#32 [x', y'] := by
  obtain ⟨tex, htex, hok⟩ := ok_of_bind_eq_ok hok
  obtain ⟨x', hx, hok⟩ := ok_of_bind_eq_ok hok
  obtain ⟨y', hy, hok⟩ := ok_of_bind_eq_ok hok
  cases hok
  exact ⟨tex, x', y', htex, hx, hy, rfl⟩

/-! ### The parts -/

/-- What RECT at (xoff, yoff) makes of s: the texture is drawn into the back bank, clipped, its zero and invalid codes
skipped (R184). -/
structure RectDrawn (xoff yoff : Int) (s t : State) : Prop where
  frame : t = { s with
    done := true, lc := none, fsm := .idle, romSeen := [], arg0 := t.arg0, arg1 := t.arg1, hostData := t.hostData
    host := t.host, mem := t.mem }
  tex : t.mem.tex = s.mem.tex
  front : ∀ a, t.readPixel s.frontSel a = s.readPixel s.frontSel a
  outside : ∀ a, s.width * s.height ≤ a → t.readPixel s.back a = s.readPixel s.back a
  back : ∀ px py : Nat, px < s.width → py < s.height →
    t.readPixel s.back (py * s.width + px) =
      let texel := s.readTexel (((py : Int) - yoff).toNat * s.texW.toNat + ((px : Int) - xoff).toNat)
      if xoff ≤ px ∧ (px : Int) < xoff + s.texW.toNat ∧ yoff ≤ py ∧ (py : Int) < yoff + s.texH.toNat ∧
          validCode (texel.toNat : Int) = true
      then decodeWord (texel.toNat : Int) else s.readPixel s.back (py * s.width + px)

section
variable {s : State} {rest : List HostOp}

/-- The read of RESULT before a statement, where one of the statement's operations uses `$RESULT`: the block is as it
was, and so are the host's variables (log 11). -/
theorem reaches_before {own : List HostOp} (hs : s.schedule = []) (hl : s.lc = none)
    (hp : s.host.program = ResultView.unread.before own) :
    ∃ t : State, Reaches s t ∧ t = { s with hostData := t.hostData, host := t.host } ∧ t.host.program = own ∧
      t.host.vars = s.host.vars ∧
      ∀ slot v, HostOp.wr slot v ∈ own → v.usesResult = true → t.host.result = s.result := by
  rw [ResultView.before] at hp
  split at hp
  next => exact ⟨_, reaches_rd_result hs hl hp, rfl, rfl, rfl, fun _ _ _ _ => rfl⟩
  next hnone =>
    exact ⟨s, Reaches.refl s, rfl, hp, rfl, fun slot v hmem huses =>
      absurd (List.any_eq_true.2 ⟨.wr slot v, hmem, huses⟩) hnone⟩

/-- SETTEX of one code over (R102): the size, the entries, and TEX_ADDR past them. -/
theorem reaches_settex {n : Nat} {w h : Word} {v : HostVal} (hs : s.schedule = []) (hl : s.lc = none)
    (hcap : s.params.texCap < 2 ^ 32) (hn : n ≤ s.params.texCap)
    (hp : s.host.program = .wait :: .wr Reg.texW.slot (.lit w) :: .wr Reg.texH.slot (.lit h) ::
      .wr Reg.texAddr.slot (.lit 0) :: (List.replicate n (.wr Reg.texData.slot v) ++ rest)) :
    ∃ t : State, Reaches s t ∧
      t = { s with
        texW := w, texH := h, texAddr := BitVec.ofNat 32 n, mem := { s.mem with tex := t.mem.tex }
        hostData := some s.statusWord
        host := { s.host.setVar statusVar s.statusWord with program := rest } } ∧
      ∀ k, t.readTexel k =
        if k < n then ((s.host.setVar statusVar s.statusWord).eval v).setWidth 16 else s.readTexel k := by
  have htexW := (reaches_wait hs hl hp).trans (reaches_wr (r := .texW) hs hl rfl)
  rw [writeReg_texW_idle (by exact hl)] at htexW
  have htexH := htexW.trans (reaches_wr (r := .texH) hs hl rfl)
  rw [writeReg_texH_idle (by exact hl)] at htexH
  have haddr := htexH.trans (reaches_wr (r := .texAddr) hs hl rfl)
  rw [writeReg_texAddr_idle (by exact hl)] at haddr
  set u : State := { s with
    texW := w, texH := h, texAddr := 0, hostData := some s.statusWord
    host := { s.host.setVar statusVar s.statusWord with
      program := List.replicate n (.wr Reg.texData.slot v) ++ rest } }
  have hlength : (List.replicate n v).length = n := List.length_replicate
  obtain ⟨t, hrun, ht, htexel⟩ := run_texels (List.replicate n v) rest u hs hl hcap
    (by rw [hlength]; exact (Nat.zero_add n).trans_le hn) (by rw [List.map_replicate])
  have hzero : u.texAddr.toNat = 0 := rfl
  rw [hzero, Nat.zero_add, hlength] at ht
  have hhost : u.host.eval v = (s.host.setVar statusVar s.statusWord).eval v :=
    HostAgent.eval_congr (h := s.host.setVar statusVar s.statusWord) (h' := u.host) rfl rfl v
  refine ⟨t, haddr.trans ⟨_, hrun⟩, ht, fun k => (htexel k).trans ?_⟩
  simp only [hzero, Nat.zero_le, Nat.sub_zero, true_and, hlength, List.getElem_replicate, hhost, dite_eq_ite]
  rfl

/-- RECT of a texture that fits, run from an idle, configured block: what the draw leaves in the memories, and that all
but the flags and ARGs stays (R184). -/
theorem reaches_rect {a b : HostVal} (hs : s.schedule = []) (hl : s.lc = none) (hc : s.cfg = true)
    (hfits : s.texW.toNat * s.texH.toNat ≤ s.params.texCap)
    (hp : s.host.program = commandOps 0x03#32 [a, b] ++ rest) :
    ∃ t : State, Reaches s t ∧ t.host.program = rest ∧
      RectDrawn (s.host.eval a).toInt (s.host.eval b).toInt s t := by
  refine ⟨_, reaches_commandOps_two hs hl hp (decodeCommand_rect rfl) (exec_rect_of_fits _ _ hc hfits), rfl, ?_⟩
  set o : State := s.accepted ⟨0x03#32, s.host.eval a, s.host.eval b, s.arg2⟩ rest
  refine ⟨?_, drawTexture_tex .., readPixel_drawTexture_front _ _ o, fun addr => readPixel_drawTexture_outside _ _ o _,
    fun px py hx hy => ?_⟩
  · rw [complete_of_mem (drawTexture_eq ..)]
    rfl
  · have hback := readPixel_drawTexture_back (s.host.eval a).toInt (s.host.eval b).toInt o hx hy
    exact hback

end

end Sys2Proof.Machine
end

section
/-! PROOF. FILL: a texture of one code, drawn into the clipped rectangle (R104, R187). -/

namespace Sys2Proof.Machine

/-! ### The texture code m(c) (R102) -/

/-- m(c), as an entry of TEX holds it. -/
def texelCode (c : Int) : Texel := if 0 ≤ c ∧ c ≤ 65535 then BitVec.ofNat 16 c.toNat else 0#16

theorem texelCode_toNat {c : Int} (hc : 0 ≤ c ∧ c ≤ 65535) : ((texelCode c).toNat : Int) = c := by
  rw [texelCode, if_pos hc, BitVec.toNat_ofNat]
  omega

theorem texelCode_of_out {c : Int} (hc : ¬ (0 ≤ c ∧ c ≤ 65535)) : texelCode c = 0#16 := if_neg hc

/-- m keeps the codes, and makes no other number a code. -/
theorem validCode_texelCode (c : Int) : validCode ((texelCode c).toNat : Int) = validCode c := by
  by_cases hc : 0 ≤ c ∧ c ≤ 65535
  · rw [texelCode_toNat hc]
  · have hinvalid : validCode c = false := by
      rw [Bool.eq_false_iff, ne_eq, validCode_iff]
      omega
    rw [texelCode_of_out hc, hinvalid]
    rfl

/-- A register's value, as the host writes it to TEX_DATA. -/
theorem texelOf_setWidth (w : Word) : (texelOf w).setWidth 16 = texelCode w.toInt := by
  have hint : w.toInt = if 2 * w.toNat < 2 ^ 32 then (w.toNat : Int) else (w.toNat : Int) - (2 ^ 32 : Nat) :=
    BitVec.toInt_eq_toNat_cond w
  rw [texelOf]
  split
  next hw =>
    have hval : w.toInt = w.toNat := hint.trans (if_pos (by omega))
    rw [hval, texelCode, if_pos (by omega), Int.toNat_natCast]
    exact (BitVec.ofNat_toNat 16 w).symm
  next hw =>
    have := w.isLt
    rw [texelCode_of_out (by rw [hint]; split <;> omega)]
    rfl

/-! ### The operands' values -/

section
variable {s : State} {h : HostAgent} (hvars : ∀ y, h.getVar y = if y = statusVar then s.statusWord else s.host.getVar y)
include hvars

theorem getVar_toInt_eq_inFill (x : Nat) : (h.getVar x).toInt = Operand.inFill s (.var x) := by
  rw [hvars, Operand.inFill, apply_ite BitVec.toInt]

/-- An offset, as the host writes it to its ARG. -/
theorem eval_signed_eq_inFill {o : Operand} {v : HostVal} (hv : o.signed = .ok v)
    (hresult : v.usesResult = true → h.result = s.result) : (h.eval v).toInt = o.inFill s := by
  cases o with
  | int c =>
    obtain ⟨hfits, rfl⟩ := signed_int_eq_ok hv
    exact toInt_ofS32 hfits
  | var x =>
    cases hv
    exact getVar_toInt_eq_inFill hvars x
  | result =>
    cases hv
    exact congrArg BitVec.toInt (hresult rfl)

/-- The code, as the host writes it to TEX_DATA. -/
theorem eval_texel_eq_inFill {o : Operand} (hresult : o.texel.usesResult = true → h.result = s.result) :
    (h.eval o.texel).setWidth 16 = texelCode (o.inFill s) := by
  cases o with
  | int c =>
    rw [Operand.texel, HostAgent.eval, Operand.inFill, texelCode]
    split
    · exact BitVec.setWidth_ofNat_of_le (by decide) _
    · rfl
  | var x =>
    rw [← getVar_toInt_eq_inFill hvars]
    exact texelOf_setWidth _
  | result =>
    refine (texelOf_setWidth _).trans ?_
    rw [HostAgent.eval, hresult rfl, Operand.inFill]

end

/-! ### The rectangle -/

/-- A pixel of the rectangle is drawn from an entry of the texture. -/
theorem rowMajor_lt {w h i j : Nat} (hi : i < w) (hj : j < h) : j * w + i < w * h := by
  calc j * w + i < j * w + w := Nat.add_lt_add_left hi _
    _ = (j + 1) * w := (Nat.succ_mul j w).symm
    _ ≤ h * w := Nat.mul_le_mul_right w hj
    _ = w * h := Nat.mul_comm h w

/-- A texture of one code, drawn: the code's word where it is a code, in the rectangle and the buffer. -/
theorem RectDrawn.back_of_uniform {xoff yoff c : Int} {s t : State} {w h : Nat} (hdraw : RectDrawn xoff yoff s t)
    (hw : s.texW.toNat = w) (hh : s.texH.toNat = h) (htexel : ∀ k, k < w * h → s.readTexel k = texelCode c) {px py : Nat}
    (hx : px < s.width) (hy : py < s.height) :
    t.readPixel s.back (py * s.width + px) =
      if xoff ≤ (px : Int) ∧ (px : Int) < xoff + (w : Int) ∧ yoff ≤ (py : Int) ∧ (py : Int) < yoff + (h : Int) ∧
          1 ≤ c ∧ c ≤ 512
      then decodeWord c else s.readPixel s.back (py * s.width + px) := by
  rw [hdraw.back px py hx hy, hw, hh]
  by_cases hin : xoff ≤ (px : Int) ∧ (px : Int) < xoff + (w : Int) ∧ yoff ≤ (py : Int) ∧ (py : Int) < yoff + (h : Int)
  · obtain ⟨hx0, hx1, hy0, hy1⟩ := hin
    have hk := rowMajor_lt (show ((px : Int) - xoff).toNat < w by omega) (show ((py : Int) - yoff).toNat < h by omega)
    rw [htexel _ hk]
    simp only [hx0, hx1, hy0, hy1, true_and, validCode_texelCode, validCode_iff]
    refine if_ctx_congr Iff.rfl (fun hc => ?_) (fun _ => rfl)
    rw [texelCode_toNat (by omega)]
  · rw [if_neg fun hcond => hin ⟨hcond.1, hcond.2.1, hcond.2.2.1, hcond.2.2.2.1⟩,
      if_neg fun hcond => hin ⟨hcond.1, hcond.2.1, hcond.2.2.1, hcond.2.2.2.1⟩]

/-- FILL up to its RECT: TEX holds the texture of one code, and the operands of RECT are the offsets. -/
theorem reaches_fill_texture {s : State} {x y c : Operand} {w h : Nat} {own : List HostOp}
    (hfill : Stmt.expand s.params.texCap (.fill x y w h c) = .ok own) (hcap : s.params.texCap < 2 ^ 32)
    (hs : s.schedule = []) (hl : s.lc = none) (hp : s.host.program = ResultView.unread.before own) :
    ∃ (u : State) (x' y' : HostVal), Reaches s u ∧ w * h ≤ s.params.texCap ∧ inU32 w = true ∧ inU32 h = true ∧
      u = { s with
        texW := ofU32 w, texH := ofU32 h, texAddr := BitVec.ofNat 32 (w * h), hostData := u.hostData, host := u.host
        mem := { s.mem with tex := u.mem.tex } } ∧
      u.host.program = commandOps 0x03#32 [x', y'] ∧
      (u.host.eval x').toInt = x.inFill s ∧ (u.host.eval y').toInt = y.inFill s ∧
      ∀ k, u.readTexel k = if k < w * h then texelCode (c.inFill s) else s.readTexel k := by
  obtain ⟨tex, x', y', htex, hx, hy, hown⟩ := expand_fill_eq_ok hfill
  obtain ⟨hfits, hw, hh, rfl⟩ := settexOps_replicate_eq_ok htex
  obtain ⟨r, hread, hr, hprogram, hrvars, hrresult⟩ := reaches_before hs hl hp
  obtain ⟨u, hrun, hu, htexel⟩ := reaches_settex (s := r) (rest := commandOps 0x03#32 [x', y'])
    (by rw [hr]; exact hs) (by rw [hr]; exact hl) (by rw [hr]; exact hcap) (by rw [hr]; exact hfits)
    (hprogram.trans hown)
  have hstatus : r.statusWord = s.statusWord := by rw [hr]; rfl
  have hvars (z : Nat) : (r.host.setVar statusVar r.statusWord).getVar z =
      if z = statusVar then s.statusWord else s.host.getVar z := by
    rw [HostAgent.getVar_setVar, hstatus, HostAgent.getVar, HostAgent.getVar, hrvars]
  have heval (v : HostVal) : u.host.eval v = (r.host.setVar statusVar r.statusWord).eval v :=
    HostAgent.eval_congr (by rw [hu]) (by rw [hu]) v
  have hresult {slot : Fin 64} {v : HostVal} (hmem : .wr slot v ∈ own) (huses : v.usesResult = true) :
      (r.host.setVar statusVar r.statusWord).result = s.result := hrresult slot v hmem huses
  have hargs (v : HostVal) (hv : v = x' ∨ v = y') : ∃ slot, HostOp.wr slot v ∈ own := by
    rw [hown, commandOps_two]
    rcases hv with rfl | rfl
    · exact ⟨7, by simp⟩
    · exact ⟨8, by simp⟩
  refine ⟨u, x', y', hread.trans hrun, hfits, hw, hh, ?frame, by rw [hu], ?xoff, ?yoff, fun k => ?texel⟩
  case frame => rw [hu, hr]
  case xoff =>
    obtain ⟨slot, hmem⟩ := hargs x' (.inl rfl)
    rw [heval, eval_signed_eq_inFill hvars hx (hresult hmem)]
  case yoff =>
    obtain ⟨slot, hmem⟩ := hargs y' (.inr rfl)
    rw [heval, eval_signed_eq_inFill hvars hy (hresult hmem)]
  case texel =>
    have hold : r.readTexel k = s.readTexel k := by rw [hr]; rfl
    rw [htexel k, hold]
    refine if_ctx_congr Iff.rfl (fun hk => ?_) fun _ => rfl
    have hmem : HostOp.wr Reg.texData.slot c.texel ∈ own := by
      rw [hown, List.mem_append]
      exact .inl (by simp [Nat.ne_of_gt (Nat.zero_lt_of_lt hk)])
    exact eval_texel_eq_inFill hvars (hresult hmem)

/-- Settles O54: the texture of one code, and its draw. -/
theorem fillPaintsTheClippedRectangle : Obligations.FillPaintsTheClippedRectangle := by
  unfold Obligations.FillPaintsTheClippedRectangle
  intro s x y c w h ops hexp hlegal hs hl hc hp
  obtain ⟨own, hfill, rfl⟩ := expandFrom_singleton_eq_ok hexp
  obtain ⟨-, -, -, -, -, hcap⟩ := hlegal
  obtain ⟨u, x', y', hrun, hfits, hw, hh, hu, hprogram, hx, hy, htexel⟩ := reaches_fill_texture hfill hcap hs hl hp
  have hwidth : u.texW.toNat = w := by rw [hu]; exact toNat_ofU32 hw
  have hheight : u.texH.toNat = h := by rw [hu]; exact toNat_ofU32 hh
  obtain ⟨t, hrect, hdone, hdraw⟩ := reaches_rect (s := u) (a := x') (b := y') (rest := [])
    (by rw [hu]; exact hs) (by rw [hu]; exact hl) (by rw [hu]; exact hc) (by rw [hwidth, hheight, hu]; exact hfits)
    (hprogram.trans (List.append_nil _).symm)
  rw [hx, hy] at hdraw
  have ht : t = { s with
      texW := ofU32 w, texH := ofU32 h, texAddr := BitVec.ofNat 32 (w * h)
      done := true, lc := none, fsm := .idle, romSeen := [], arg0 := t.arg0, arg1 := t.arg1, hostData := t.hostData
      host := t.host, mem := t.mem } := by
    rw [hdraw.frame, hu]
  have hbanks (b : BankId) (a : Nat) : u.readPixel b a = s.readPixel b a := by
    rw [hu]
    exact readPixel_congr rfl rfl rfl b a
  have hfrontSel : u.frontSel = s.frontSel := by rw [hu]
  have hbackSel : u.back = s.frontSel.other := by rw [hu]; rfl
  have hbufW : u.width = s.fbW.toNat := by rw [hu]; rfl
  have hbufH : u.height = s.fbH.toNat := by rw [hu]; rfl
  obtain ⟨n, hn⟩ := (hrun.trans hrect).run
  refine ⟨n, t, hn, hdone, by rw [ht], by rw [ht]; rfl, by rw [ht]; rfl, by rw [ht], fun k => ?texel, by rw [ht],
    by rw [ht], by rw [ht], by rw [ht]; exact hc, by rw [ht], by rw [ht], by rw [ht], fun a => ?front,
    fun a ha => ?outside, fun px py hpx hpy => ?drawn⟩
  case texel => exact (readTexel_congr ⟨hdraw.tex, by rw [hdraw.frame]⟩ k).trans (htexel k)
  case front => rw [← hfrontSel, hdraw.front, hbanks]
  case outside => rw [← hbackSel, hdraw.outside a (by rw [hbufW, hbufH]; exact ha), hbanks]
  case drawn =>
    have hback := hdraw.back_of_uniform hwidth hheight (fun k hk => (htexel k).trans (if_pos hk)) (hbufW ▸ hpx)
      (hbufH ▸ hpy)
    rw [hbackSel, hbufW, hbanks] at hback
    exact hback

end Sys2Proof.Machine
end
